-- ==== Sys2Proof/Word.lean ====
section
/-! DEFINITION. Word.lean: the word types of the block and the plain records its tables hold
(00_scope.md R8, R10, R11; 10_state.md R51, R52). -/

namespace Sys2Proof

/-- A host register or data-bus word: REG_W = 32 bits (00_scope.md R8). -/
abbrev Word := BitVec 32

/-- One byte of a buffer. -/
abbrev Byte := BitVec 8

/-- A symbol: one byte value, 0..255 (00_scope.md R14). -/
abbrev Symbol := BitVec 8

/-- A node index: NODE_IDX_W = 9 bits (00_scope.md R8). -/
abbrev NodeIdx := BitVec 9

/-- A node weight: WEIGHT_W = 40 bits (00_scope.md R8). -/
abbrev Weight := BitVec 40

/-- One entry of the code table: `(CODE_LEN[s], CODE_VAL[s])`, where length 0 means "no code for this
symbol" (00_scope.md R11, 10_state.md R51). -/
structure Code where
  len : BitVec 8
  val : BitVec 256
  deriving DecidableEq, Repr, Inhabited

/-- One entry of the node arena (10_state.md R52). -/
inductive Node where
  | leaf (sym : Symbol) (weight : Weight)
  | internal (left right : NodeIdx) (weight : Weight)
  deriving DecidableEq, Repr, Inhabited

/-- The weight field of a node. -/
def Node.weight : Node → Weight
  | .leaf _ w => w
  | .internal _ _ w => w

/-- Which of the two local byte buffers (10_state.md R58). -/
inductive BufferId where
  | input
  | output
  deriving DecidableEq, Repr

/-- A table with one entry for each symbol 0..255: FREQ and the code table (10_state.md R50, R51). -/
abbrev Table (α : Type) := Vector α 256

end Sys2Proof
end

