-- ==== Sys2Proof/Syntax.lean ====
section
/-! DEFINITION. Syntax.lean: the ten commands (30_encoding.md R112), the host's accesses (20_memory.md R81), the
host-visible registers by name (10_state.md R40), the events of a run (20_memory.md R94) and the host-program
notation (30_encoding.md R120-R124). -/

namespace Sys2Proof

/-- The commands of HUF-CMD v1, one constructor per row of spec/opcode_table.json (30_encoding.md R112). A command
word carries no operand (R111): every operand is a register or a table, read at completion. -/
inductive Instr where
  | nop
  | freqClear
  | freqCount
  | treeBuild
  | codeAssign
  | buildTable
  | compress
  | decompress
  | codeClear
  | tableLoad
  deriving DecidableEq, Repr

/-- The host-visible registers by name (10_state.md R40); CODE_VAL0..CODE_VAL7 are `codeVal 0 .. codeVal 7`. -/
inductive Reg where
  | id
  | status
  | cmd
  | intEnable
  | intStatus
  | srcAddr
  | srcLen
  | dstAddr
  | dstCap
  | expectCount
  | resultLen
  | resultBits
  | resultCount
  | nsym
  | symIndex
  | freqData
  | codeLen
  | codeVal (k : Fin 8)
  | nodeIndex
  | nodeInfo
  | nodeWeightLo
  | nodeWeightHi
  | treeInfo
  deriving DecidableEq, Repr

/-- The size of a host access: 1, 2 or 4 bytes (20_memory.md R81). -/
inductive AccessSize where
  | byte
  | half
  | word
  deriving DecidableEq, Repr

/-- The size in bytes. -/
def AccessSize.bytes : AccessSize → Nat
  | .byte => 1
  | .half => 2
  | .word => 4

/-- A host access `(dir, offset, size, data)` (20_memory.md R81). A write's data has 8·size bits; it is held in a
word and only its low 8·size bits are ever read (log 20). -/
inductive HostAccess where
  | read (offset : Word) (size : AccessSize)
  | write (offset : Word) (size : AccessSize) (data : Word)
  deriving DecidableEq, Repr

/-- One event of a run (20_memory.md R94): a host access, the block's turn (its completion step, if it is enabled),
or an assertion of the reset input (70_reset_and_hazards.md R290). -/
inductive Event where
  | host (a : HostAccess)
  | block
  | reset
  deriving DecidableEq, Repr

/-- One line of a host program (30_encoding.md R120-R124). `wait polls` is one unrolling of the WAIT loop: `polls`
reads of STATUS that still see BUSY = 1 before the completion, and the read that sees BUSY = 0 (log 21). -/
inductive HostLine where
  | w (r : Reg) (v : Word)
  | r (r : Reg)
  | writeIn (size : AccessSize) (a : Nat) (v : Word)
  | writeOut (size : AccessSize) (a : Nat) (v : Word)
  | readIn (size : AccessSize) (a : Nat)
  | readOut (size : AccessSize) (a : Nat)
  | cmd (i : Instr)
  | wait (polls : Nat)
  | run (i : Instr) (polls : Nat)
  | load (a : Nat) (text : List Byte)
  | setCode (s : Symbol) (len : BitVec 8) (val : BitVec 256)
  deriving DecidableEq, Repr

end Sys2Proof
end

