-- ==== Sys2Proof/Decode.lean ====
section
/-! DEFINITION. Decode.lean: the command decoder and encoder (30_encoding.md R110-R115) and the register address map
(10_state.md R40). -/

namespace Sys2Proof

/-- Why a word is no command (30_encoding.md R114). -/
inductive DecodeError where
  /-- Some bit of RSVD = w[31:8] is set. -/
  | reservedBitsSet
  /-- RSVD = 0 and OPC is in 0x0A..0xFF. -/
  | opcodeUnassigned
  deriving DecidableEq, Repr

/-- The opcode field `OPC = w[7:0]` (30_encoding.md R110). -/
def opcodeField (w : Word) : BitVec 8 := w.extractLsb' 0 8

/-- The reserved field `RSVD = w[31:8]` (30_encoding.md R110). -/
def reservedField (w : Word) : BitVec 24 := w.extractLsb' 8 24

/-- The opcode map of 30_encoding.md R112. -/
def instrOfOpcode (opc : BitVec 8) : Option Instr :=
  match opc.toNat with
  | 0 => some .nop
  | 1 => some .freqClear
  | 2 => some .freqCount
  | 3 => some .treeBuild
  | 4 => some .codeAssign
  | 5 => some .buildTable
  | 6 => some .compress
  | 7 => some .decompress
  | 8 => some .codeClear
  | 9 => some .tableLoad
  | _ => none

/-- The decoder of 30_encoding.md R113, total on every 32-bit word. -/
def decode (w : Word) : Except DecodeError Instr :=
  if reservedField w ≠ 0 then .error .reservedBitsSet
  else
    match instrOfOpcode (opcodeField w) with
    | some i => .ok i
    | none => .error .opcodeUnassigned

/-- The opcode of a command (30_encoding.md R112). -/
def Instr.opcode : Instr → BitVec 8
  | .nop => 0x00
  | .freqClear => 0x01
  | .freqCount => 0x02
  | .treeBuild => 0x03
  | .codeAssign => 0x04
  | .buildTable => 0x05
  | .compress => 0x06
  | .decompress => 0x07
  | .codeClear => 0x08
  | .tableLoad => 0x09

/-- The command word: `zext_32(OPC)` (30_encoding.md R112). -/
def encode (i : Instr) : Word := i.opcode.zeroExtend 32

/-- The instruction the decoder reads from a table word of `nbits` bits, its bits above `nbits` zero. A command is one
32-bit word and is never stored in a memory the block fetches from (20_memory.md R99), so there are no further operand
words and no byte order to apply. -/
def decodeTableWord (nbits w : Nat) : Option Instr :=
  if nbits ≤ 32 then
    match decode (BitVec.ofNat 32 (w % 2 ^ nbits)) with
    | .ok i => some i
    | .error _ => none
  else none

/-- The byte offset of a register (10_state.md R40). -/
def Reg.offset : Reg → Word
  | .id => 0x000
  | .status => 0x004
  | .cmd => 0x008
  | .intEnable => 0x00C
  | .intStatus => 0x010
  | .srcAddr => 0x014
  | .srcLen => 0x018
  | .dstAddr => 0x01C
  | .dstCap => 0x020
  | .expectCount => 0x024
  | .resultLen => 0x028
  | .resultBits => 0x02C
  | .resultCount => 0x030
  | .nsym => 0x034
  | .symIndex => 0x038
  | .freqData => 0x03C
  | .codeLen => 0x040
  | .codeVal k => BitVec.ofNat 32 (0x044 + 4 * k.val)
  | .nodeIndex => 0x064
  | .nodeInfo => 0x068
  | .nodeWeightLo => 0x06C
  | .nodeWeightHi => 0x070
  | .treeInfo => 0x074

/-- The registers of 10_state.md R40 in offset order. -/
def Reg.all : List Reg :=
  [.id, .status, .cmd, .intEnable, .intStatus, .srcAddr, .srcLen, .dstAddr, .dstCap, .expectCount,
   .resultLen, .resultBits, .resultCount, .nsym, .symIndex, .freqData, .codeLen,
   .codeVal 0, .codeVal 1, .codeVal 2, .codeVal 3, .codeVal 4, .codeVal 5, .codeVal 6, .codeVal 7,
   .nodeIndex, .nodeInfo, .nodeWeightLo, .nodeWeightHi, .treeInfo]

/-- The register at a byte offset, if one is mapped exactly there: none at 0x078-0x0FF, at a misaligned offset or
outside the register space (20_memory.md R80, R86). -/
def regAt (offset : Word) : Option Reg := Reg.all.find? fun r => decide (r.offset = offset)

end Sys2Proof
end

