-- ==== Sys2Proof/Config.lean ====
section
/-! DEFINITION. Config.lean: the parameters the spec leaves to the platform (00_scope.md R8, 20_memory.md R80,
42_tree_builder.md R178) and the free values (20_memory.md R89, 10_state.md R52, 42_tree_builder.md R178). -/

namespace Sys2Proof

/-- The tie-break of the priority queue (42_tree_builder.md R172, R178): the hardware fixes `lowestKey`;
`anyMin` is the model parameter that covers every order HUF admits. -/
inductive TieBreak where
  | lowestKey
  | anyMin
  deriving DecidableEq, Repr

/-- The parameters of one instance of the block, constant while it runs. -/
structure Config where
  /-- IN_CAP, bytes in IN_MEM (00_scope.md R8). -/
  inCap : Nat
  /-- OUT_CAP, bytes in OUT_MEM (00_scope.md R8). -/
  outCap : Nat
  /-- TIE_BREAK (00_scope.md R8). -/
  tieBreak : TieBreak
  /-- HOST_BASE, where the aperture's offset 0 sits on the host bus (20_memory.md R80). -/
  hostBase : Nat
  deriving DecidableEq, Repr

/-- The defaults of 00_scope.md R8. HOST_BASE is OPEN in the spec: 0 here is a DESIGN CHOICE (log 10). -/
def Config.standard : Config :=
  { inCap := 65536, outCap := 65536, tieBreak := .lowestKey, hostBase := 0 }

/-- FREE VALUE (log 4). The byte that offset `a` of a buffer holds after the `epoch`-th reset until something
writes it: "an unspecified value, which a model takes as a free draw" (20_memory.md R89,
70_reset_and_hazards.md R292). -/
opaque Config.resetByte (buffer : BufferId) (epoch : Nat) (a : Nat) : Byte

/-- FREE VALUE (log 6). What NODE[k] holds after the `epoch`-th reset until TREE_BUILD writes it
(10_state.md R52: "contents unspecified (unobservable)"). -/
opaque Config.resetNode (epoch : Nat) (k : Nat) : Node

/-- FREE VALUE (log 7). The `i`-th tie-break draw under TIE_BREAK = any_min (42_tree_builder.md R178). -/
opaque Config.tieDraw (i : Nat) : Nat

end Sys2Proof
end

