-- ==== Sys2Proof/Machine/State.lean ====
section
/-! DEFINITION. Machine/State.lean: every piece of state the spec gives the block (10_state.md R30-R60), the error codes
(60_exceptions.md R260), the reasons a step could stop, and the state after reset (70_reset_and_hazards.md R290). -/

namespace Sys2Proof.Machine

/-- A byte memory as data: `(offset, byte)` pairs at strictly rising offsets, one pair for every byte written since the
last reset. What an unlisted offset reads as is `byteAt` in Machine/Ops.lean (log 4, 5). -/
abbrev Memory := List Host.Cell

/-- The error codes (60_exceptions.md R260). -/
inductive ErrCode where
  /-- 0x00, every command on success. -/
  | ok
  /-- 0x01, TREE_BUILD and BUILD_TABLE: no symbol to build from. -/
  | emptyInput
  /-- 0x02, COMPRESS: an input byte has no code. -/
  | unknownSymbol
  /-- 0x03, DECOMPRESS: the bits end before EXPECT_COUNT symbols. -/
  | truncatedInput
  /-- 0x04, CODE_ASSIGN and BUILD_TABLE, and every command while FATAL = 1. -/
  | invariantViolation
  /-- 0x10, any word that is no command. -/
  | illegalCmd
  /-- 0x11, a source or destination range outside its buffer. -/
  | range
  /-- 0x12, CODE_ASSIGN without a valid tree. -/
  | noTree
  /-- 0x13, COMPRESS and DECOMPRESS without a valid table. -/
  | noTable
  /-- 0x14, COMPRESS and DECOMPRESS: the output does not fit DST_CAP. -/
  | outputOverflow
  /-- 0x15, FREQ_COUNT: a count would exceed 2^32 - 1. -/
  | countOverflow
  /-- 0x16, TABLE_LOAD: the code table is not well-formed. -/
  | badTable
  deriving DecidableEq, Repr

/-- The reasons a step stops with a fault. The block has none: "This block has no traps in the processor sense: an error
ends the current command and is reported in STATUS.ERR and INT_STATUS" (60_exceptions.md), and a rejected host access is
itself a next state (20_memory.md R87). So the type is closed and empty: no step can fault (log 13). -/
inductive Fault where
  deriving DecidableEq, Repr

/-- The reasons a step is refused. -/
inductive Refusal where
  /-- Raised only by an arm of `exec` whose command has no meaning yet; every arm has one, so no step raises it. Safe: a
  refusal stops the run and proves nothing about the hardware. -/
  | notModelled (mnemonic : String)
  deriving DecidableEq, Repr

/-- The whole state of the block, and the model's own fields at its end. -/
structure State where
  /-- IN_CAP, OUT_CAP, TIE_BREAK, HOST_BASE (00_scope.md R8, 20_memory.md R80): constant over every step. -/
  cfg : Config
  /-- STATUS.BUSY (10_state.md R34). -/
  busy : Bool
  /-- STATUS.TREE_VALID (10_state.md R34). -/
  treeValid : Bool
  /-- STATUS.TABLE_VALID (10_state.md R34). -/
  tableValid : Bool
  /-- STATUS.FATAL (10_state.md R34). -/
  fatal : Bool
  /-- STATUS.ERR (10_state.md R34). -/
  err : BitVec 8
  /-- CUR_CMD, the latched command word (10_state.md R57). -/
  curCmd : Word
  /-- INT_ENABLE[3:0]; bits [31:4] are reserved and read 0 (10_state.md R40, R41). -/
  intEnable : BitVec 4
  /-- INT_STATUS[3:0]; bits [31:4] are reserved and read 0 (10_state.md R40, R41). -/
  intStatus : BitVec 4
  /-- SRC_ADDR (10_state.md R40). -/
  srcAddr : Word
  /-- SRC_LEN (10_state.md R40). -/
  srcLen : Word
  /-- DST_ADDR (10_state.md R40). -/
  dstAddr : Word
  /-- DST_CAP (10_state.md R40). -/
  dstCap : Word
  /-- EXPECT_COUNT (10_state.md R40). -/
  expectCount : Word
  /-- RESULT_LEN (10_state.md R40). -/
  resultLen : Word
  /-- RESULT_BITS (10_state.md R40). -/
  resultBits : Word
  /-- RESULT_COUNT (10_state.md R40). -/
  resultCount : Word
  /-- SYM_INDEX (10_state.md R40). -/
  symIndex : Symbol
  /-- NODE_INDEX (10_state.md R40). -/
  nodeIndex : NodeIdx
  /-- FREQ[0..255] (10_state.md R50). -/
  freq : Table Word
  /-- CODE_LEN[0..255] and CODE_VAL[0..255] (10_state.md R51). -/
  codes : Table Code
  /-- NODE[0..510]: the entries written since reset, entry 0 first (10_state.md R52, log 6). -/
  nodes : List Node
  /-- ROOT (10_state.md R52). -/
  root : NodeIdx
  /-- NODE_COUNT (10_state.md R52). -/
  nodeCount : BitVec 10
  /-- LEAF_COUNT (10_state.md R52). -/
  leafCount : BitVec 9
  /-- IN_MEM (10_state.md R58). -/
  inMem : Memory
  /-- OUT_MEM (10_state.md R58). -/
  outMem : Memory
  /-- MODEL's own (log 1): the events still to come, the next one first. -/
  sched : List Event
  /-- MODEL's own (log 3): what the host port returned in the last host access. -/
  resp : Option Word
  /-- MODEL's own (log 4): how many resets the run has had. -/
  epoch : Nat
  /-- MODEL's own (log 7): how many tie-break draws the run has used. -/
  tieDraws : Nat
  deriving DecidableEq, Repr

/-- The state after reset: every value of 70_reset_and_hazards.md R290; CUR_CMD is unspecified there and 0 here (log 8),
the buffers and the arena list nothing, and the model's own fields start empty (log 1, 3, 4, 7). -/
def State.reset : State where
  cfg := Config.standard
  busy := false
  treeValid := false
  tableValid := false
  fatal := false
  err := 0
  curCmd := 0
  intEnable := 0
  intStatus := 0
  srcAddr := 0
  srcLen := 0
  dstAddr := 0
  dstCap := 0
  expectCount := 0
  resultLen := 0
  resultBits := 0
  resultCount := 0
  symIndex := 0
  nodeIndex := 0
  freq := Vector.replicate 256 0
  codes := Vector.replicate 256 { len := 0, val := 0 }
  nodes := []
  root := 0
  nodeCount := 0
  leafCount := 0
  inMem := []
  outMem := []
  sched := []
  resp := none
  epoch := 0
  tieDraws := 0

end Sys2Proof.Machine
end

