-- ==== Sys2Proof/Machine/Ops.lean ====
section
/-! DEFINITION. Machine/Ops.lean: the named operations over the tables, the buffers, the node arena and the interrupt
bits; and the completion step, which is how this block reports an error (40_command_lifecycle.md R133,
60_exceptions.md R260, R267). -/

namespace Sys2Proof.Machine

/-! ### Tables indexed by symbol (10_state.md R50, R51) -/

/-- `for s in 0..255`: every symbol in ascending order (00_scope.md R12). -/
def symbols : List Symbol := (List.range 256).map (BitVec.ofNat 8)

/-- Entry `s` of a table. -/
def entry {α : Type} (t : Table α) (s : Symbol) : α := t[s.toNat]'s.isLt

/-- `t[s] <- v`: entry `s` replaced, every other entry kept. -/
def setEntry {α : Type} (t : Table α) (s : Symbol) (v : α) : Table α := Vector.set t s.toNat v s.isLt

/-- The table with the same entry for every symbol. -/
def constTable {α : Type} (v : α) : Table α := Vector.replicate 256 v

/-- Every symbol with its entry, in ascending order of symbol. -/
def entries {α : Type} (t : Table α) : List (Symbol × α) := symbols.zip t.toList

/-- The table whose entry for `s` is `f s` of the old entry. -/
def mapEntries {α β : Type} (f : Symbol → α → β) (t : Table α) : Table β :=
  ⟨⟨(entries t).map fun e => f e.1 e.2⟩, by
    simp only [entries, symbols, List.size_toArray, List.length_map, List.length_zip, List.length_range,
      Vector.length_toList, Nat.min_self]⟩

/-- A table with no count or no code: `FREQ[s] <- 0` for every s (41_frequency_counter.md R150). -/
def emptyFreq : Table Word := constTable 0

/-- `CODE_LEN[s] <- 0; CODE_VAL[s] <- 0` for every s (43_code_assigner.md R201). -/
def emptyCodes : Table Code := constTable { len := 0, val := 0 }

/-! ### Byte memories (20_memory.md R82, R84, R85, R89) -/

/-- The byte written at offset `a` since the last reset, if there is one. -/
def memGet : Memory → Nat → Option Byte
  | [], _ => none
  | (k, b) :: rest, a => if k = a then some b else memGet rest a

/-- `MEM[a] <- b`, keeping the offsets strictly rising. -/
def memSet : Memory → Nat → Byte → Memory
  | [], a, b => [(a, b)]
  | (k, c) :: rest, a, b =>
    if a < k then (a, b) :: (k, c) :: rest
    else if a = k then (a, b) :: rest
    else (k, c) :: memSet rest a b

/-- The canonical form: offsets strictly rising. An unlisted offset has no written byte, and every listed one has a
byte, so no entry equals what an unlisted offset holds (log 5). -/
abbrev Memory.wf (m : Memory) : Prop := m.Pairwise fun x y => x.1 < y.1

/-- Every listed offset lies below a capacity (10_state.md R58). -/
abbrev Memory.below (cap : Nat) (m : Memory) : Prop := ∀ c ∈ m, c.1 < cap

/-- The contents of one of the two buffers. -/
def bufferOf (s : State) : BufferId → Memory
  | .input => s.inMem
  | .output => s.outMem

/-- The capacity of one of the two buffers (00_scope.md R8). -/
def capOf (c : Config) : BufferId → Nat
  | .input => c.inCap
  | .output => c.outCap

/-- What offset `a` of a buffer reads as: the byte last written there since reset, else that byte's draw
(20_memory.md R89; log 4). This is the one definition of what an unlisted offset reads as. -/
def byteAt (s : State) (b : BufferId) (a : Nat) : Byte :=
  (memGet (bufferOf s b) a).getD (Config.resetByte b s.epoch a)

/-- `Σ_{i<n} MEM[a+i] · 2^(8i)` (20_memory.md R82). -/
def leValue (s : State) (b : BufferId) (a : Nat) : Nat → Nat
  | 0 => 0
  | n + 1 => leValue s b a n + (byteAt s b (a + n)).toNat * 2 ^ (8 * n)

/-- A little-endian store of the `n` low bytes of `d` at `a .. a+n-1` (20_memory.md R82). -/
def storeLE (m : Memory) (a : Nat) (d : Word) : Nat → Memory
  | 0 => m
  | n + 1 => memSet (storeLE m a d n) (a + n) (d.extractLsb' (8 * n) 8)

/-! ### The node arena (10_state.md R52) -/

/-- `NODE[k]`: the node written there since reset, else that entry's unspecified contents (log 6). -/
def nodeAt (s : State) (k : NodeIdx) : Node :=
  (s.nodes[k.toNat]?).getD (Config.resetNode s.epoch k.toNat)

/-! ### Interrupt bits (60_exceptions.md R269, R270) -/

/-- The interrupt sources (60_exceptions.md R269). -/
inductive IntSource where
  | done
  | err
  | accessErr
  | cmdOverrun
  deriving DecidableEq, Repr

/-- The bit of a source in INT_STATUS and INT_ENABLE (10_state.md R40). -/
def IntSource.bit : IntSource → Nat
  | .done => 0
  | .err => 1
  | .accessErr => 2
  | .cmdOverrun => 3

/-- INT_STATUS with one source's bit set; setting a bit already 1 leaves it 1 (60_exceptions.md R269). -/
def pend (v : BitVec 4) (i : IntSource) : BitVec 4 := v ||| ((1 : BitVec 4) <<< i.bit)

/-- `INT_STATUS.<i> <- 1`. -/
def raiseInt (s : State) (i : IntSource) : State := { s with intStatus := pend s.intStatus i }

/-- The host's W1C write of INT_STATUS, which is also all the "return" an error has: the host clears the bits it has
seen, and nothing is restored (10_state.md R42, 60_exceptions.md R268). -/
def acknowledge (s : State) (w : Word) : State :=
  { s with intStatus := s.intStatus &&& ~~~(w.extractLsb' 0 4) }

/-- The interrupt output, level-sensitive and active-high: the OR of INT_STATUS[i] AND INT_ENABLE[i]
(60_exceptions.md R270). -/
def irq (s : State) : Bool := decide (s.intStatus &&& s.intEnable ≠ 0)

/-! ### Completion and errors (40_command_lifecycle.md R133, R134, R138; 60_exceptions.md R260, R261, R267) -/

/-- The 8-bit code of an error (60_exceptions.md R260). -/
def ErrCode.code : ErrCode → BitVec 8
  | .ok => 0x00
  | .emptyInput => 0x01
  | .unknownSymbol => 0x02
  | .truncatedInput => 0x03
  | .invariantViolation => 0x04
  | .illegalCmd => 0x10
  | .range => 0x11
  | .noTree => 0x12
  | .noTable => 0x13
  | .outputOverflow => 0x14
  | .countOverflow => 0x15
  | .badTable => 0x16

/-- What a command reports at its completion: `(err, rl, rb, rc)` of 40_command_lifecycle.md R133, in exact
arithmetic. -/
structure Report where
  err : ErrCode
  len : Nat
  bits : Nat
  count : Nat
  deriving DecidableEq, Repr

/-- `finish`: success; a result that the command's rule does not assign is 0 (40_command_lifecycle.md R135). -/
def finish (len bits count : Nat := 0) : Report := { err := .ok, len := len, bits := bits, count := count }

/-- `raise e`: the command ends with error `e`; a result not assigned on that path is 0 (60_exceptions.md R260, R261). -/
def raise (e : ErrCode) (len bits count : Nat := 0) : Report := { err := e, len := len, bits := bits, count := count }

/-- The completion record (40_command_lifecycle.md R133). This is the one place where an error is taken: ERR and the
three result registers are written, BUSY falls, DONE is set, and INT_STATUS.ERR is set when the code is not 0. There is
no vector, no saved pc and no mode change (60_exceptions.md R267). DESIGN CHOICE (log 25): CUR_CMD, open and unread while
BUSY = 0, keeps the completed word. -/
def complete (s : State) (r : Report) : State :=
  { s with
    resultLen := BitVec.ofNat 32 r.len
    resultBits := BitVec.ofNat 32 r.bits
    resultCount := BitVec.ofNat 32 r.count
    err := r.err.code
    busy := false
    intStatus := if r.err = .ok then pend s.intStatus .done else pend (pend s.intStatus .done) .err }

/-- One completion step with the effect `body`: while FATAL = 1 every command completes with INVARIANT_VIOLATION and no
other effect (40_command_lifecycle.md R134, R138); otherwise the body's effect and its report. -/
def command (s : State) (body : State → State × Report) : Host.Outcome State Fault Refusal :=
  .next (if s.fatal then complete s (raise .invariantViolation) else complete (body s).1 (body s).2)

/-- ILLEGAL: a word that is no command completes with ILLEGAL_CMD and no other effect (40_command_lifecycle.md R137). -/
def illegalBody (s : State) : State × Report := (s, raise .illegalCmd)

end Sys2Proof.Machine
end

