-- ==== Sys2Proof/Machine/Flags.lean ====
section
/-! DEFINITION. Machine/Flags.lean: the computed flags and status words: NSYM, STATUS, the tree windows
(10_state.md R34, R40, R53-R55, R60) and the well-formedness of a code table, which TABLE_VALID stands for
(43_code_assigner.md R200). -/

namespace Sys2Proof.Machine

/-- The keys of the Frequency Table in ascending order: the symbols with a non-zero count (10_state.md R60). -/
def present (t : Table Word) : List Symbol := ((entries t).filter fun e => e.2 ≠ 0).map Prod.fst

/-- `NSYM = #{ s in 0..255 : FREQ[s] ≠ 0 }` (10_state.md R60). -/
def nsym (t : Table Word) : Nat := (present t).length

/-- The symbols that have a code, with it: the entries with CODE_LEN ≠ 0 (10_state.md R51). -/
def coded (t : Table Code) : List (Symbol × Code) := (entries t).filter fun e => e.2.len ≠ 0

/-- `#{ s : CODE_LEN[s] ≠ 0 }` (43_code_assigner.md R190, R202). -/
def codedCount (t : Table Code) : Nat := (coded t).length

/-- `prefix(s, t)` of 43_code_assigner.md R200, on codes; equal codes count. -/
def isPrefix (c d : Code) : Bool :=
  decide (c.len ≤ d.len) && decide (d.val >>> (d.len.toNat - c.len.toNat) = c.val)

/-- `CODE_VAL < 2^CODE_LEN` (43_code_assigner.md R200). -/
def codeFits (c : Code) : Bool := decide (c.val.toNat < 2 ^ c.len.toNat)

/-- WF of 43_code_assigner.md R200: some symbol has a code, every code fits its length, and no code is a prefix of
another symbol's. It quantifies over the coded entries, since R200's conditions bind only those. -/
def codeTableWf (t : Table Code) : Bool :=
  let cs := coded t
  !cs.isEmpty && cs.all (fun e => codeFits e.2) &&
    cs.all fun e => cs.all fun f => decide (e.1 = f.1) || !isPrefix e.2 f.2

/-- STATUS (10_state.md R40): [15:8] ERR, [3] FATAL, [2] TABLE_VALID, [1] TREE_VALID, [0] BUSY, every other bit 0. -/
def statusWord (s : State) : Word :=
  (0 : BitVec 16) ++ s.err ++ (0 : BitVec 4) ++ BitVec.ofBool s.fatal ++ BitVec.ofBool s.tableValid ++
    BitVec.ofBool s.treeValid ++ BitVec.ofBool s.busy

/-- The validity condition of the tree windows: TREE_VALID = 1 and NODE_INDEX < NODE_COUNT (10_state.md R53). -/
def nodeVisible (s : State) : Bool := s.treeValid && decide (s.nodeIndex.toNat < s.nodeCount.toNat)

/-- The NODE_INFO encoding of a node: [31] VALID, [30] INTERNAL, [24:16] RIGHT, [8:0] LEFT or [7:0] SYMBOL
(10_state.md R53). -/
def nodeInfoOf : Node → Word
  | .leaf sym _ => (1 : BitVec 1) ++ (0 : BitVec 1) ++ (0 : BitVec 22) ++ sym
  | .internal left right _ => (1 : BitVec 1) ++ (1 : BitVec 1) ++ (0 : BitVec 5) ++ right ++ (0 : BitVec 7) ++ left

/-- NODE_INFO (10_state.md R53). -/
def nodeInfoWord (s : State) : Word := if nodeVisible s then nodeInfoOf (nodeAt s s.nodeIndex) else 0

/-- NODE_WEIGHT_LO: weight[31:0] (10_state.md R54). -/
def nodeWeightLoWord (s : State) : Word :=
  if nodeVisible s then (nodeAt s s.nodeIndex).weight.extractLsb' 0 32 else 0

/-- NODE_WEIGHT_HI: weight[39:32] (10_state.md R54). -/
def nodeWeightHiWord (s : State) : Word :=
  if nodeVisible s then ((nodeAt s s.nodeIndex).weight.extractLsb' 32 8).zeroExtend 32 else 0

/-- TREE_INFO: [25:16] NODE_COUNT, [8:0] ROOT while TREE_VALID = 1, else 0 (10_state.md R55). -/
def treeInfoWord (s : State) : Word :=
  if s.treeValid then (0 : BitVec 6) ++ s.nodeCount ++ (0 : BitVec 7) ++ s.root else 0

end Sys2Proof.Machine
end

