-- ==== Sys2Proof/Machine/Operands.lean ====
section
/-! DEFINITION. Machine/Operands.lean: every operand form of the commands (30_encoding.md R111): the source range, the
destination range, the input bytes, and the bit sequences of codes and bytes (00_scope.md R11, 20_memory.md R83). -/

namespace Sys2Proof.Machine

/-- The source check `SRC_ADDR + SRC_LEN ≤ IN_CAP`, unbounded arithmetic (60_exceptions.md R264). -/
def srcInRange (s : State) : Bool := decide (s.srcAddr.toNat + s.srcLen.toNat ≤ s.cfg.inCap)

/-- The destination check `DST_ADDR + DST_CAP ≤ OUT_CAP`, unbounded arithmetic (60_exceptions.md R264). -/
def dstInRange (s : State) : Bool := decide (s.dstAddr.toNat + s.dstCap.toNat ≤ s.cfg.outCap)

/-- The source operand: `MemRead(IN, SRC_ADDR + i, 1)` for i = 0 .. SRC_LEN - 1 (20_memory.md R84). -/
def srcBytes (s : State) : List Byte :=
  (List.range s.srcLen.toNat).map fun i => byteAt s .input (s.srcAddr.toNat + i)

/-- The low `n` bits of `v`, most significant first: `bits(len, val)` of 00_scope.md R11. -/
def bitsMsb : Nat → Nat → List Bool
  | 0, _ => []
  | n + 1, v => v.testBit n :: bitsMsb n v

/-- The bit sequence of a code (00_scope.md R11). -/
def codeBits (c : Code) : List Bool := bitsMsb c.len.toNat c.val.toNat

/-- The bits of a byte in stream order: bit 7 first (20_memory.md R83). -/
def byteBits (b : Byte) : List Bool := bitsMsb 8 b.toNat

/-- The bitstream of a byte sequence (20_memory.md R83). -/
def streamBits (l : List Byte) : List Bool := l.flatMap byteBits

/-- The bitstream that COMPRESS produces: the codes of the input symbols, concatenated (44_bitstream_packer.md R221). -/
def encodedBits (t : Table Code) (input : List Byte) : List Bool := input.flatMap fun x => codeBits (entry t x)

/-- `total`: the sum of CODE_LEN over the input symbols (44_bitstream_packer.md R220, pass 1). -/
def totalBits (t : Table Code) (input : List Byte) : Nat := (input.map fun x => (entry t x).len.toNat).sum

end Sys2Proof.Machine
end

