-- ==== Sys2Proof/Machine/HostPort.lean ====
section
/-! DEFINITION. Machine/HostPort.lean: the host's accesses (20_memory.md R80-R92), the effect of register reads and
writes (10_state.md R40-R43; 41_frequency_counter.md R155; 43_code_assigner.md R205), issue and overrun
(40_command_lifecycle.md R130, R131). -/

namespace Sys2Proof.Machine

/-- What an access names (20_memory.md R80). -/
inductive Target where
  | reg (r : Reg)
  | buffer (b : BufferId) (a : Nat)
  deriving DecidableEq, Repr

/-- A buffer access of `n` bytes at offset `a` of the buffer is well placed when it is naturally aligned and every byte
of it is mapped (20_memory.md R86). -/
def bufferTarget (c : Config) (b : BufferId) (a n : Nat) : Option Target :=
  if a % n = 0 ∧ a + n ≤ capOf c b then some (.buffer b a) else none

/-- The target of an access of the given offset and size, if it is mapped, aligned and of a legal size
(20_memory.md R80, R86, R88). -/
def resolve (c : Config) (offset : Word) (size : AccessSize) : Option Target :=
  if offset.toNat < 0x100 then
    if size = .word then (regAt offset).map .reg else none
  else if offset.toNat < 0x01000000 then none
  else if offset.toNat < 0x02000000 then bufferTarget c .input (offset.toNat - 0x01000000) size.bytes
  else if offset.toNat < 0x03000000 then bufferTarget c .output (offset.toNat - 0x02000000) size.bytes
  else none

/-- The aperture offset of a host bus address: HOST_BASE is where offset 0 sits (20_memory.md R80; log 10). -/
def apertureOffset (c : Config) (address : Nat) : Option Word :=
  if c.hostBase ≤ address ∧ address - c.hostBase < 2 ^ 32 then some (BitVec.ofNat 32 (address - c.hostBase)) else none

/-- The reads that are accepted while BUSY = 1 (20_memory.md R90). -/
def readableWhileBusy : Target → Bool
  | .reg .id => true
  | .reg .status => true
  | .reg .intEnable => true
  | .reg .intStatus => true
  | _ => false

/-- The writes that are accepted while BUSY = 1 (20_memory.md R90); a CMD write is R131's, not one of these. -/
def writableWhileBusy : Target → Bool
  | .reg .intEnable => true
  | .reg .intStatus => true
  | _ => false

/-- The 32-bit slice k of a code value: `CODE_VAL[32k+31:32k]` (10_state.md R51). -/
def codeValSlice (v : BitVec 256) (k : Fin 8) : Word := v.extractLsb' (32 * k.val) 32

/-- `CODE_VAL[32k+31:32k] <- w`, every other bit kept (43_code_assigner.md R205). -/
def setCodeValSlice (v : BitVec 256) (k : Fin 8) (w : Word) : BitVec 256 :=
  (v &&& ~~~((0xFFFFFFFF : BitVec 256) <<< (32 * k.val))) ||| (w.zeroExtend 256 <<< (32 * k.val))

/-- The value a register reads as (10_state.md R40, R43, R50-R55, R60). -/
def regRead (s : State) : Reg → Word
  | .id => 0x48554601
  | .status => statusWord s
  | .cmd => 0
  | .intEnable => s.intEnable.zeroExtend 32
  | .intStatus => s.intStatus.zeroExtend 32
  | .srcAddr => s.srcAddr
  | .srcLen => s.srcLen
  | .dstAddr => s.dstAddr
  | .dstCap => s.dstCap
  | .expectCount => s.expectCount
  | .resultLen => s.resultLen
  | .resultBits => s.resultBits
  | .resultCount => s.resultCount
  | .nsym => BitVec.ofNat 32 (nsym s.freq)
  | .symIndex => s.symIndex.zeroExtend 32
  | .freqData => entry s.freq s.symIndex
  | .codeLen => (entry s.codes s.symIndex).len.zeroExtend 32
  | .codeVal k => codeValSlice (entry s.codes s.symIndex).val k
  | .nodeIndex => s.nodeIndex.zeroExtend 32
  | .nodeInfo => nodeInfoWord s
  | .nodeWeightLo => nodeWeightLoWord s
  | .nodeWeightHi => nodeWeightHiWord s
  | .treeInfo => treeInfoWord s

/-- Issue: an accepted CMD write while BUSY = 0 latches the word and sets BUSY, nothing else
(40_command_lifecycle.md R130). -/
def issue (s : State) (w : Word) : State := { s with curCmd := w, busy := true }

/-- Overrun: a CMD write while BUSY = 1 is dropped and sets INT_STATUS.CMD_OVERRUN (40_command_lifecycle.md R131). -/
def overrun (s : State) : State := raiseInt s .cmdOverrun

/-- Host write of FREQ_DATA (41_frequency_counter.md R155). -/
def writeFreqData (s : State) (w : Word) : State :=
  { s with freq := setEntry s.freq s.symIndex w, treeValid := false }

/-- Host write of CODE_LEN (43_code_assigner.md R205). -/
def writeCodeLen (s : State) (w : Word) : State :=
  { s with
    codes := setEntry s.codes s.symIndex { entry s.codes s.symIndex with len := w.extractLsb' 0 8 }
    tableValid := false }

/-- Host write of CODE_VALk (43_code_assigner.md R205). -/
def writeCodeVal (s : State) (k : Fin 8) (w : Word) : State :=
  { s with
    codes := setEntry s.codes s.symIndex
      { entry s.codes s.symIndex with val := setCodeValSlice (entry s.codes s.symIndex).val k w }
    tableValid := false }

/-- The effect of an accepted 32-bit register write (10_state.md R42); writes to read-only registers and to reserved
fields have none (R41). -/
def regWrite (s : State) (r : Reg) (w : Word) : State :=
  match r with
  | .id => s
  | .status => s
  | .cmd => issue s w
  | .intEnable => { s with intEnable := w.extractLsb' 0 4 }
  | .intStatus => acknowledge s w
  | .srcAddr => { s with srcAddr := w }
  | .srcLen => { s with srcLen := w }
  | .dstAddr => { s with dstAddr := w }
  | .dstCap => { s with dstCap := w }
  | .expectCount => { s with expectCount := w }
  | .resultLen => s
  | .resultBits => s
  | .resultCount => s
  | .nsym => s
  | .symIndex => { s with symIndex := w.extractLsb' 0 8 }
  | .freqData => writeFreqData s w
  | .codeLen => writeCodeLen s w
  | .codeVal k => writeCodeVal s k w
  | .nodeIndex => { s with nodeIndex := w.extractLsb' 0 9 }
  | .nodeInfo => s
  | .nodeWeightLo => s
  | .nodeWeightHi => s
  | .treeInfo => s

/-- The value an accepted read returns: a register, or the bytes of a buffer, little-endian (20_memory.md R82, R86). -/
def targetRead (s : State) (size : AccessSize) : Target → Word
  | .reg r => regRead s r
  | .buffer b a => BitVec.ofNat 32 (leValue s b a size.bytes)

/-- The effect of an accepted write: a register's, or the bytes of a buffer, little-endian (20_memory.md R82, R86). -/
def targetWrite (s : State) (size : AccessSize) (d : Word) : Target → State
  | .reg r => regWrite s r d
  | .buffer .input a => { s with inMem := storeLE s.inMem a d size.bytes }
  | .buffer .output a => { s with outMem := storeLE s.outMem a d size.bytes }

/-- A rejected access writes nothing and sets INT_STATUS.ACCESS_ERR (20_memory.md R87). -/
def reject (s : State) : State := raiseInt s .accessErr

/-- A host read (20_memory.md R86, R87, R90); a rejected read returns 0. -/
def hostRead (s : State) (offset : Word) (size : AccessSize) : State :=
  match resolve s.cfg offset size with
  | none => { reject s with resp := some 0 }
  | some t =>
    if s.busy && !readableWhileBusy t then { reject s with resp := some 0 }
    else { s with resp := some (targetRead s size t) }

/-- A host write (20_memory.md R86, R87, R90); a CMD write while BUSY = 1 is an overrun
(40_command_lifecycle.md R131). -/
def hostWrite (s : State) (offset : Word) (size : AccessSize) (d : Word) : State :=
  match resolve s.cfg offset size with
  | none => { reject s with resp := none }
  | some t =>
    if s.busy && decide (t = .reg .cmd) then { overrun s with resp := none }
    else if s.busy && !writableWhileBusy t then { reject s with resp := none }
    else { targetWrite s size d t with resp := none }

/-- One host access, one atomic step of the host (20_memory.md R91). -/
def hostStep (s : State) : HostAccess → State
  | .read offset size => hostRead s offset size
  | .write offset size d => hostWrite s offset size d

end Sys2Proof.Machine
end

