-- ==== Sys2Proof/Machine/HostProgram.lean ====
section
/-! DEFINITION. Machine/HostProgram.lean: the host-program notation (30_encoding.md R120-R124): each line's sequence of
host accesses, and where the block has its turn in it. -/

namespace Sys2Proof.Machine

/-- `W <REG>, <v>` (30_encoding.md R120). -/
def regWriteAccess (r : Reg) (v : Word) : HostAccess := .write r.offset .word v

/-- `R <REG>` (30_encoding.md R120). -/
def regReadAccess (r : Reg) : HostAccess := .read r.offset .word

/-- The aperture offset of byte `a` of a buffer (20_memory.md R80). -/
def bufferOffset (b : BufferId) (a : Nat) : Word :=
  match b with
  | .input => BitVec.ofNat 32 (0x01000000 + a)
  | .output => BitVec.ofNat 32 (0x02000000 + a)

/-- `CMD <mnemonic>` (30_encoding.md R122): the write alone. When the block completes it is left to the events that
follow (log 24). -/
def cmdLine (i : Instr) : List Event := [.host (regWriteAccess .cmd (encode i))]

/-- `WAIT`: the loop `repeat R STATUS until (value & 1) = 0` (30_encoding.md R123), unrolled: `polls` reads before the
block has its turn, and the read after it (log 21). -/
def waitLine (polls : Nat) : List Event :=
  List.replicate polls (.host (regReadAccess .status)) ++ [.block, .host (regReadAccess .status)]

/-- `LOAD IN[a], "<text>"`: one byte write per character, in order (30_encoding.md R124). -/
def loadLine : Nat → List Byte → List Event
  | _, [] => []
  | a, b :: rest => .host (.write (bufferOffset .input a) .byte (b.zeroExtend 32)) :: loadLine (a + 1) rest

/-- `SETCODE s, len, val` (30_encoding.md R124). -/
def setCodeLine (s : Symbol) (len : BitVec 8) (val : BitVec 256) : List Event :=
  .host (regWriteAccess .symIndex (s.zeroExtend 32)) :: .host (regWriteAccess .codeLen (len.zeroExtend 32)) ::
    (List.finRange 8).map fun k => .host (regWriteAccess (.codeVal k) (codeValSlice val k))

/-- The events of one line of a host program (30_encoding.md R120-R124). -/
def lineEvents : HostLine → List Event
  | .w r v => [.host (regWriteAccess r v)]
  | .r r => [.host (regReadAccess r)]
  | .writeIn size a v => [.host (.write (bufferOffset .input a) size v)]
  | .writeOut size a v => [.host (.write (bufferOffset .output a) size v)]
  | .readIn size a => [.host (.read (bufferOffset .input a) size)]
  | .readOut size a => [.host (.read (bufferOffset .output a) size)]
  | .cmd i => cmdLine i
  | .wait polls => waitLine polls
  | .run i polls => cmdLine i ++ waitLine polls
  | .load a text => loadLine a text
  | .setCode s len val => setCodeLine s len val

/-- The events of a host program (30_encoding.md R121). DESIGN CHOICE (log 24): the completion of a CMD line with no WAIT
after it is open (40_command_lifecycle.md R132); this list gives the block its turn in WAIT lines only, and otherwise after
the last line. The other orders are schedules with a `block` event elsewhere. -/
def programEvents (p : List HostLine) : List Event := p.flatMap lineEvents

end Sys2Proof.Machine
end

