-- ==== Sys2Proof/Machine/FrequencyCounter.lean ====
section
/-! DEFINITION. Machine/FrequencyCounter.lean: FREQ_CLEAR and FREQ_COUNT (41_frequency_counter.md R150, R151). -/

namespace Sys2Proof.Machine

/-- FREQ_CLEAR (41_frequency_counter.md R150). -/
def freqClearBody (s : State) : State × Report := ({ s with freq := emptyFreq, treeValid := false }, finish)

/-- The completion of FREQ_CLEAR. -/
def execFreqClear (s : State) : Host.Outcome State Fault Refusal := command s freqClearBody

/-- `hist[s]`: how often symbol `s` occurs in the input (41_frequency_counter.md R151). -/
def hist (input : List Byte) (s : Symbol) : Nat := input.count s

/-- The lowest symbol whose count would pass 2^32 - 1, if there is one (41_frequency_counter.md R151, R152). -/
def firstOverflow (t : Table Word) (input : List Byte) : Option Symbol :=
  ((entries t).find? fun e => decide (2 ^ 32 - 1 < e.2.toNat + hist input e.1)).map Prod.fst

/-- `FREQ[s] <- FREQ[s] + hist[s]` for every s (41_frequency_counter.md R151). -/
def addCounts (t : Table Word) (input : List Byte) : Table Word :=
  mapEntries (fun s v => v + BitVec.ofNat 32 (hist input s)) t

/-- FREQ_COUNT (41_frequency_counter.md R151): all or nothing. -/
def freqCountBody (s : State) : State × Report :=
  if srcInRange s then
    match firstOverflow s.freq (srcBytes s) with
    | some sym => (s, raise .countOverflow (count := sym.toNat))
    | none => ({ s with freq := addCounts s.freq (srcBytes s), treeValid := false }, finish (count := s.srcLen.toNat))
  else (s, raise .range)

/-- The completion of FREQ_COUNT. -/
def execFreqCount (s : State) : Host.Outcome State Fault Refusal := command s freqCountBody

end Sys2Proof.Machine
end

