-- ==== Sys2Proof/Machine/TreeBuilder.lean ====
section
/-! DEFINITION. Machine/TreeBuilder.lean: TREE_BUILD (42_tree_builder.md R170-R179). -/

namespace Sys2Proof.Machine

/-- One element of the priority queue: a node index with its weight beside it, so that its key `(weight(k), k)` is at
hand (42_tree_builder.md R172; 10_state.md R56). -/
structure QEntry where
  weight : Weight
  node : NodeIdx
  deriving DecidableEq, Repr

/-- The order of keys: weight first, then node index (42_tree_builder.md R172). -/
def keyLt (a b : QEntry) : Bool :=
  decide (a.weight < b.weight) || (decide (a.weight = b.weight) && decide (a.node < b.node))

/-- `argmin_key(Q)` (42_tree_builder.md R172). -/
def argminKey : List QEntry → Option QEntry
  | [] => none
  | e :: es =>
    match argminKey es with
    | none => some e
    | some m => if keyLt e m then some e else some m

/-- The element an extraction takes: the least key, or under TIE_BREAK = any_min a draw among the elements of least
weight (42_tree_builder.md R172, R178; log 7). -/
def choose (tb : TieBreak) (draw : Nat) (q : List QEntry) : Option QEntry :=
  match tb with
  | .lowestKey => argminKey q
  | .anyMin =>
    (argminKey q).map fun m =>
      let cands := q.filter fun e => decide (e.weight = m.weight)
      cands.getD (Config.tieDraw draw % cands.length) m

/-- `a <- argmin_key(Q); Q <- Q \ {a}` (42_tree_builder.md R170). -/
def extractMin (tb : TieBreak) (draw : Nat) (q : List QEntry) : Option (QEntry × List QEntry) :=
  (choose tb draw q).map fun e => (e, q.erase e)

/-- The tree builder's working state inside one completion: the arena built so far, the queue, and the number of the
next tie-break draw. -/
structure TreeBuilder where
  nodes : List Node
  queue : List QEntry
  draws : Nat
  deriving DecidableEq, Repr

/-- The draws after one merge: two extractions use two draws under any_min and none under lowest_key. -/
def drawsAfter (tb : TieBreak) (draws : Nat) : Nat :=
  match tb with
  | .lowestKey => draws
  | .anyMin => draws + 2

/-- One pass of the loop body: extract `a`, then `b`, append `Internal(a, b, weight(a) + weight(b))` and put it in the
queue; `a`, the first extracted, is the left child (42_tree_builder.md R170, R173). -/
def mergeStep (tb : TieBreak) (t : TreeBuilder) : TreeBuilder :=
  match extractMin tb t.draws t.queue with
  | none => t
  | some (a, q1) =>
    match extractMin tb (t.draws + 1) q1 with
    | none => t
    | some (b, q2) =>
      { nodes := t.nodes ++ [.internal a.node b.node (a.weight + b.weight)]
        queue := q2 ++ [{ weight := a.weight + b.weight, node := BitVec.ofNat 9 t.nodes.length }]
        draws := drawsAfter tb t.draws }

/-- `while |Q| ≥ 2`: at most `fuel` passes; each pass shortens the queue by one, so the number of leaves is fuel enough
(42_tree_builder.md R170, R179). -/
def mergeAll (tb : TieBreak) : Nat → TreeBuilder → TreeBuilder
  | 0, t => t
  | fuel + 1, t => if 2 ≤ t.queue.length then mergeAll tb fuel (mergeStep tb t) else t

/-- The leaves: NODE[0..n-1] in ascending order of symbol (42_tree_builder.md R171). -/
def leaves (t : Table Word) : List Node :=
  ((entries t).filter fun e => e.2 ≠ 0).map fun e => .leaf e.1 (e.2.zeroExtend 40)

/-- The queue at the start: `{0, 1, ..., n - 1}` (42_tree_builder.md R170). -/
def initialQueue (ls : List Node) : List QEntry :=
  ls.zipIdx.map fun p => { weight := p.1.weight, node := BitVec.ofNat 9 p.2 }

/-- The tree builder before the first merge. -/
def startBuilder (t : Table Word) (draws : Nat) : TreeBuilder :=
  { nodes := leaves t, queue := initialQueue (leaves t), draws := draws }

/-- The finished tree of a Frequency Table (42_tree_builder.md R170). -/
def huffman (tb : TieBreak) (t : Table Word) (draws : Nat) : TreeBuilder :=
  mergeAll tb (nsym t) (startBuilder t draws)

/-- `ROOT <- the single element of Q` (42_tree_builder.md R170). -/
def TreeBuilder.root (t : TreeBuilder) : NodeIdx :=
  match t.queue with
  | [] => 0
  | e :: _ => e.node

/-- The body of TREE_BUILD after its EMPTY_INPUT check, without its RESULT_COUNT (42_tree_builder.md R170). Arena
entries past the new tree keep their contents. -/
def buildTree (s : State) : State :=
  let t := huffman s.cfg.tieBreak s.freq s.tieDraws
  { s with
    nodes := t.nodes ++ s.nodes.drop t.nodes.length
    root := t.root
    nodeCount := BitVec.ofNat 10 t.nodes.length
    leafCount := BitVec.ofNat 9 (nsym s.freq)
    treeValid := true
    tieDraws := t.draws }

/-- TREE_BUILD (42_tree_builder.md R170). -/
def treeBuildBody (s : State) : State × Report :=
  if nsym s.freq = 0 then (s, raise .emptyInput) else (buildTree s, finish (count := nsym s.freq))

/-- The completion of TREE_BUILD. -/
def execTreeBuild (s : State) : Host.Outcome State Fault Refusal := command s treeBuildBody

end Sys2Proof.Machine
end

