-- ==== Sys2Proof/Machine/CodeAssigner.lean ====
section
/-! DEFINITION. Machine/CodeAssigner.lean: CODE_ASSIGN, BUILD_TABLE, CODE_CLEAR and TABLE_LOAD
(43_code_assigner.md R190-R202). -/

namespace Sys2Proof.Machine

/-- The walk `walk(k, v, l)` of 43_code_assigner.md R191 over the arena `node`, left child first. The first argument
bounds the number of levels visited: every path of a valid tree has at most 255 edges (42_tree_builder.md R176 item 5),
so 256 levels reach every leaf (log 16). -/
def walk (node : NodeIdx → Node) : Nat → NodeIdx → Nat → Nat → Table Code → Table Code
  | 0, _, _, _, t => t
  | levels + 1, k, v, l, t =>
    match node k with
    | .leaf sym _ => setEntry t sym { len := BitVec.ofNat 8 l, val := BitVec.ofNat 256 v }
    | .internal a b _ => walk node levels b (2 * v + 1) (l + 1) (walk node levels a (2 * v) (l + 1) t)

/-- The code table of the tree at `root`: the single leaf gets the 1-bit code 0 (43_code_assigner.md R192), any other
tree is walked from an empty table (R190, R191). -/
def codesOfTree (node : NodeIdx → Node) (root : NodeIdx) : Table Code :=
  match node root with
  | .leaf sym _ => setEntry emptyCodes sym { len := 1, val := 0 }
  | .internal _ _ _ => walk node 256 root 0 0 emptyCodes

/-- The invariant check of 43_code_assigner.md R193: the walk gave as many codes as the tree has leaves. -/
def assignOk (s : State) : Bool := decide (codedCount (codesOfTree (nodeAt s) s.root) = s.leafCount.toNat)

/-- The body of CODE_ASSIGN after its NO_TREE check, without its RESULT_COUNT (43_code_assigner.md R190): the code table
is replaced, the tree is destroyed (R194), and a failed check (R193) clears TABLE_VALID and sets FATAL. -/
def assignCodes (s : State) : State :=
  { s with
    codes := codesOfTree (nodeAt s) s.root
    treeValid := false
    tableValid := assignOk s
    fatal := s.fatal || !assignOk s }

/-- CODE_ASSIGN (43_code_assigner.md R190). -/
def codeAssignBody (s : State) : State × Report :=
  if s.treeValid then
    (assignCodes s,
      if assignOk s then finish (count := codedCount (assignCodes s).codes) else raise .invariantViolation)
  else (s, raise .noTree)

/-- The completion of CODE_ASSIGN. -/
def execCodeAssign (s : State) : Host.Outcome State Fault Refusal := command s codeAssignBody

/-- The counting and tree building that BUILD_TABLE starts with: FREQ is the histogram of the input alone, and the tree is
built from it (43_code_assigner.md R196). -/
def countAndBuild (s : State) : State := buildTree { s with freq := addCounts emptyFreq (srcBytes s) }

/-- BUILD_TABLE (43_code_assigner.md R196): clear, count, build, assign in one completion. -/
def buildTableBody (s : State) : State × Report :=
  if srcInRange s then
    if s.srcLen = 0 then (s, raise .emptyInput)
    else
      (assignCodes (countAndBuild s),
        if assignOk (countAndBuild s) then finish (count := s.srcLen.toNat) else raise .invariantViolation)
  else (s, raise .range)

/-- The completion of BUILD_TABLE. -/
def execBuildTable (s : State) : Host.Outcome State Fault Refusal := command s buildTableBody

/-- CODE_CLEAR (43_code_assigner.md R201). -/
def codeClearBody (s : State) : State × Report := ({ s with codes := emptyCodes, tableValid := false }, finish)

/-- The completion of CODE_CLEAR. -/
def execCodeClear (s : State) : Host.Outcome State Fault Refusal := command s codeClearBody

/-- TABLE_LOAD (43_code_assigner.md R202): the table's contents never change. -/
def tableLoadBody (s : State) : State × Report :=
  if codeTableWf s.codes then ({ s with tableValid := true }, finish (count := codedCount s.codes))
  else ({ s with tableValid := false }, raise .badTable)

/-- The completion of TABLE_LOAD. -/
def execTableLoad (s : State) : Host.Outcome State Fault Refusal := command s tableLoadBody

end Sys2Proof.Machine
end

