-- ==== Sys2Proof/Machine/Lifecycle.lean ====
section
/-! DEFINITION. Machine/Lifecycle.lean: NOP (40_command_lifecycle.md R136). -/

namespace Sys2Proof.Machine

/-- NOP: `finish`, nothing else (40_command_lifecycle.md R136). -/
def nopBody (s : State) : State × Report := (s, finish)

/-- The completion of NOP. -/
def execNop (s : State) : Host.Outcome State Fault Refusal := command s nopBody

end Sys2Proof.Machine
end

