-- ==== Sys2Proof/Machine/Packer.lean ====
section
/-! DEFINITION. Machine/Packer.lean: COMPRESS (44_bitstream_packer.md R220-R223). -/

namespace Sys2Proof.Machine

/-- The packer's working state inside one completion (44_bitstream_packer.md R220 pass 2; 10_state.md R59): the bit
buffer, how many bits it holds, how many bytes are written, and OUT_MEM. -/
structure Packer where
  acc : BitVec 8
  cnt : Nat
  j : Nat
  out : Memory
  deriving DecidableEq, Repr

/-- `acc <- ((acc << 1) | bit)[7:0]; cnt <- cnt + 1`, and a byte is emitted when 8 bits have accumulated
(44_bitstream_packer.md R220). -/
def packBit (dst : Nat) (p : Packer) (bit : Bool) : Packer :=
  let acc := (p.acc <<< 1) ||| (BitVec.ofBool bit).zeroExtend 8
  if p.cnt + 1 = 8 then { acc := 0, cnt := 0, j := p.j + 1, out := memSet p.out (dst + p.j) acc }
  else { p with acc := acc, cnt := p.cnt + 1 }

/-- The final padded byte, written only when 1 to 7 bits remain (44_bitstream_packer.md R220, R223). -/
def packFlush (dst : Nat) (p : Packer) : Packer :=
  if 0 < p.cnt then { p with j := p.j + 1, out := memSet p.out (dst + p.j) (p.acc <<< (8 - p.cnt)) } else p

/-- Pass 2: the bits of the codes in input order, most significant code bit first (44_bitstream_packer.md R220). -/
def packAll (t : Table Code) (dst : Nat) (input : List Byte) (out : Memory) : Packer :=
  packFlush dst ((encodedBits t input).foldl (packBit dst) { acc := 0, cnt := 0, j := 0, out := out })

/-- `nbytes = (total + 7) div 8` (44_bitstream_packer.md R220). -/
def bytesNeeded (total : Nat) : Nat := (total + 7) / 8

/-- The index of the first input byte without a code (44_bitstream_packer.md R220 pass 1). -/
def firstUnknown (t : Table Code) (input : List Byte) : Option Nat :=
  input.findIdx? fun x => decide ((entry t x).len = 0)

/-- COMPRESS (44_bitstream_packer.md R220): every check comes before the first byte is written (R222). -/
def compressBody (s : State) : State × Report :=
  if ¬ srcInRange s then (s, raise .range)
  else if ¬ dstInRange s then (s, raise .range)
  else if ¬ s.tableValid then (s, raise .noTable)
  else
    match firstUnknown s.codes (srcBytes s) with
    | some i => (s, raise .unknownSymbol (count := i))
    | none =>
      let total := totalBits s.codes (srcBytes s)
      if s.dstCap.toNat < bytesNeeded total then
        (s, raise .outputOverflow (len := bytesNeeded total) (bits := total))
      else
        let p := packAll s.codes s.dstAddr.toNat (srcBytes s) s.outMem
        ({ s with outMem := p.out }, finish (len := p.j) (bits := total) (count := s.srcLen.toNat))

/-- The completion of COMPRESS. -/
def execCompress (s : State) : Host.Outcome State Fault Refusal := command s compressBody

end Sys2Proof.Machine
end

