-- ==== Sys2Proof/Machine/Unpacker.lean ====
section
/-! DEFINITION. Machine/Unpacker.lean: DECOMPRESS (45_bitstream_unpacker.md R240-R247). -/

namespace Sys2Proof.Machine

/-- The unpacker's working state inside one completion (45_bitstream_unpacker.md R240; 10_state.md R59): the candidate's
value and length, the bits consumed, the symbols written, and OUT_MEM. -/
structure Unpacker where
  cv : Nat
  cl : Nat
  used : Nat
  count : Nat
  out : Memory
  deriving DecidableEq, Repr

/-- The symbol whose code is exactly `(cl, cv)`, length and value both (45_bitstream_unpacker.md R243). A valid table has
at most one; the lowest is taken (log 17). -/
def codeMatch (t : Table Code) (cl cv : Nat) : Option Symbol :=
  ((entries t).find? fun e => decide (e.2.len.toNat = cl) && decide (e.2.val.toNat = cv)).map Prod.fst

/-- The candidate with one more bit: `used + 1`, `cv <- 2·cv + bit`, `cl + 1` (45_bitstream_unpacker.md R240). -/
def pushBit (u : Unpacker) (bit : Bool) : Unpacker :=
  { u with cv := 2 * u.cv + bit.toNat, cl := u.cl + 1, used := u.used + 1 }

/-- A decoded symbol: its byte is written at DST_ADDR + count and the candidate starts afresh
(45_bitstream_unpacker.md R240). -/
def emitSymbol (dst : Nat) (u : Unpacker) (sym : Symbol) : Unpacker :=
  { u with cv := 0, cl := 0, count := u.count + 1, out := memSet u.out (dst + u.count) sym }

/-- The bit loop (45_bitstream_unpacker.md R240): stop with success at the EXPECT_COUNT-th symbol (R244), with failure
when a candidate of 255 bits has no match (R246) or the bits end (R245). -/
def unpackBits (t : Table Code) (dst expect : Nat) : List Bool → Unpacker → Unpacker × Bool
  | [], u => (u, false)
  | bit :: rest, u =>
    match codeMatch t (pushBit u bit).cl (pushBit u bit).cv with
    | some sym =>
      let e := emitSymbol dst (pushBit u bit) sym
      if e.count = expect then (e, true) else unpackBits t dst expect rest e
    | none =>
      if (pushBit u bit).cl = 255 then (pushBit u bit, false) else unpackBits t dst expect rest (pushBit u bit)

/-- The unpacker before the first bit (45_bitstream_unpacker.md R240). -/
def startUnpacker (out : Memory) : Unpacker := { cv := 0, cl := 0, used := 0, count := 0, out := out }

/-- DECOMPRESS (45_bitstream_unpacker.md R240). A truncated input leaves the decoded symbols in OUT_MEM (R247). -/
def decompressBody (s : State) : State × Report :=
  if ¬ srcInRange s then (s, raise .range)
  else if ¬ dstInRange s then (s, raise .range)
  else if ¬ s.tableValid then (s, raise .noTable)
  else if s.dstCap.toNat < s.expectCount.toNat then (s, raise .outputOverflow)
  else if s.expectCount = 0 then (s, finish)
  else
    let r := unpackBits s.codes s.dstAddr.toNat s.expectCount.toNat (streamBits (srcBytes s)) (startUnpacker s.outMem)
    ({ s with outMem := r.1.out },
      if r.2 then finish (len := r.1.count) (bits := r.1.used) (count := r.1.count)
      else raise .truncatedInput (len := r.1.count) (bits := r.1.used) (count := r.1.count))

/-- The completion of DECOMPRESS. -/
def execDecompress (s : State) : Host.Outcome State Fault Refusal := command s decompressBody

end Sys2Proof.Machine
end

