-- ==== Sys2Proof/Machine/Dispatch.lean ====
section
/-! DEFINITION. Machine/Dispatch.lean: one arm per command (40_command_lifecycle.md R134). -/

namespace Sys2Proof.Machine

/-- The completion step of command `i` in state `s` (40_command_lifecycle.md R133, R134; log 11). -/
def exec (i : Instr) (s : State) : Host.Outcome State Fault Refusal :=
  match i with
  | .nop => Sys2Proof.Machine.execNop s
  | .freqClear => Sys2Proof.Machine.execFreqClear s
  | .freqCount => Sys2Proof.Machine.execFreqCount s
  | .treeBuild => Sys2Proof.Machine.execTreeBuild s
  | .codeAssign => Sys2Proof.Machine.execCodeAssign s
  | .buildTable => Sys2Proof.Machine.execBuildTable s
  | .compress => Sys2Proof.Machine.execCompress s
  | .decompress => Sys2Proof.Machine.execDecompress s
  | .codeClear => Sys2Proof.Machine.execCodeClear s
  | .tableLoad => Sys2Proof.Machine.execTableLoad s

end Sys2Proof.Machine
end

