-- ==== Sys2Proof/Machine/Sequencer.lean ====
section
/-! DEFINITION. Machine/Sequencer.lean: the three kinds of atomic step (20_memory.md R94): the block's completion
(40_command_lifecycle.md R132-R134), a host access, and reset (70_reset_and_hazards.md R290-R292). -/

namespace Sys2Proof.Machine

/-- The completion of the command in CUR_CMD: decode, then the command's own completion, or ILLEGAL
(40_command_lifecycle.md R133, R134, R137). -/
def runCurrent (s : State) : Host.Outcome State Fault Refusal :=
  match decode s.curCmd with
  | .ok i => exec i s
  | .error _ => command s illegalBody

/-- The block's turn: its completion step, enabled exactly when BUSY = 1 (40_command_lifecycle.md R132); with BUSY = 0
the block is idle and nothing changes (70_reset_and_hazards.md R293). -/
def blockTurn (s : State) : Host.Outcome State Fault Refusal :=
  if s.busy then runCurrent s else .next s

/-- Reset (70_reset_and_hazards.md R290-R292): every piece of state takes its reset value, a running command is
abandoned, and every buffer byte is a new draw. The parameters, the events still to come and the count of tie-break
draws are not the block's registers and stay (log 15). -/
def resetState (s : State) : State :=
  { State.reset with cfg := s.cfg, sched := s.sched, epoch := s.epoch + 1, tieDraws := s.tieDraws }

/-- The next event of the run, or the block's turn when none is left (log 1, 2). -/
def nextEvent (s : State) : Event :=
  match s.sched with
  | [] => .block
  | e :: _ => e

/-- The state with its next event taken off the schedule. -/
def popEvent (s : State) : State := { s with sched := s.sched.tail }

/-- What one event does. -/
def runEvent (e : Event) (s : State) : Host.Outcome State Fault Refusal :=
  match e with
  | .host a => .next (hostStep s a)
  | .block => blockTurn s
  | .reset => .next (resetState s)

/-- The state in which the block's turn comes next and completes the command word `w` (log 12). -/
def placeWord (s : State) (w : Word) : State :=
  { s with curCmd := w, busy := true, sched := .block :: s.sched }

end Sys2Proof.Machine
end

