-- ==== Sys2Proof/Machine/Step.lean ====
section
/-! DEFINITION. Machine/Step.lean: one step of the run (20_memory.md R94). -/

namespace Sys2Proof.Machine

/-- One step: the next event of the run is taken and performed (20_memory.md R91, R94). -/
def step (s : State) : Host.Outcome State Fault Refusal := runEvent (nextEvent s) (popEvent s)

/-- `s` with the command word of a table row latched where the block takes its next command from: CUR_CMD with BUSY = 1,
and the block's turn next (log 12). -/
def State.withFetchWord (s : State) (nbits w : Nat) : State := placeWord s (BitVec.ofNat 32 (w % 2 ^ nbits))

end Sys2Proof.Machine
end

