-- ==== Sys2Proof/WellFormed.lean ====
section
/-! DEFINITION. WellFormed.lean: the checks the spec puts on terms: parameter ranges (00_scope.md R8), the data width
of a host write (20_memory.md R81) and the operand ranges of host-program lines (30_encoding.md R120-R124). -/

namespace Sys2Proof

/-- Parameters in range: `1 ≤ IN_CAP ≤ 2^24` and `1 ≤ OUT_CAP ≤ 2^24` (00_scope.md R8). -/
def Config.wf (c : Config) : Bool :=
  decide (1 ≤ c.inCap) && decide (c.inCap ≤ 2 ^ 24) && decide (1 ≤ c.outCap) && decide (c.outCap ≤ 2 ^ 24)

/-- Every command is well-formed: a command word has no operand field, and its reserved bits are no part of the term
(30_encoding.md R110, R111). -/
def Instr.wf : Instr → Bool
  | .nop => true
  | .freqClear => true
  | .freqCount => true
  | .treeBuild => true
  | .codeAssign => true
  | .buildTable => true
  | .compress => true
  | .decompress => true
  | .codeClear => true
  | .tableLoad => true

/-- A host write's data has 8·size bits (20_memory.md R81). -/
def HostAccess.wf : HostAccess → Bool
  | .read _ _ => true
  | .write _ size data => decide (data.toNat < 2 ^ (8 * size.bytes))

/-- An event is well-formed when its host access is. -/
def Event.wf : Event → Bool
  | .host a => a.wf
  | .block => true
  | .reset => true

/-- A host-program line names offsets inside the two buffer windows of 20_memory.md R80 and data of the line's width.
A SETCODE line may carry any length and value: TABLE_LOAD is what checks them (43_code_assigner.md R205). -/
def HostLine.wf : HostLine → Bool
  | .w _ _ => true
  | .r _ => true
  | .writeIn size a v => decide (a < 2 ^ 24) && decide (v.toNat < 2 ^ (8 * size.bytes))
  | .writeOut size a v => decide (a < 2 ^ 24) && decide (v.toNat < 2 ^ (8 * size.bytes))
  | .readIn _ a => decide (a < 2 ^ 24)
  | .readOut _ a => decide (a < 2 ^ 24)
  | .cmd i => i.wf
  | .wait _ => true
  | .run i _ => i.wf
  | .load a text => decide (a + text.length ≤ 2 ^ 24)
  | .setCode _ _ _ => true

end Sys2Proof
end

