-- ==== Sys2Proof/Safety.lean ====
section
/-! DEFINITION. Safety.lean: what counts as a safe state of the block (10_state.md R61 and the facts the rules keep), and
the spec's own vocabulary that the statements use: when a host access is accepted (20_memory.md R86, R90), the record a
completion writes (40_command_lifecycle.md R133), paths in the tree (42_tree_builder.md R176), and the well-formed code
table (43_code_assigner.md R200), each written out from its rule and not from the machine's functions. -/

namespace Sys2Proof.Machine

/-! ### The invariant -/

/-- The tree in the arena is the one TREE_BUILD builds from the current FREQ (10_state.md R61 item 1), for the draws it
used (any number under TIE_BREAK = lowest_key, which uses none). -/
def State.treeIsCurrent (s : State) : Prop :=
  nsym s.freq ≠ 0 ∧ ∃ d, let t := huffman s.cfg.tieBreak s.freq d
    s.nodes.take t.nodes.length = t.nodes ∧ s.root = t.root ∧
      s.nodeCount = BitVec.ofNat 10 t.nodes.length ∧ s.leafCount = BitVec.ofNat 9 (nsym s.freq)

/-- The invariant of the block: the parameters are legal, the two buffers are in canonical form inside their capacities,
the arena has at most 511 entries, ERR is a code of 60_exceptions.md R260, and items 1, 2 and 4 of 10_state.md R61. -/
structure State.Inv (s : State) : Prop where
  cfgOk : s.cfg.wf = true
  inOk : s.inMem.wf ∧ Memory.below s.cfg.inCap s.inMem
  outOk : s.outMem.wf ∧ Memory.below s.cfg.outCap s.outMem
  arenaOk : s.nodes.length ≤ 511
  errOk : ∃ e : ErrCode, s.err = e.code
  fatalErr : s.fatal = true → s.err = 0x04
  treeOk : s.treeValid = true → s.treeIsCurrent
  tableOk : s.tableValid = true → codeTableWf s.codes = true

/-- A safe state: the invariant holds and the block is not in the fatal state of 60_exceptions.md R271. -/
def State.safe (s : State) : Prop := s.Inv ∧ s.fatal = false

/-! ### Completion (40_command_lifecycle.md R133) -/

/-- The record of a completion with error code `err` and results `rl`, `rb`, `rc` (40_command_lifecycle.md R133):
everything else is kept, CUR_CMD by the model's choice (log 25). -/
def State.completed (s : State) (err : BitVec 8) (rl rb rc : Nat) : State :=
  { s with
    resultLen := BitVec.ofNat 32 rl
    resultBits := BitVec.ofNat 32 rb
    resultCount := BitVec.ofNat 32 rc
    err := err
    busy := false
    intStatus := if err = 0 then s.intStatus ||| 0b0001 else s.intStatus ||| 0b0011 }

/-- The block has the next turn: its turn is scheduled, or the schedule is empty (log 1, 2). -/
def State.blockNext (s : State) : Prop := s.sched = [] ∨ s.sched.head? = some .block

/-! ### Host accesses (20_memory.md R80, R86, R90) -/

/-- Direction, offset and size of an access. -/
def accessOffset : HostAccess → Nat
  | .read o _ => o.toNat
  | .write o _ _ => o.toNat

/-- The size of an access in bytes. -/
def accessBytes : HostAccess → Nat
  | .read _ n => n.bytes
  | .write _ n _ => n.bytes

/-- What a rejected access returns: 0 on a read, nothing on a write (20_memory.md R87). -/
def rejectedResponse : HostAccess → Option Word
  | .read _ _ => some 0
  | .write _ _ _ => none

/-- The access is mapped, of a legal size and aligned (20_memory.md R80, R86, without the BUSY gate). -/
def wellPlaced (c : Config) (o n : Nat) : Prop :=
  (o < 0x78 ∧ n = 4 ∧ o % 4 = 0) ∨
  (0x01000000 ≤ o ∧ o < 0x02000000 ∧ o % n = 0 ∧ o - 0x01000000 + n ≤ c.inCap) ∨
  (0x02000000 ≤ o ∧ o < 0x03000000 ∧ o % n = 0 ∧ o - 0x02000000 + n ≤ c.outCap)

/-- The gate of 20_memory.md R90 while BUSY = 1: reads of ID, STATUS, INT_ENABLE, INT_STATUS and writes of INT_ENABLE and
INT_STATUS pass. -/
def passesBusyGate : HostAccess → Prop
  | .read o _ => o = 0x000 ∨ o = 0x004 ∨ o = 0x00C ∨ o = 0x010
  | .write o _ _ => o = 0x00C ∨ o = 0x010

/-- The access is accepted (20_memory.md R86). -/
def accepted (s : State) (a : HostAccess) : Prop :=
  wellPlaced s.cfg (accessOffset a) (accessBytes a) ∧ (s.busy = true → passesBusyGate a)

/-! ### Trees (42_tree_builder.md R176, 43_code_assigner.md R191) -/

/-- `c` is a child of node `k`. -/
def isChild (node : NodeIdx → Node) (k c : NodeIdx) : Prop :=
  ∃ l r w, node k = .internal l r w ∧ (c = l ∨ c = r)

/-- The node reached from `k` by a bit sequence, 0 to the left child and 1 to the right (43_code_assigner.md R191). -/
def descend (node : NodeIdx → Node) : NodeIdx → List Bool → Option NodeIdx
  | k, [] => some k
  | k, b :: rest =>
    match node k with
    | .leaf _ _ => none
    | .internal l r _ => descend node (if b then r else l) rest

/-! ### Code tables (43_code_assigner.md R200) -/

/-- `WF` of 43_code_assigner.md R200, as the rule writes it. -/
def wfTable (t : Table Code) : Prop :=
  (∃ s : Symbol, (entry t s).len ≠ 0) ∧
  (∀ s : Symbol, (entry t s).len ≠ 0 → (entry t s).val.toNat < 2 ^ (entry t s).len.toNat) ∧
  (∀ s u : Symbol, s ≠ u → (entry t s).len ≠ 0 → (entry t u).len ≠ 0 →
    ¬ ((entry t s).len.toNat ≤ (entry t u).len.toNat ∧
      (entry t u).val.toNat / 2 ^ ((entry t u).len.toNat - (entry t s).len.toNat) = (entry t s).val.toNat))

/-- How many symbols have a code: `#{ s : CODE_LEN[s] ≠ 0 }` (43_code_assigner.md R190, R202). -/
def codeCount (t : Table Code) : Nat := (Finset.univ.filter fun k : Fin 256 => (t[k.val]'k.isLt).len ≠ 0).card

/-- How many symbols have a non-zero count: NSYM (10_state.md R60). -/
def keyCount (t : Table Word) : Nat := (Finset.univ.filter fun k : Fin 256 => t[k.val]'k.isLt ≠ 0).card

/-! ### Buffers -/

/-- The state with the contents of one buffer replaced. -/
def State.withBuffer (s : State) (b : BufferId) (m : Memory) : State :=
  match b with
  | .input => { s with inMem := m }
  | .output => { s with outMem := m }

/-! ### Bitstreams (20_memory.md R83, 44_bitstream_packer.md R221) -/

/-- The bit sequence a code denotes: `val[len-1], ..., val[0]` (00_scope.md R11). -/
def codeSequence (c : Code) : List Bool :=
  (List.range c.len.toNat).map fun q => c.val.getLsbD (c.len.toNat - 1 - q)

/-- `S = bits(code(x_0)) ++ ... ++ bits(code(x_{N-1}))` (44_bitstream_packer.md R221). -/
def codedStream (t : Table Code) (xs : List Symbol) : List Bool := xs.flatMap fun x => codeSequence (entry t x)

/-- The bits of a byte sequence, bit 7 of each byte first (20_memory.md R83, 45_bitstream_unpacker.md R242). -/
def byteStream (l : List Byte) : List Bool := l.flatMap fun b => (List.range 8).map fun q => b.getLsbD (7 - q)

/-- Byte `j` of a bitstream, `Σ_{q<8} S[8j+q] · 2^(7-q)` with `S[k] = 0` past the end (44_bitstream_packer.md R221). -/
def streamByte (bits : List Bool) (j : Nat) : Nat :=
  ((List.range 8).map fun q => (bits.getD (8 * j + q) false).toNat * 2 ^ (7 - q)).sum

end Sys2Proof.Machine
end

