-- ==== Sys2Proof/Certificates/Slice0/Obligations.lean ====
section
/-! DEFINITION. Certificates/Slice0/Obligations.lean: the statements for the provers, from the spec's numbered rules. -/

open Sys2Proof Sys2Proof.Machine

/-! ### Decoding and stepping -/

/-- The ten command words of 30_encoding.md R112, and two illegal ones of R114 and 95_test_vectors.md V-LC-4, V-LC-5. -/
def Obligations.SpecWordsDecodeToTheirCommands : Prop :=
  decode 0x00000000 = .ok .nop ∧ decode 0x00000001 = .ok .freqClear ∧ decode 0x00000002 = .ok .freqCount ∧
  decode 0x00000003 = .ok .treeBuild ∧ decode 0x00000004 = .ok .codeAssign ∧ decode 0x00000005 = .ok .buildTable ∧
  decode 0x00000006 = .ok .compress ∧ decode 0x00000007 = .ok .decompress ∧ decode 0x00000008 = .ok .codeClear ∧
  decode 0x00000009 = .ok .tableLoad ∧ decode 0x0000000A = .error .opcodeUnassigned ∧
  decode 0x00000100 = .error .reservedBitsSet

/-- 30_encoding.md R113: decoding is total; which words are commands, and which are illegal. -/
def Obligations.DecodingIsTotalAndExact : Prop :=
  ∀ w : Word,
    (w.extractLsb' 8 24 ≠ 0 → decode w = .error .reservedBitsSet) ∧
    (w.extractLsb' 8 24 = 0 → (w.extractLsb' 0 8).toNat ≤ 0x09 →
      ∃ i : Instr, decode w = .ok i ∧ i.opcode = w.extractLsb' 0 8) ∧
    (w.extractLsb' 8 24 = 0 → 0x09 < (w.extractLsb' 0 8).toNat → decode w = .error .opcodeUnassigned)

/-- 30_encoding.md R112, R113: a word decodes to a command exactly when it is the word that encodes it. -/
def Obligations.DecodeAndEncodeAgree : Prop :=
  ∀ (i : Instr) (w : Word), i.wf = true → (decode w = .ok i ↔ w = encode i)

/-- 40_command_lifecycle.md R132, R134 and 70_reset_and_hazards.md R293: when the block has its turn, a step is that turn,
with the turn taken off the schedule (the schedule is the model's, log 1): with BUSY = 1 the completion of the command that
CUR_CMD decodes to, with BUSY = 0 nothing. -/
def Obligations.StepCompletesTheDecodedCommand : Prop :=
  ∀ s : State, s.blockNext →
    step s = blockTurn { s with sched := s.sched.tail } ∧
    (∀ i : Instr, s.busy = true → decode s.curCmd = .ok i → step s = exec i { s with sched := s.sched.tail }) ∧
    (s.busy = false → step s = .next { s with sched := s.sched.tail })

/-- 40_command_lifecycle.md R137: every illegal word completes with ILLEGAL_CMD, INVARIANT_VIOLATION taking precedence while
FATAL = 1, and changes nothing but the completion record. -/
def Obligations.IllegalWordsCompleteWithIllegalCmd : Prop :=
  ∀ s : State, s.busy = true →
    (s.curCmd.extractLsb' 8 24 ≠ 0 ∨ 0x0A ≤ (s.curCmd.extractLsb' 0 8).toNat) →
    blockTurn s = .next (s.completed (if s.fatal then 0x04 else 0x10) 0 0 0)

/-- 40_command_lifecycle.md R138: while FATAL = 1 every command, legal or not, completes with INVARIANT_VIOLATION and
changes no other state, and only reset clears FATAL. -/
def Obligations.FatalTurnsEveryCommandAway : Prop :=
  (∀ s : State, s.busy = true → s.fatal = true → blockTurn s = .next (s.completed 0x04 0 0 0)) ∧
  (∀ (i : Instr) (s : State), s.fatal = true → exec i s = .next (s.completed 0x04 0 0 0)) ∧
  (∀ s t : State, s.fatal = true → step s = .next t → s.sched.head? ≠ some .reset → t.fatal = true)

/-- 60_exceptions.md R262, R267 and 20_memory.md R87: no step of the block stops the machine; every error and every
rejected access is a next state. -/
def Obligations.EveryStepAnswersANextState : Prop := ∀ s : State, ∃ t, step s = .next t

/-- 40_command_lifecycle.md R132: a command in progress completes (or is abandoned by reset) within one step more than the
host has accesses and resets scheduled (the schedule is the model's, log 1, 2). -/
def Obligations.RunningCommandEnds : Prop :=
  ∀ s : State, s.busy = true →
    ∃ k t, k ≤ s.sched.length + 1 ∧ Host.Core.run Sys2Proof.core k s = .next t ∧ t.busy = false

/-- 10_state.md R61 item 3: while BUSY = 0 no rule reads CUR_CMD: a step from two states that differ only there ends alike,
CUR_CMD included once a command is issued. -/
def Obligations.IdleStepDoesNotReadCurCmd : Prop :=
  ∀ (s t : State) (w : Word), s.busy = false → step s = .next t →
    ∃ v, step { s with curCmd := w } = .next { t with curCmd := v } ∧ (t.busy = true → v = t.curCmd)

/-! ### The host port -/

/-- 40_command_lifecycle.md R130, R131: a CMD write while BUSY = 0 latches the word and sets BUSY, and nothing else changes; a
CMD write while BUSY = 1 is dropped and sets CMD_OVERRUN, and nothing else changes. -/
def Obligations.CmdWriteIssuesOrOverruns : Prop :=
  ∀ (s : State) (w : Word) (rest : List Event), s.sched = .host (.write 0x008 .word w) :: rest →
    (s.busy = false → step s = .next { s with sched := rest, resp := none, curCmd := w, busy := true }) ∧
    (s.busy = true → step s = .next { s with sched := rest, resp := none, intStatus := s.intStatus ||| 0b1000 })

/-- 20_memory.md R87: a rejected access writes nothing, returns 0 on a read, sets ACCESS_ERR and changes no other state.
Writes to offset 0x008 while BUSY = 1 are R131's when they are whole words, stated apart; an ill-sized one is the model's
reading of log 14, which this statement leaves out. -/
def Obligations.RejectedAccessSetsOnlyAccessErr : Prop :=
  ∀ (s : State) (a : HostAccess) (rest : List Event), s.sched = .host a :: rest →
    ¬ accepted s a → ¬ (s.busy = true ∧ ∃ n d, a = .write 0x008 n d) →
    step s = .next { s with sched := rest, resp := rejectedResponse a, intStatus := s.intStatus ||| 0b0100 }

/-- 10_state.md R43, 20_memory.md R90, R92: an accepted register read returns the register's value and has no side
effect; while BUSY = 1 that is so for ID, STATUS, INT_ENABLE and INT_STATUS. -/
def Obligations.RegisterReadsHaveNoSideEffect : Prop :=
  ∀ (s : State) (r : Reg) (rest : List Event),
    s.sched = .host (.read r.offset .word) :: rest →
    (s.busy = true → r = .id ∨ r = .status ∨ r = .intEnable ∨ r = .intStatus) →
    step s = .next { s with sched := rest, resp := some (regRead s r) }

/-- 10_state.md R40, R41, R50, R51: what the registers read as; FREQ_DATA, CODE_LEN and CODE_VALk are windows onto the entry
SYM_INDEX selects. -/
def Obligations.RegistersReadTheirFields : Prop :=
  ∀ s : State,
    regRead s .id = 0x48554601 ∧ regRead s .cmd = 0 ∧
    (regRead s .status).getLsbD 0 = s.busy ∧ (regRead s .status).getLsbD 1 = s.treeValid ∧
    (regRead s .status).getLsbD 2 = s.tableValid ∧ (regRead s .status).getLsbD 3 = s.fatal ∧
    (regRead s .status).extractLsb' 4 4 = 0 ∧ (regRead s .status).extractLsb' 8 8 = s.err ∧
    (regRead s .status).extractLsb' 16 16 = 0 ∧
    (regRead s .intEnable).toNat = s.intEnable.toNat ∧ (regRead s .intStatus).toNat = s.intStatus.toNat ∧
    regRead s .srcAddr = s.srcAddr ∧ regRead s .srcLen = s.srcLen ∧ regRead s .dstAddr = s.dstAddr ∧
    regRead s .dstCap = s.dstCap ∧ regRead s .expectCount = s.expectCount ∧
    regRead s .resultLen = s.resultLen ∧ regRead s .resultBits = s.resultBits ∧
    regRead s .resultCount = s.resultCount ∧
    (regRead s .symIndex).toNat = s.symIndex.toNat ∧ (regRead s .nodeIndex).toNat = s.nodeIndex.toNat ∧
    regRead s .freqData = entry s.freq s.symIndex ∧
    (regRead s .codeLen).toNat = (entry s.codes s.symIndex).len.toNat ∧
    ∀ (k : Fin 8) (j : Nat), j < 32 →
      (regRead s (.codeVal k)).getLsbD j = (entry s.codes s.symIndex).val.getLsbD (32 * k.val + j)

/-- 10_state.md R60: NSYM is the number of symbols with a non-zero count, a value 0..256. -/
def Obligations.NsymCountsTheKeys : Prop :=
  ∀ s : State, (regRead s .nsym).toNat = keyCount s.freq ∧ keyCount s.freq ≤ 256

/-- 10_state.md R53, R54, R55: the windows onto the tree: NODE_INFO, NODE_WEIGHT_LO, NODE_WEIGHT_HI and TREE_INFO. -/
def Obligations.TreeWindowsShowTheValidTree : Prop :=
  ∀ s : State,
    (s.treeValid = true ∧ s.nodeIndex.toNat < s.nodeCount.toNat →
      (∀ sym w, nodeAt s s.nodeIndex = .leaf sym w → (regRead s .nodeInfo).toNat = 2 ^ 31 + sym.toNat) ∧
      (∀ l r w, nodeAt s s.nodeIndex = .internal l r w →
        (regRead s .nodeInfo).toNat = 2 ^ 31 + 2 ^ 30 + r.toNat * 2 ^ 16 + l.toNat) ∧
      (regRead s .nodeWeightLo).toNat = (nodeAt s s.nodeIndex).weight.toNat % 2 ^ 32 ∧
      (regRead s .nodeWeightHi).toNat = (nodeAt s s.nodeIndex).weight.toNat / 2 ^ 32) ∧
    (¬ (s.treeValid = true ∧ s.nodeIndex.toNat < s.nodeCount.toNat) →
      regRead s .nodeInfo = 0 ∧ regRead s .nodeWeightLo = 0 ∧ regRead s .nodeWeightHi = 0) ∧
    (s.treeValid = true → (regRead s .treeInfo).toNat = s.nodeCount.toNat * 2 ^ 16 + s.root.toNat) ∧
    (s.treeValid = false → regRead s .treeInfo = 0)

/-- 41_frequency_counter.md R155: a host write of FREQ_DATA. -/
def Obligations.FreqDataWriteReplacesOneCount : Prop :=
  ∀ (s : State) (w : Word) (rest : List Event),
    s.sched = .host (.write 0x03C .word w) :: rest → s.busy = false →
    ∃ f, step s = .next { s with sched := rest, resp := none, freq := f, treeValid := false } ∧
      entry f s.symIndex = w ∧ ∀ x, x ≠ s.symIndex → entry f x = entry s.freq x

/-- 43_code_assigner.md R205: host writes of the code windows. -/
def Obligations.CodeWindowWritesReplaceOneField : Prop :=
  (∀ (s : State) (w : Word) (rest : List Event),
    s.sched = .host (.write 0x040 .word w) :: rest → s.busy = false →
    ∃ c, step s = .next { s with sched := rest, resp := none, codes := c, tableValid := false } ∧
      (entry c s.symIndex).len = w.extractLsb' 0 8 ∧ (entry c s.symIndex).val = (entry s.codes s.symIndex).val ∧
      ∀ x, x ≠ s.symIndex → entry c x = entry s.codes x) ∧
  (∀ (s : State) (k : Fin 8) (w : Word) (rest : List Event),
    s.sched = .host (.write (BitVec.ofNat 32 (0x044 + 4 * k.val)) .word w) :: rest → s.busy = false →
    ∃ c, step s = .next { s with sched := rest, resp := none, codes := c, tableValid := false } ∧
      (entry c s.symIndex).len = (entry s.codes s.symIndex).len ∧
      (∀ j : Nat, j < 256 → (entry c s.symIndex).val.getLsbD j =
        if 32 * k.val ≤ j ∧ j < 32 * k.val + 32 then w.getLsbD (j - 32 * k.val)
        else (entry s.codes s.symIndex).val.getLsbD j) ∧
      ∀ x, x ≠ s.symIndex → entry c x = entry s.codes x)

/-- 10_state.md R42: the other register writes: INT_ENABLE and the W1C of INT_STATUS in either state of BUSY, the operand
and index registers and the read-only ones while BUSY = 0. -/
def Obligations.RegisterWritesHaveExactlyTheirEffect : Prop :=
  ∀ (s : State) (r : Reg) (w : Word) (rest : List Event),
    s.sched = .host (.write r.offset .word w) :: rest →
    (r = .intEnable →
      step s = .next { s with sched := rest, resp := none, intEnable := w.extractLsb' 0 4 }) ∧
    (r = .intStatus →
      ∃ v, step s = .next { s with sched := rest, resp := none, intStatus := v } ∧
        ∀ j : Nat, j < 4 → v.getLsbD j = (s.intStatus.getLsbD j && !w.getLsbD j)) ∧
    (s.busy = false →
      (r = .srcAddr → step s = .next { s with sched := rest, resp := none, srcAddr := w }) ∧
      (r = .srcLen → step s = .next { s with sched := rest, resp := none, srcLen := w }) ∧
      (r = .dstAddr → step s = .next { s with sched := rest, resp := none, dstAddr := w }) ∧
      (r = .dstCap → step s = .next { s with sched := rest, resp := none, dstCap := w }) ∧
      (r = .expectCount → step s = .next { s with sched := rest, resp := none, expectCount := w }) ∧
      (r = .symIndex → step s = .next { s with sched := rest, resp := none, symIndex := w.extractLsb' 0 8 }) ∧
      (r = .nodeIndex → step s = .next { s with sched := rest, resp := none, nodeIndex := w.extractLsb' 0 9 }) ∧
      (r ∈ [Reg.id, .status, .resultLen, .resultBits, .resultCount, .nsym, .nodeInfo, .nodeWeightLo, .nodeWeightHi,
          .treeInfo] →
        step s = .next { s with sched := rest, resp := none }))

/-- 20_memory.md R82, R86, R92: an accepted buffer write stores byte i of the data at MEM[a+i] and leaves every other byte of
either buffer; an accepted buffer read returns `Σ_i MEM[a+i] · 2^(8i)` and has no side effect. -/
def Obligations.BufferAccessesAreLittleEndian : Prop :=
  ∀ (s : State) (b : BufferId) (a : Nat) (n : AccessSize) (rest : List Event),
    s.cfg.wf = true → s.busy = false → a % n.bytes = 0 → a + n.bytes ≤ capOf s.cfg b →
    (∀ d : Word, s.sched = .host (.write (bufferOffset b a) n d) :: rest →
      ∃ m, step s = .next (State.withBuffer { s with sched := rest, resp := none } b m) ∧
        ((bufferOf s b).wf → m.wf) ∧
        ∀ x, byteAt (s.withBuffer b m) b x =
          if a ≤ x ∧ x < a + n.bytes then d.extractLsb' (8 * (x - a)) 8 else byteAt s b x) ∧
    (s.sched = .host (.read (bufferOffset b a) n) :: rest →
      ∃ v : Word, step s = .next { s with sched := rest, resp := some v } ∧
        v.toNat = ∑ i ∈ Finset.range n.bytes, (byteAt s b (a + i)).toNat * 2 ^ (8 * i))

/-- 20_memory.md R95, 40_command_lifecycle.md R139: while BUSY = 1 what the host port returns depends on STATUS, INT_ENABLE
and INT_STATUS alone, so no intermediate state of a command is observable. -/
def Obligations.BusyHostReadsSeeOnlyStatus : Prop :=
  ∀ (s s' t t' : State) (a : HostAccess) (rest rest' : List Event),
    s.sched = .host a :: rest → s'.sched = .host a :: rest' → s.cfg = s'.cfg → s.busy = true → s'.busy = true →
    regRead s .status = regRead s' .status → s.intEnable = s'.intEnable → s.intStatus = s'.intStatus →
    step s = .next t → step s' = .next t' →
    t.resp = t'.resp ∧ t.intStatus = t'.intStatus ∧ t.intEnable = t'.intEnable ∧
      regRead t .status = regRead t' .status

/-- 60_exceptions.md R270: the interrupt output, and the W1C write that clears a pending source. -/
def Obligations.IrqIsTheMaskedOr : Prop :=
  ∀ s : State, (irq s = true ↔ ∃ i : Fin 4, s.intStatus.getLsbD i = true ∧ s.intEnable.getLsbD i = true) ∧
    ∀ (w : Word) (i : Fin 4),
      (regWrite s .intStatus w).intStatus.getLsbD i = (s.intStatus.getLsbD i && !w.getLsbD i)

/-- 60_exceptions.md R269: a pending bit stays until the host clears it by W1C or reset clears all. -/
def Obligations.InterruptBitsAreSticky : Prop :=
  ∀ (s t : State) (j : Nat), step s = .next t → s.intStatus.getLsbD j = true →
    t.intStatus.getLsbD j = true ∨ s.sched.head? = some .reset ∨
      ∃ w : Word, s.sched.head? = some (.host (.write 0x010 .word w)) ∧ w.getLsbD j = true

/-- 30_encoding.md R122, R123, 40_command_lifecycle.md R130, R132: the events of `RUN <mnemonic>`, from an idle block and
whatever the number of polls, are one completion of that command, and the last read of STATUS shows its record (the
unrolling of WAIT is the model's, log 21). -/
def Obligations.RunLineCompletesItsCommand : Prop :=
  ∀ (s : State) (i : Instr) (polls : Nat) (rest : List Event), s.busy = false →
    s.sched = lineEvents (.run i polls) ++ rest →
    ∃ u, exec i { s with curCmd := encode i, busy := true, sched := rest, resp := none } = .next u ∧
      Host.Core.run Sys2Proof.core (polls + 3) s = .next { u with resp := some (regRead u .status) }

/-- 30_encoding.md R124, 43_code_assigner.md R205: the ten writes of `SETCODE s, len, val` leave SYM_INDEX = s, entry s of the
code table (len, val), every other entry kept, and TABLE_VALID = 0. -/
def Obligations.SetCodeLineWritesOneCode : Prop :=
  ∀ (s : State) (sym : Symbol) (len : BitVec 8) (val : BitVec 256) (rest : List Event), s.busy = false →
    s.sched = lineEvents (.setCode sym len val) ++ rest →
    ∃ c, Host.Core.run Sys2Proof.core 10 s =
        .next { s with sched := rest, resp := none, symIndex := sym, codes := c, tableValid := false } ∧
      entry c sym = { len := len, val := val } ∧ ∀ x, x ≠ sym → entry c x = entry s.codes x

/-! ### Reset -/

/-- 70_reset_and_hazards.md R290, R291, R292: what reset leaves, whatever was running; every buffer byte is a new draw.
CUR_CMD, unspecified there, is not stated. -/
def Obligations.ResetLeavesTheSpecifiedValues : Prop :=
  ∀ (s : State) (rest : List Event), s.sched = .reset :: rest →
    ∃ t, step s = .next t ∧ t.cfg = s.cfg ∧ t.sched = rest ∧
      regRead t .id = 0x48554601 ∧ regRead t .status = 0 ∧ t.busy = false ∧ t.treeValid = false ∧
      t.tableValid = false ∧ t.fatal = false ∧ t.err = 0x00 ∧ t.intEnable = 0 ∧ t.intStatus = 0 ∧ irq t = false ∧
      t.srcAddr = 0 ∧ t.srcLen = 0 ∧ t.dstAddr = 0 ∧ t.dstCap = 0 ∧ t.expectCount = 0 ∧
      t.resultLen = 0 ∧ t.resultBits = 0 ∧ t.resultCount = 0 ∧ t.symIndex = 0 ∧ t.nodeIndex = 0 ∧
      (∀ x, entry t.freq x = 0) ∧ nsym t.freq = 0 ∧ (∀ x, (entry t.codes x).len = 0 ∧ (entry t.codes x).val = 0) ∧
      t.root = 0 ∧ t.nodeCount = 0 ∧ t.leafCount = 0 ∧
      ∀ b a, byteAt t b a = Config.resetByte b (s.epoch + 1) a

/-! ### What every command does -/

/-- 40_command_lifecycle.md R133, R135 and 60_exceptions.md R260: every command completes; BUSY falls, DONE is set,
INT_STATUS.ERR is set exactly when the code is not 0, no interrupt bit is cleared, and the code is one of R260's. -/
def Obligations.EveryCommandCompletes : Prop :=
  ∀ (i : Instr) (s : State), ∃ t, exec i s = .next t ∧ t.busy = false ∧
    t.intStatus = (if t.err = 0 then s.intStatus ||| 0b0001 else s.intStatus ||| 0b0011) ∧
    ∃ e : ErrCode, t.err = e.code

/-- 10_state.md R31, 20_memory.md R84, R95: no command writes an operand register, an index register, INT_ENABLE, IN_MEM or
the parameters. That CUR_CMD is kept too is the model's choice (log 25), not the spec's. -/
def Obligations.NoCommandWritesOperandsOrInput : Prop :=
  ∀ (i : Instr) (s t : State), exec i s = .next t →
    t.cfg = s.cfg ∧ t.curCmd = s.curCmd ∧ t.intEnable = s.intEnable ∧ t.srcAddr = s.srcAddr ∧ t.srcLen = s.srcLen ∧
    t.dstAddr = s.dstAddr ∧ t.dstCap = s.dstCap ∧ t.expectCount = s.expectCount ∧ t.symIndex = s.symIndex ∧
    t.nodeIndex = s.nodeIndex ∧ t.inMem = s.inMem ∧ t.sched = s.sched ∧ t.resp = s.resp ∧ t.epoch = s.epoch

/-- 10_state.md R34, R50, R51, R52 and 20_memory.md R85: which commands can change which table, flag and buffer. -/
def Obligations.OnlyTheNamedCommandsWriteEachTable : Prop :=
  ∀ (i : Instr) (s t : State), exec i s = .next t →
    (i ∉ [Instr.freqClear, .freqCount, .buildTable] → t.freq = s.freq) ∧
    (i ∉ [Instr.treeBuild, .buildTable] →
      t.nodes = s.nodes ∧ t.root = s.root ∧ t.nodeCount = s.nodeCount ∧ t.leafCount = s.leafCount ∧
        t.tieDraws = s.tieDraws) ∧
    (i ∉ [Instr.freqClear, .freqCount, .treeBuild, .codeAssign, .buildTable] → t.treeValid = s.treeValid) ∧
    (i ∉ [Instr.codeAssign, .buildTable, .codeClear] → t.codes = s.codes) ∧
    (i ∉ [Instr.codeAssign, .buildTable, .codeClear, .tableLoad] → t.tableValid = s.tableValid) ∧
    (i ∉ [Instr.codeAssign, .buildTable] → t.fatal = s.fatal) ∧
    (i ∉ [Instr.compress, .decompress] → t.outMem = s.outMem)

/-- 40_command_lifecycle.md R141: a command's result is a function of the operand registers, the tables, the tree and the
source bytes. -/
def Obligations.CommandsAreDeterministicInTheirInputs : Prop :=
  ∀ (i : Instr) (s s' t t' : State),
    s.cfg = s'.cfg → s.fatal = s'.fatal → s.tieDraws = s'.tieDraws → s.epoch = s'.epoch →
    s.srcAddr = s'.srcAddr → s.srcLen = s'.srcLen → s.dstAddr = s'.dstAddr → s.dstCap = s'.dstCap →
    s.expectCount = s'.expectCount → s.freq = s'.freq → s.codes = s'.codes → s.nodes = s'.nodes → s.root = s'.root →
    s.leafCount = s'.leafCount → s.treeValid = s'.treeValid → s.tableValid = s'.tableValid →
    (∀ a, s.srcAddr.toNat ≤ a → a < s.srcAddr.toNat + s.srcLen.toNat → byteAt s .input a = byteAt s' .input a) →
    exec i s = .next t → exec i s' = .next t' →
    t.err = t'.err ∧ t.resultLen = t'.resultLen ∧ t.resultBits = t'.resultBits ∧ t.resultCount = t'.resultCount ∧
      t.freq = t'.freq ∧ t.codes = t'.codes ∧ t.treeValid = t'.treeValid ∧ t.tableValid = t'.tableValid ∧
      t.fatal = t'.fatal ∧ (s.outMem = s'.outMem → t.outMem = t'.outMem)

/-- 40_command_lifecycle.md R136, 41_frequency_counter.md R150, 43_code_assigner.md R201: the commands that always succeed
while FATAL = 0: NOP changes nothing but the completion record, FREQ_CLEAR makes every count 0 and clears TREE_VALID, and
CODE_CLEAR removes every code and clears TABLE_VALID. While FATAL = 1 each reports INVARIANT_VIOLATION. -/
def Obligations.NopAndTheClearsAlwaysSucceed : Prop :=
  ∀ s : State,
    (s.fatal = false →
      exec .nop s = .next (s.completed 0 0 0 0) ∧
      (∃ f, exec .freqClear s = .next (State.completed { s with freq := f, treeValid := false } 0 0 0 0) ∧
        nsym f = 0 ∧ ∀ x, entry f x = 0) ∧
      (∃ c, exec .codeClear s = .next (State.completed { s with codes := c, tableValid := false } 0 0 0 0) ∧
        ∀ x, (entry c x).len = 0 ∧ (entry c x).val = 0)) ∧
    (s.fatal = true → ∀ i ∈ [Instr.nop, .freqClear, .codeClear], exec i s = .next (s.completed 0x04 0 0 0))

/-! ### The frequency counter -/

/-- 41_frequency_counter.md R151: FREQ_COUNT adds the histogram of the source bytes when the range is inside IN_MEM and no
count would pass 2^32 - 1. -/
def Obligations.FreqCountAddsTheHistogram : Prop :=
  ∀ s : State, s.fatal = false → s.srcAddr.toNat + s.srcLen.toNat ≤ s.cfg.inCap →
    (∀ x, (entry s.freq x).toNat + (srcBytes s).count x ≤ 2 ^ 32 - 1) →
    ∃ f, exec .freqCount s =
        .next (State.completed { s with freq := f, treeValid := false } 0 0 0 s.srcLen.toNat) ∧
      ∀ x, (entry f x).toNat = (entry s.freq x).toNat + (srcBytes s).count x

/-- 41_frequency_counter.md R151, R152 and 60_exceptions.md R261, R264: the two errors of FREQ_COUNT change nothing but the
completion record; COUNT_OVERFLOW reports the lowest overflowing symbol. -/
def Obligations.FreqCountErrorsChangeNothing : Prop :=
  ∀ s : State, s.fatal = false →
    (s.cfg.inCap < s.srcAddr.toNat + s.srcLen.toNat → exec .freqCount s = .next (s.completed 0x11 0 0 0)) ∧
    (s.srcAddr.toNat + s.srcLen.toNat ≤ s.cfg.inCap →
      ∀ x : Symbol, 2 ^ 32 - 1 < (entry s.freq x).toNat + (srcBytes s).count x →
        (∀ y : Symbol, y < x → (entry s.freq y).toNat + (srcBytes s).count y ≤ 2 ^ 32 - 1) →
        exec .freqCount s = .next (s.completed 0x15 0 0 x.toNat))

/-- 41_frequency_counter.md R153: FREQ after FREQ_COUNT does not depend on the order of the input bytes. -/
def Obligations.FreqCountIgnoresByteOrder : Prop :=
  ∀ (s t t' : State) (m : Memory), (srcBytes { s with inMem := m }).Perm (srcBytes s) →
    exec .freqCount s = .next t → exec .freqCount { s with inMem := m } = .next t' → t'.freq = t.freq

/-! ### The tree builder -/

/-- 42_tree_builder.md R170, 43_code_assigner.md R190, R196: TREE_BUILD of an empty Frequency Table, CODE_ASSIGN without a
valid tree, and BUILD_TABLE of a range outside IN_MEM or of no bytes end with their error and change nothing but the
completion record. -/
def Obligations.MissingInputsOnlyReport : Prop :=
  ∀ s : State, s.fatal = false →
    ((∀ x, entry s.freq x = 0) → exec .treeBuild s = .next (s.completed 0x01 0 0 0)) ∧
    (s.treeValid = false → exec .codeAssign s = .next (s.completed 0x12 0 0 0)) ∧
    (s.cfg.inCap < s.srcAddr.toNat + s.srcLen.toNat → exec .buildTable s = .next (s.completed 0x11 0 0 0)) ∧
    (s.srcAddr.toNat + s.srcLen.toNat ≤ s.cfg.inCap → s.srcLen = 0 →
      exec .buildTable s = .next (s.completed 0x01 0 0 0))

/-- 42_tree_builder.md R170, R171, R174: TREE_BUILD of a table with n ≥ 1 symbols: 2n - 1 nodes, the root last, n leaves in
ascending order of symbol at NODE[0..n-1]. -/
def Obligations.TreeBuildLaysOutTheArena : Prop :=
  ∀ s : State, s.fatal = false → keyCount s.freq ≠ 0 →
    ∃ nodes draws, exec .treeBuild s = .next (State.completed
        { s with
          nodes := nodes
          root := BitVec.ofNat 9 (2 * keyCount s.freq - 2)
          nodeCount := BitVec.ofNat 10 (2 * keyCount s.freq - 1)
          leafCount := BitVec.ofNat 9 (keyCount s.freq)
          treeValid := true
          tieDraws := draws } 0 0 0 (keyCount s.freq)) ∧
      2 * keyCount s.freq - 1 ≤ nodes.length ∧
      ∃ syms : List Symbol, syms.length = keyCount s.freq ∧ syms.Pairwise (· < ·) ∧
        (∀ x, x ∈ syms ↔ entry s.freq x ≠ 0) ∧
        ∀ k (h : k < syms.length), nodes[k]? = some (.leaf syms[k] ((entry s.freq syms[k]).zeroExtend 40))

/-- 42_tree_builder.md R175, R176: the structure of the tree after a successful TREE_BUILD, under either TIE_BREAK: every
internal node's weight is the exact sum of its children's, n leaves and n - 1 internal nodes, every node but the root is
the child of exactly one node, the root's weight is the sum of the counts, and no path is longer than n - 1 edges. -/
def Obligations.TreeBuildStructure : Prop :=
  ∀ s t : State, s.fatal = false → keyCount s.freq ≠ 0 → exec .treeBuild s = .next t →
    (∀ k : NodeIdx, keyCount s.freq ≤ k.toNat → k.toNat < 2 * keyCount s.freq - 1 →
      ∃ l r w, nodeAt t k = .internal l r w ∧ l.toNat < k.toNat ∧ r.toNat < k.toNat ∧ l ≠ r ∧
        w.toNat = (nodeAt t l).weight.toNat + (nodeAt t r).weight.toNat) ∧
    (∀ k : NodeIdx, k.toNat < keyCount s.freq → ∃ sym w, nodeAt t k = .leaf sym w) ∧
    t.nodeCount.toNat = 2 * keyCount s.freq - 1 ∧
    (∀ c : NodeIdx, c.toNat < 2 * keyCount s.freq - 1 → c ≠ t.root →
      ∃! k : NodeIdx, k.toNat < 2 * keyCount s.freq - 1 ∧ isChild (nodeAt t) k c) ∧
    (∀ k : NodeIdx, k.toNat < 2 * keyCount s.freq - 1 → ¬ isChild (nodeAt t) k t.root) ∧
    (nodeAt t t.root).weight.toNat = ∑ k : Fin 256, (s.freq[k.val]'k.isLt).toNat ∧
    (∀ bits k sym w, descend (nodeAt t) t.root bits = some k → nodeAt t k = .leaf sym w →
      bits.length ≤ keyCount s.freq - 1)

/-- 42_tree_builder.md R172, R173: one merge takes the element of least key `(weight, node)` as the left child and the
next least as the right. -/
def Obligations.MergeTakesTheTwoLeastKeys : Prop :=
  ∀ t : TreeBuilder, 2 ≤ t.queue.length → (t.queue.map QEntry.node).Nodup →
    ∃ a b rest, t.queue.Perm (a :: b :: rest) ∧
      mergeStep .lowestKey t =
        { nodes := t.nodes ++ [.internal a.node b.node (a.weight + b.weight)]
          queue := rest ++ [{ weight := a.weight + b.weight, node := BitVec.ofNat 9 t.nodes.length }]
          draws := t.draws } ∧
      (∀ e ∈ b :: rest, a.weight < e.weight ∨ (a.weight = e.weight ∧ a.node < e.node)) ∧
      (∀ e ∈ rest, b.weight < e.weight ∨ (b.weight = e.weight ∧ b.node < e.node))

/-- 42_tree_builder.md R178: under TIE_BREAK = any_min one merge takes, as left child, some element of least weight and
then, as right child, some element of least weight among the others, whatever the draws are (log 7). -/
def Obligations.AnyMinMergeTakesLeastWeights : Prop :=
  ∀ t : TreeBuilder, 2 ≤ t.queue.length →
    ∃ a b rest, t.queue.Perm (a :: b :: rest) ∧
      mergeStep .anyMin t =
        { nodes := t.nodes ++ [.internal a.node b.node (a.weight + b.weight)]
          queue := rest ++ [{ weight := a.weight + b.weight, node := BitVec.ofNat 9 t.nodes.length }]
          draws := t.draws + 2 } ∧
      (∀ e ∈ b :: rest, a.weight ≤ e.weight) ∧ (∀ e ∈ rest, b.weight ≤ e.weight)

/-! ### The code assigner -/

/-- 43_code_assigner.md R192: the single-symbol code: the tree is one leaf, and its symbol gets the 1-bit code 0. -/
def Obligations.SingleSymbolGetsOneBit : Prop :=
  ∀ (s : State) (sym : Symbol) (w : Weight), s.fatal = false → s.treeValid = true →
    nodeAt s s.root = .leaf sym w → s.leafCount = 1 →
    ∃ c, exec .codeAssign s =
        .next (State.completed { s with codes := c, treeValid := false, tableValid := true } 0 0 0 1) ∧
      entry c sym = { len := 1, val := 0 } ∧ ∀ x, x ≠ sym → (entry c x).len = 0 ∧ (entry c x).val = 0

/-- 43_code_assigner.md R190, R193 and 60_exceptions.md R271: when the walk does not give LEAF_COUNT codes, CODE_ASSIGN ends
with INVARIANT_VIOLATION: the table is rewritten, both valid flags are 0 and FATAL is set. -/
def Obligations.CodeCountMismatchIsFatal : Prop :=
  ∀ (s : State), s.fatal = false → s.treeValid = true →
    codeCount (codesOfTree (nodeAt s) s.root) ≠ s.leafCount.toNat →
    exec .codeAssign s = .next (State.completed
      { s with
        codes := codesOfTree (nodeAt s) s.root
        treeValid := false
        tableValid := false
        fatal := true } 0x04 0 0 0)

/-- 43_code_assigner.md R190, R194, R195: from the tree TREE_BUILD made of the current FREQ, CODE_ASSIGN succeeds, destroys
the tree, codes exactly the symbols with a non-zero count, with lengths 1..max(1, n-1) and values that fit, and the table
is prefix-free: it is well-formed. -/
def Obligations.CodeAssignGivesAPrefixFreeTable : Prop :=
  ∀ s : State, s.fatal = false → s.treeValid = true → s.treeIsCurrent →
    ∃ c, exec .codeAssign s = .next (State.completed
        { s with codes := c, treeValid := false, tableValid := true } 0 0 0 (keyCount s.freq)) ∧
      (∀ x, (entry c x).len ≠ 0 ↔ entry s.freq x ≠ 0) ∧
      (∀ x, (entry c x).len ≠ 0 →
        1 ≤ (entry c x).len.toNat ∧ (entry c x).len.toNat ≤ max 1 (keyCount s.freq - 1) ∧
          (entry c x).val.toNat < 2 ^ (entry c x).len.toNat) ∧
      wfTable c

/-- 43_code_assigner.md R191: with two symbols or more, the bits of a symbol's code lead from the root to the symbol's leaf,
0 to the left and 1 to the right. -/
def Obligations.CodesArePathsToTheirLeaves : Prop :=
  ∀ s t : State, s.fatal = false → s.treeValid = true → s.treeIsCurrent → 2 ≤ keyCount s.freq →
    exec .codeAssign s = .next t →
    ∀ x, entry s.freq x ≠ 0 →
      ∃ k w, descend (nodeAt s) s.root (codeSequence (entry t.codes x)) = some k ∧ nodeAt s k = .leaf x w

/-- 43_code_assigner.md R195 item 5: with two symbols or more the codes are complete: `Σ 2^(-len) = 1`, and every bit
sequence long enough starts with exactly one code; with one symbol the sum is 1/2, and no code starts a sequence that starts
with bit 1. -/
def Obligations.AssignedCodesAreComplete : Prop :=
  ∀ s t : State, s.fatal = false → s.treeValid = true → s.treeIsCurrent → exec .codeAssign s = .next t →
    (2 ≤ keyCount s.freq →
      (∑ k : Fin 256, if (t.codes[k.val]'k.isLt).len = 0 then 0 else 2 ^ (255 - (t.codes[k.val]'k.isLt).len.toNat)) =
        2 ^ 255 ∧
      ∀ bits : List Bool, 255 ≤ bits.length →
        ∃! x : Symbol, (entry t.codes x).len ≠ 0 ∧ codeSequence (entry t.codes x) <+: bits) ∧
    (keyCount s.freq = 1 →
      (∑ k : Fin 256, if (t.codes[k.val]'k.isLt).len = 0 then 0 else 2 ^ (255 - (t.codes[k.val]'k.isLt).len.toNat)) =
        2 ^ 254 ∧
      ∀ (bits : List Bool) (x : Symbol), (entry t.codes x).len ≠ 0 →
        ¬ codeSequence (entry t.codes x) <+: (true :: bits))

/-- 43_code_assigner.md R196, R195: BUILD_TABLE of a non-empty input in range leaves FREQ the histogram of the input and a
well-formed code table of exactly the symbols in the input. -/
def Obligations.BuildTableCodesItsInput : Prop :=
  ∀ s : State, s.fatal = false → s.cfg.wf = true → s.srcAddr.toNat + s.srcLen.toNat ≤ s.cfg.inCap → s.srcLen ≠ 0 →
    ∃ f c nodes root nodeCount leafCount draws, exec .buildTable s = .next (State.completed
        { s with
          freq := f
          codes := c
          nodes := nodes
          root := root
          nodeCount := nodeCount
          leafCount := leafCount
          tieDraws := draws
          treeValid := false
          tableValid := true } 0 0 0 s.srcLen.toNat) ∧
      (∀ x, (entry f x).toNat = (srcBytes s).count x) ∧
      (∀ x, (entry c x).len ≠ 0 ↔ x ∈ srcBytes s) ∧ wfTable c

/-- 43_code_assigner.md R197: a successful BUILD_TABLE leaves FREQ, the code table, both valid flags and everything else
exactly as FREQ_CLEAR; FREQ_COUNT; TREE_BUILD; CODE_ASSIGN would, but for the RESULT_COUNT it reports; for SRC_LEN = 0 the
two differ as the rule says. -/
def Obligations.BuildTableEqualsTheFourCommands : Prop :=
  ∀ s : State, s.fatal = false → s.cfg.wf = true → s.srcAddr.toNat + s.srcLen.toNat ≤ s.cfg.inCap →
    ∃ t s1 s2 s3 s4, exec .buildTable s = .next t ∧ exec .freqClear s = .next s1 ∧ exec .freqCount s1 = .next s2 ∧
      exec .treeBuild s2 = .next s3 ∧ exec .codeAssign s3 = .next s4 ∧
      (s.srcLen ≠ 0 → t = { s4 with resultCount := s.srcLen } ∧ t.err = 0 ∧ s1.err = 0 ∧ s2.err = 0 ∧ s3.err = 0) ∧
      (s.srcLen = 0 → t = s.completed 0x01 0 0 0 ∧ (∀ x, entry s3.freq x = 0) ∧ s3.err = 0x01)

/-- 43_code_assigner.md R204, 40_command_lifecycle.md R141: under lowest_key the table is a function of FREQ alone:
TREE_BUILD then CODE_ASSIGN from the same counts give the same table, whatever else the two blocks hold. -/
def Obligations.EqualCountsRebuildTheSameTable : Prop :=
  ∀ s t : State, s.fatal = false → t.fatal = false → s.cfg.tieBreak = .lowestKey → t.cfg.tieBreak = .lowestKey →
    s.freq = t.freq → keyCount s.freq ≠ 0 →
    ∃ s1 s2 t1 t2, exec .treeBuild s = .next s1 ∧ exec .codeAssign s1 = .next s2 ∧
      exec .treeBuild t = .next t1 ∧ exec .codeAssign t1 = .next t2 ∧
      s2.codes = t2.codes ∧ s2.tableValid = true ∧ t2.tableValid = true ∧ s2.err = 0 ∧ t2.err = 0

/-- 43_code_assigner.md R200, R202: TABLE_LOAD sets TABLE_VALID exactly when the table is well-formed and never changes it. -/
def Obligations.TableLoadChecksWellFormedness : Prop :=
  ∀ s : State, s.fatal = false →
    (wfTable s.codes →
      exec .tableLoad s = .next (State.completed { s with tableValid := true } 0 0 0 (codeCount s.codes))) ∧
    (¬ wfTable s.codes →
      exec .tableLoad s = .next (State.completed { s with tableValid := false } 0x16 0 0 0))

/-! ### The packer -/

/-- 44_bitstream_packer.md R220, R221, R223 (and R222's other half): COMPRESS of coded symbols that fit writes exactly the
bytes of the bitstream, the last one padded with zeros, and no other byte. -/
def Obligations.CompressWritesTheBitstream : Prop :=
  ∀ s : State, s.fatal = false → s.srcAddr.toNat + s.srcLen.toNat ≤ s.cfg.inCap →
    s.dstAddr.toNat + s.dstCap.toNat ≤ s.cfg.outCap → s.tableValid = true →
    (∀ x ∈ srcBytes s, (entry s.codes x).len ≠ 0) →
    ((codedStream s.codes (srcBytes s)).length + 7) / 8 ≤ s.dstCap.toNat →
    ∃ m, exec .compress s = .next (State.completed { s with outMem := m } 0
        (((codedStream s.codes (srcBytes s)).length + 7) / 8) (codedStream s.codes (srcBytes s)).length
        s.srcLen.toNat) ∧
      ∀ a, byteAt { s with outMem := m } .output a =
        if s.dstAddr.toNat ≤ a ∧ a < s.dstAddr.toNat + ((codedStream s.codes (srcBytes s)).length + 7) / 8 then
          BitVec.ofNat 8 (streamByte (codedStream s.codes (srcBytes s)) (a - s.dstAddr.toNat))
        else byteAt s .output a

/-- 44_bitstream_packer.md R220, R222 and 60_exceptions.md R261, R264, R265: the errors of COMPRESS in their order; none
writes a byte or changes anything but the completion record. -/
def Obligations.CompressErrorsInOrder : Prop :=
  ∀ s : State, s.fatal = false →
    (s.cfg.inCap < s.srcAddr.toNat + s.srcLen.toNat → exec .compress s = .next (s.completed 0x11 0 0 0)) ∧
    (s.srcAddr.toNat + s.srcLen.toNat ≤ s.cfg.inCap →
      (s.cfg.outCap < s.dstAddr.toNat + s.dstCap.toNat → exec .compress s = .next (s.completed 0x11 0 0 0)) ∧
      (s.dstAddr.toNat + s.dstCap.toNat ≤ s.cfg.outCap →
        (s.tableValid = false → exec .compress s = .next (s.completed 0x13 0 0 0)) ∧
        (s.tableValid = true →
          (∀ (i : Nat) (h : i < (srcBytes s).length), (entry s.codes (srcBytes s)[i]).len = 0 →
            (∀ (j : Nat) (hj : j < i), (entry s.codes ((srcBytes s)[j]'(by omega))).len ≠ 0) →
            exec .compress s = .next (s.completed 0x02 0 0 i)) ∧
          ((∀ x ∈ srcBytes s, (entry s.codes x).len ≠ 0) →
            s.dstCap.toNat < ((codedStream s.codes (srcBytes s)).length + 7) / 8 →
            exec .compress s = .next (s.completed 0x14
              (((codedStream s.codes (srcBytes s)).length + 7) / 8) (codedStream s.codes (srcBytes s)).length 0)))))

/-- 44_bitstream_packer.md R227 and 00_scope.md R9: the sizes COMPRESS reports are exact, within the rule's bounds, and never
wrap: on success and on OUTPUT_OVERFLOW they are the bits and bytes of the stream, on every other path 0. -/
def Obligations.CompressSizesFit : Prop :=
  ∀ s t : State, s.cfg.wf = true → exec .compress s = .next t →
    (t.err = 0x00 ∨ t.err = 0x14 →
      t.resultBits.toNat = (codedStream s.codes (srcBytes s)).length ∧
      t.resultLen.toNat = ((codedStream s.codes (srcBytes s)).length + 7) / 8 ∧
      t.resultBits.toNat ≤ s.srcLen.toNat * 255 ∧ s.srcLen.toNat * 255 < 2 ^ 32 ∧
      t.resultLen.toNat ≤ (s.srcLen.toNat * 255 + 7) / 8) ∧
    (t.err ≠ 0x00 → t.err ≠ 0x14 → t.resultBits = 0 ∧ t.resultLen = 0)

/-- 44_bitstream_packer.md R226: in any state whose table is the one BUILD_TABLE made of the same bytes, wherever those bytes
lie and whatever the destination, RESULT_BITS of COMPRESS is the weighted path length, on OUTPUT_OVERFLOW too. -/
def Obligations.CompressedBitsAreTheWeightedPathLength : Prop :=
  ∀ s t v u : State, s.cfg.wf = true → exec .buildTable s = .next t → t.err = 0 →
    v.codes = t.codes → srcBytes v = srcBytes s → exec .compress v = .next u → (u.err = 0x00 ∨ u.err = 0x14) →
    u.resultBits.toNat =
      ∑ k : Fin 256, (t.freq[k.val]'k.isLt).toNat * (t.codes[k.val]'k.isLt).len.toNat

/-! ### The unpacker -/

/-- 45_bitstream_unpacker.md R240 and 60_exceptions.md R261, R264, R265: the errors of DECOMPRESS that come before decoding,
in their order; none writes a byte. -/
def Obligations.DecompressEarlyErrorsInOrder : Prop :=
  ∀ s : State, s.fatal = false →
    (s.cfg.inCap < s.srcAddr.toNat + s.srcLen.toNat → exec .decompress s = .next (s.completed 0x11 0 0 0)) ∧
    (s.srcAddr.toNat + s.srcLen.toNat ≤ s.cfg.inCap →
      (s.cfg.outCap < s.dstAddr.toNat + s.dstCap.toNat → exec .decompress s = .next (s.completed 0x11 0 0 0)) ∧
      (s.dstAddr.toNat + s.dstCap.toNat ≤ s.cfg.outCap →
        (s.tableValid = false → exec .decompress s = .next (s.completed 0x13 0 0 0)) ∧
        (s.tableValid = true → s.dstCap.toNat < s.expectCount.toNat →
          exec .decompress s = .next (s.completed 0x14 0 0 0))))

/-- 45_bitstream_unpacker.md R241: zero expected symbols. -/
def Obligations.DecompressOfZeroSymbolsDoesNothing : Prop :=
  ∀ s : State, s.fatal = false → s.srcAddr.toNat + s.srcLen.toNat ≤ s.cfg.inCap →
    s.dstAddr.toNat + s.dstCap.toNat ≤ s.cfg.outCap → s.tableValid = true → s.expectCount = 0 →
    exec .decompress s = .next (s.completed 0 0 0 0)

/-- 45_bitstream_unpacker.md R240, R244, R245, R246, R247: past the early checks DECOMPRESS decodes some symbols `xs`, whose
codes are exactly the front of the source bits, and leaves them at DST_ADDR onwards and every other byte as it was. With
EXPECT_COUNT symbols it succeeds, having consumed exactly their bits. With fewer it ends with TRUNCATED_INPUT, no code begins
the bits after theirs, and it has consumed all bits of the source (R245), or 255 bits past the last symbol if that comes
first (R246). -/
def Obligations.DecompressSucceedsOrIsTruncated : Prop :=
  ∀ s : State, s.fatal = false → s.srcAddr.toNat + s.srcLen.toNat ≤ s.cfg.inCap →
    s.dstAddr.toNat + s.dstCap.toNat ≤ s.cfg.outCap → s.tableValid = true → s.expectCount ≠ 0 →
    s.expectCount.toNat ≤ s.dstCap.toNat →
    ∃ (xs : List Symbol) (m : Memory) (used : Nat),
      exec .decompress s = .next (State.completed { s with outMem := m }
        (if xs.length = s.expectCount.toNat then 0x00 else 0x03) xs.length used xs.length) ∧
      xs.length ≤ s.expectCount.toNat ∧ used ≤ 8 * s.srcLen.toNat ∧
      (∀ x ∈ xs, (entry s.codes x).len ≠ 0) ∧ codedStream s.codes xs <+: byteStream (srcBytes s) ∧
      (∀ (i : Nat) (h : i < xs.length), byteAt { s with outMem := m } .output (s.dstAddr.toNat + i) = xs[i]) ∧
      (∀ a, ¬ (s.dstAddr.toNat ≤ a ∧ a < s.dstAddr.toNat + xs.length) →
        byteAt { s with outMem := m } .output a = byteAt s .output a) ∧
      (xs.length = s.expectCount.toNat → used = (codedStream s.codes xs).length) ∧
      (xs.length < s.expectCount.toNat →
        used = min (8 * s.srcLen.toNat) ((codedStream s.codes xs).length + 255) ∧
        ∀ x, (entry s.codes x).len ≠ 0 → (entry s.codes x).val.toNat < 2 ^ (entry s.codes x).len.toNat →
          ¬ codeSequence (entry s.codes x) <+: (byteStream (srcBytes s)).drop (codedStream s.codes xs).length)

/-- 45_bitstream_unpacker.md R240, R243, R244: with a well-formed table, a source that begins with the codes of
EXPECT_COUNT symbols decodes to exactly those symbols and consumes exactly their bits. -/
def Obligations.DecompressDecodesACodedStream : Prop :=
  ∀ (s : State) (xs : List Symbol), s.fatal = false → s.srcAddr.toNat + s.srcLen.toNat ≤ s.cfg.inCap →
    s.dstAddr.toNat + s.dstCap.toNat ≤ s.cfg.outCap → s.tableValid = true → wfTable s.codes →
    s.expectCount.toNat ≤ s.dstCap.toNat → xs.length = s.expectCount.toNat → xs ≠ [] →
    (∀ x ∈ xs, (entry s.codes x).len ≠ 0) → codedStream s.codes xs <+: byteStream (srcBytes s) →
    ∃ m, exec .decompress s = .next (State.completed { s with outMem := m } 0 xs.length
        (codedStream s.codes xs).length xs.length) ∧
      (∀ (i : Nat) (h : i < xs.length), byteAt { s with outMem := m } .output (s.dstAddr.toNat + i) = xs[i]) ∧
      ∀ a, ¬ (s.dstAddr.toNat ≤ a ∧ a < s.dstAddr.toNat + xs.length) →
        byteAt { s with outMem := m } .output a = byteAt s .output a

/-- 45_bitstream_unpacker.md R245, R247, R249: when the source holds only a proper part of the coded stream of the expected
symbols, DECOMPRESS raises TRUNCATED_INPUT after consuming all bits of the source; it has decoded the symbols whose codes the
source holds whole, the first `k`, and no other byte changes. -/
def Obligations.ShortenedStreamIsTruncatedInput : Prop :=
  ∀ (s : State) (xs : List Symbol), s.fatal = false → s.srcAddr.toNat + s.srcLen.toNat ≤ s.cfg.inCap →
    s.dstAddr.toNat + s.dstCap.toNat ≤ s.cfg.outCap → s.tableValid = true → wfTable s.codes →
    s.expectCount.toNat ≤ s.dstCap.toNat → xs.length = s.expectCount.toNat →
    (∀ x ∈ xs, (entry s.codes x).len ≠ 0) →
    8 * s.srcLen.toNat < (codedStream s.codes xs).length → byteStream (srcBytes s) <+: codedStream s.codes xs →
    ∃ (k : Nat) (m : Memory),
      exec .decompress s = .next (State.completed { s with outMem := m } 0x03 k (8 * s.srcLen.toNat) k) ∧
      k < xs.length ∧ (codedStream s.codes (xs.take k)).length ≤ 8 * s.srcLen.toNat ∧
      8 * s.srcLen.toNat < (codedStream s.codes (xs.take (k + 1))).length ∧
      (∀ (i : Nat) (h : i < xs.length), i < k →
        byteAt { s with outMem := m } .output (s.dstAddr.toNat + i) = xs[i]) ∧
      ∀ a, ¬ (s.dstAddr.toNat ≤ a ∧ a < s.dstAddr.toNat + k) →
        byteAt { s with outMem := m } .output a = byteAt s .output a

/-- 45_bitstream_unpacker.md R248: the round trip. After BUILD_TABLE on a non-empty source, COMPRESS of it into a
destination that is large enough succeeds, and then DECOMPRESS, in any state whose table is that one and whose source is the
compressed bytes, with EXPECT_COUNT the number of symbols, gives the source back, without error and consuming exactly the
bits produced; under either TIE_BREAK. -/
def Obligations.CompressThenDecompressRoundTrip : Prop :=
  ∀ s t : State, s.fatal = false → s.cfg.wf = true → s.srcAddr.toNat + s.srcLen.toNat ≤ s.cfg.inCap → s.srcLen ≠ 0 →
    s.dstAddr.toNat + s.dstCap.toNat ≤ s.cfg.outCap → exec .buildTable s = .next t →
    ((codedStream t.codes (srcBytes s)).length + 7) / 8 ≤ s.dstCap.toNat →
    ∃ u, exec .compress t = .next u ∧ u.err = 0x00 ∧
      u.resultLen.toNat = ((codedStream t.codes (srcBytes s)).length + 7) / 8 ∧
      ∀ v : State, v.fatal = false → v.cfg = u.cfg → v.codes = u.codes → v.tableValid = u.tableValid →
        v.srcAddr.toNat + v.srcLen.toNat ≤ v.cfg.inCap → v.dstAddr.toNat + v.dstCap.toNat ≤ v.cfg.outCap →
        v.expectCount = s.srcLen → v.expectCount.toNat ≤ v.dstCap.toNat → v.srcLen = u.resultLen →
        (∀ i, i < v.srcLen.toNat → byteAt v .input (v.srcAddr.toNat + i) = byteAt u .output (u.dstAddr.toNat + i)) →
        ∃ z, exec .decompress v = .next z ∧ z.err = 0x00 ∧ z.resultBits = u.resultBits ∧ z.resultCount = s.srcLen ∧
          ∀ i, i < s.srcLen.toNat → byteAt z .output (v.dstAddr.toNat + i) = byteAt s .input (s.srcAddr.toNat + i)

/-! ### Invariants -/

/-- The state after reset is safe (10_state.md R61, 70_reset_and_hazards.md R290). -/
def Obligations.ResetIsSafe : Prop := State.reset.safe

/-- 10_state.md R61: every step keeps the invariant: canonical buffers inside their capacities, a legal error code, a valid
tree that is the tree of the current FREQ, a valid table that is well-formed, and ERR = 0x04 while FATAL = 1. -/
def Obligations.EveryStepKeepsTheInvariant : Prop :=
  ∀ s t : State, s.Inv → step s = .next t → t.Inv

/-- 43_code_assigner.md R195 item 4 and 60_exceptions.md R271: from a safe state no step reaches the fatal state:
INVARIANT_VIOLATION is unreachable under the rules. -/
def Obligations.FatalIsUnreachable : Prop :=
  ∀ s t : State, s.safe → step s = .next t → t.fatal = false
end

