-- ==== Sys2Proof/Laws/Bits.lean ====
section
/-! SUPPORT. Laws/Bits.lean: bit sequences of codes and bytes (00_scope.md R11, 20_memory.md R83). -/

namespace Sys2Proof.Machine

@[simp] theorem length_bitsMsb (n v : Nat) : (bitsMsb n v).length = n := by
  induction n with
  | zero => rfl
  | succ n ih => simp [bitsMsb, ih]

/-- Bit `k` of the sequence, counted from the first, is bit `n - 1 - k` of the value. -/
theorem getElem_bitsMsb (n v k : Nat) (h : k < (bitsMsb n v).length) : (bitsMsb n v)[k] = v.testBit (n - 1 - k) := by
  induction n generalizing k with
  | zero => simp at h
  | succ n ih =>
    cases k with
    | zero => simp [bitsMsb]
    | succ k =>
      simp only [bitsMsb, List.getElem_cons_succ]
      rw [ih k (by simpa [bitsMsb] using h)]
      congr 1
      omega

/-- The value of a bit sequence, first bit most significant: `v <- 2·v + bit` (43_code_assigner.md R191). -/
def bitsValue (l : List Bool) : Nat := l.foldl (fun v b => 2 * v + b.toNat) 0

theorem foldl_bitsMsb (n v acc : Nat) :
    (bitsMsb n v).foldl (fun v b => 2 * v + b.toNat) acc = acc * 2 ^ n + v % 2 ^ n := by
  induction n generalizing acc with
  | zero => simp [bitsMsb, Nat.mod_one]
  | succ n ih =>
    simp only [bitsMsb, List.foldl_cons, ih]
    rw [Nat.toNat_testBit, Nat.mod_pow_succ]
    ring

/-- A value that fits its length is read back from its bits. -/
theorem bitsValue_bitsMsb {n v : Nat} (h : v < 2 ^ n) : bitsValue (bitsMsb n v) = v := by
  simp [bitsValue, foldl_bitsMsb, Nat.mod_eq_of_lt h]

@[simp] theorem length_codeBits (c : Code) : (codeBits c).length = c.len.toNat := by simp [codeBits]

@[simp] theorem length_byteBits (b : Byte) : (byteBits b).length = 8 := by simp [byteBits]

@[simp] theorem length_streamBits (l : List Byte) : (streamBits l).length = 8 * l.length := by
  induction l with
  | nil => rfl
  | cons b l ih =>
    have e : streamBits (b :: l) = byteBits b ++ streamBits l := rfl
    rw [e, List.length_append, length_byteBits, ih, List.length_cons]
    omega

@[simp] theorem length_srcBytes (s : State) : (srcBytes s).length = s.srcLen.toNat := by simp [srcBytes]

/-- The input bytes are the bytes of IN_MEM from SRC_ADDR on (20_memory.md R84). -/
theorem getElem_srcBytes (s : State) (i : Nat) (h : i < (srcBytes s).length) :
    (srcBytes s)[i] = byteAt s .input (s.srcAddr.toNat + i) := by simp [srcBytes]

/-- The encoded stream has exactly `total` bits (44_bitstream_packer.md R220, R221). -/
theorem length_encodedBits (t : Table Code) (input : List Byte) :
    (encodedBits t input).length = totalBits t input := by
  simp [encodedBits, totalBits, List.length_flatMap]

end Sys2Proof.Machine
end

