-- ==== Sys2Proof/Laws/Tables.lean ====
section
/-! SUPPORT. Laws/Tables.lean: the small lemmas of the table operations of Machine/Ops.lean. -/

namespace Sys2Proof.Machine

@[simp] theorem length_symbols : symbols.length = 256 := by simp only [symbols, List.length_map, List.length_range]

theorem getElem_symbols (k : Nat) (h : k < symbols.length) : symbols[k] = BitVec.ofNat 8 k := by
  simp [symbols]

@[simp] theorem mem_symbols (s : Symbol) : s ∈ symbols := by
  simp only [symbols, List.mem_map, List.mem_range]
  exact ⟨s.toNat, s.isLt, by simp⟩

theorem nodup_symbols : symbols.Nodup := by
  refine List.Nodup.map_on ?_ List.nodup_range
  intro a ha b hb h
  have := congrArg BitVec.toNat h
  simp only [List.mem_range] at ha hb
  simpa [Nat.mod_eq_of_lt ha, Nat.mod_eq_of_lt hb] using this

theorem pairwise_symbols : symbols.Pairwise (· < ·) := by
  simp only [symbols]
  rw [List.pairwise_map]
  refine List.pairwise_lt_range.imp_of_mem ?_
  intro a b ha hb h
  simp only [List.mem_range] at ha hb
  simp only [BitVec.lt_def, BitVec.toNat_ofNat]
  omega

variable {α β : Type}

@[simp] theorem entry_setEntry_same (t : Table α) (s : Symbol) (v : α) : entry (setEntry t s v) s = v := by
  simp [entry, setEntry]

theorem entry_setEntry_other (t : Table α) {s u : Symbol} (v : α) (h : s ≠ u) :
    entry (setEntry t s v) u = entry t u := by
  have : s.toNat ≠ u.toNat := fun e => h (BitVec.eq_of_toNat_eq e)
  simp [entry, setEntry, this]

theorem entry_setEntry (t : Table α) (s u : Symbol) (v : α) :
    entry (setEntry t s v) u = if s = u then v else entry t u := by
  by_cases h : s = u
  · subst h; simp
  · simp [h, entry_setEntry_other t v h]

@[simp] theorem entry_constTable (v : α) (s : Symbol) : entry (constTable v) s = v := by
  simp [entry, constTable]

/-- Two tables with the same entry for every symbol are equal. -/
theorem table_ext {t u : Table α} (h : ∀ s, entry t s = entry u s) : t = u := by
  refine Vector.ext fun i hi => ?_
  have := h (BitVec.ofNat 8 i)
  simpa [entry, Nat.mod_eq_of_lt hi] using this

/-- The entries of a table, each with its symbol. -/
theorem entries_eq (t : Table α) : entries t = symbols.map fun s => (s, entry t s) := by
  refine List.ext_getElem (by simp [entries]) fun i h1 h2 => ?_
  have hi : i < 256 := by simpa [entries] using h1
  simp [entries, getElem_symbols, entry, Nat.mod_eq_of_lt hi]

@[simp] theorem mem_entries (t : Table α) (s : Symbol) (v : α) : (s, v) ∈ entries t ↔ entry t s = v := by
  simp [entries_eq]

@[simp] theorem entry_mapEntries (f : Symbol → α → β) (t : Table α) (s : Symbol) :
    entry (mapEntries f t) s = f s (entry t s) := by
  have hs : s.toNat < 256 := s.isLt
  simp [entry, mapEntries, entries_eq, getElem_symbols]

end Sys2Proof.Machine
end

