-- ==== Sys2Proof/Laws/Codes.lean ====
section
/-! SUPPORT. Laws/Codes.lean: the counting and searching operations over the tables, in terms of entries
(10_state.md R60, 43_code_assigner.md R200, 44_bitstream_packer.md R220, 45_bitstream_unpacker.md R243). -/

namespace Sys2Proof.Machine

/-- The keys of FREQ, as a filter of the symbols. -/
theorem present_eq (t : Table Word) : present t = symbols.filter fun s => entry t s ≠ 0 := by
  simp only [present, entries_eq, List.filter_map, List.map_map]
  exact List.map_id _

@[simp] theorem mem_present (t : Table Word) (s : Symbol) : s ∈ present t ↔ entry t s ≠ 0 := by
  simp [present_eq]

/-- The coded symbols with their codes. -/
theorem coded_eq (t : Table Code) :
    coded t = (symbols.filter fun s => (entry t s).len ≠ 0).map fun s => (s, entry t s) := by
  simp only [coded, entries_eq, List.filter_map]
  rfl

@[simp] theorem mem_coded (t : Table Code) (s : Symbol) (c : Code) :
    (s, c) ∈ coded t ↔ entry t s = c ∧ c.len ≠ 0 := by
  simp [coded_eq]
  constructor
  · rintro ⟨h, rfl⟩; exact ⟨rfl, h⟩
  · rintro ⟨rfl, h⟩; exact ⟨h, rfl⟩

/-- A count over the symbols in order is a count over 0..255. -/
theorem length_filter_symbols (p : Symbol → Prop) [DecidablePred p] :
    (symbols.filter fun s => p s).length =
      (Finset.univ.filter fun k : Fin 256 => p (BitVec.ofFin k)).card := by
  have hn : (symbols.filter fun s => p s).Nodup := nodup_symbols.filter _
  rw [← List.toFinset_card_of_nodup hn]
  refine Finset.card_bij (fun s _ => s.toFin) ?_ ?_ ?_
  · intro s hs
    simpa using hs
  · intro a _ b _ h
    exact BitVec.eq_of_toFin_eq h
  · intro k hk
    exact ⟨BitVec.ofFin k, by simpa using hk, rfl⟩

/-- NSYM is the number of symbols with a non-zero count (10_state.md R60). -/
theorem nsym_eq_keyCount (t : Table Word) : nsym t = keyCount t := by
  rw [nsym, present_eq, length_filter_symbols fun s => entry t s ≠ 0]
  rfl

theorem keyCount_le (t : Table Word) : keyCount t ≤ 256 := by
  refine (Finset.card_filter_le _ _).trans ?_
  simp

/-- The number of codes (43_code_assigner.md R190, R202). -/
theorem codedCount_eq_codeCount (t : Table Code) : codedCount t = codeCount t := by
  rw [codedCount, coded_eq, List.length_map, length_filter_symbols fun s => (entry t s).len ≠ 0]
  rfl

/-- The prefix test on codes, in exact arithmetic (43_code_assigner.md R200). -/
theorem isPrefix_iff (c d : Code) :
    isPrefix c d = true ↔ c.len.toNat ≤ d.len.toNat ∧
      d.val.toNat / 2 ^ (d.len.toNat - c.len.toNat) = c.val.toNat := by
  simp only [isPrefix, Bool.and_eq_true, decide_eq_true_eq, BitVec.le_def]
  refine and_congr_right fun _ => ?_
  rw [← BitVec.toNat_inj, BitVec.toNat_ushiftRight, Nat.shiftRight_eq_div_pow]

/-- The machine's well-formedness check decides WF as 43_code_assigner.md R200 writes it. -/
theorem codeTableWf_iff (t : Table Code) : codeTableWf t = true ↔ wfTable t := by
  simp only [codeTableWf, wfTable, Bool.and_eq_true, List.all_eq_true, Prod.forall, mem_coded, codeFits,
    decide_eq_true_eq, Bool.or_eq_true, Bool.not_eq_eq_eq_not, Bool.not_true]
  constructor
  · rintro ⟨⟨h1, h2⟩, h3⟩
    refine ⟨?_, fun s hs => h2 s _ ⟨rfl, hs⟩, fun s u hsu hs hu hp => ?_⟩
    · have hne : coded t ≠ [] := by simpa using h1
      obtain ⟨⟨s, c⟩, hm⟩ := List.exists_mem_of_ne_nil _ hne
      rw [mem_coded] at hm
      exact ⟨s, by rw [hm.1]; exact hm.2⟩
    · rcases h3 s _ ⟨rfl, hs⟩ u _ ⟨rfl, hu⟩ with e | e
      · exact hsu e
      · have := (isPrefix_iff (entry t s) (entry t u)).2 hp
        rw [e] at this
        exact absurd this (by decide)
  · rintro ⟨⟨s, hs⟩, h2, h3⟩
    refine ⟨⟨?_, ?_⟩, ?_⟩
    · have hm : (s, entry t s) ∈ coded t := (mem_coded _ _ _).2 ⟨rfl, hs⟩
      cases hc : coded t with
      | nil => rw [hc] at hm; cases hm
      | cons _ _ => rfl
    · rintro s c ⟨rfl, hc⟩; exact h2 s hc
    · rintro s c ⟨rfl, hc⟩ u d ⟨rfl, hd⟩
      by_cases e : s = u
      · exact .inl e
      · right
        cases hp : isPrefix (entry t s) (entry t u) with
        | false => rfl
        | true => exact absurd ((isPrefix_iff _ _).1 hp) (h3 s u e hc hd)

/-- The match DECOMPRESS finds has exactly the candidate's length and value (45_bitstream_unpacker.md R243). -/
theorem codeMatch_some {t : Table Code} {cl cv : Nat} {s : Symbol} (h : codeMatch t cl cv = some s) :
    (entry t s).len.toNat = cl ∧ (entry t s).val.toNat = cv := by
  simp only [codeMatch, Option.map_eq_some_iff] at h
  obtain ⟨⟨u, c⟩, hf, rfl⟩ := h
  have hp := List.find?_some hf
  have hm := List.mem_of_find?_eq_some hf
  rw [mem_entries] at hm
  simp only [Bool.and_eq_true, decide_eq_true_eq] at hp
  simp only
  rw [hm]
  exact hp

/-- There is no match exactly when no symbol's code is the candidate. -/
theorem codeMatch_none {t : Table Code} {cl cv : Nat} :
    codeMatch t cl cv = none ↔ ∀ s, ¬ ((entry t s).len.toNat = cl ∧ (entry t s).val.toNat = cv) := by
  simp only [codeMatch, Option.map_eq_none_iff, List.find?_eq_none, Prod.forall, mem_entries, Bool.and_eq_true,
    decide_eq_true_eq]
  exact ⟨fun h s => h s _ rfl, fun h s c e => e ▸ h s⟩

/-- The first byte without a code (44_bitstream_packer.md R220 pass 1). -/
theorem firstUnknown_none {t : Table Code} {input : List Byte} :
    firstUnknown t input = none ↔ ∀ x ∈ input, (entry t x).len ≠ 0 := by
  simp [firstUnknown]

theorem firstUnknown_some {t : Table Code} {input : List Byte} {i : Nat} :
    firstUnknown t input = some i ↔ ∃ h : i < input.length, (entry t input[i]).len = 0 ∧
      ∀ (j : Nat) (hj : j < i), (entry t (input[j]'(by omega))).len ≠ 0 := by
  simp [firstUnknown, List.findIdx?_eq_some_iff_getElem]

/-- The machine's bit sequence of a code is that of 00_scope.md R11. -/
theorem codeBits_eq_codeSequence (c : Code) : codeBits c = codeSequence c := by
  refine List.ext_getElem (by simp [codeSequence]) fun i h1 h2 => ?_
  simp only [codeBits, getElem_bitsMsb]
  simp [codeSequence, BitVec.testBit_toNat]

theorem byteBits_eq (b : Byte) : byteBits b = (List.range 8).map fun q => b.getLsbD (7 - q) := by
  refine List.ext_getElem (by simp) fun i h1 h2 => ?_
  simp only [byteBits, getElem_bitsMsb]
  simp [BitVec.testBit_toNat]

theorem encodedBits_eq_codedStream (t : Table Code) (xs : List Symbol) : encodedBits t xs = codedStream t xs := by
  simp only [encodedBits, codedStream, codeBits_eq_codeSequence]

theorem streamBits_eq_byteStream (l : List Byte) : streamBits l = byteStream l := by
  unfold streamBits byteStream
  exact congrArg (fun f => List.flatMap f l) (funext byteBits_eq)

theorem totalBits_eq (t : Table Code) (xs : List Symbol) : totalBits t xs = (codedStream t xs).length := by
  rw [← encodedBits_eq_codedStream, length_encodedBits]

end Sys2Proof.Machine
end

