-- ==== Sys2Proof/Laws/Completion.lean ====
section
/-! SUPPORT. Laws/Completion.lean: all that a completion can do (40_command_lifecycle.md R133, R134, R138). -/

namespace Sys2Proof.Machine

/-- No error but OK has code 0 (60_exceptions.md R260). -/
theorem errCode_eq_zero (e : ErrCode) : e.code = 0 ↔ e = .ok := by cases e <;> decide

/-- A completion writes exactly the record of 40_command_lifecycle.md R133. -/
theorem complete_eq_completed (s : State) (r : Report) :
    complete s r = s.completed r.err.code r.len r.bits r.count := by
  by_cases h : r.err = .ok
  · simp [complete, State.completed, h, ErrCode.code, pend, IntSource.bit]
  · have h0 : r.err.code ≠ 0 := fun e => h ((errCode_eq_zero _).1 e)
    simp only [complete, State.completed, h, h0, if_false, pend, IntSource.bit, BitVec.or_assoc]
    rfl

/-- The one way a command ends outside the fatal state. -/
theorem command_of_not_fatal {s : State} (h : s.fatal = false) (body : State → State × Report) :
    command s body = .next ((body s).1.completed (body s).2.err.code (body s).2.len (body s).2.bits (body s).2.count) := by
  simp [command, h, complete_eq_completed]

/-- The one way a command ends in the fatal state (40_command_lifecycle.md R138). -/
theorem command_of_fatal {s : State} (h : s.fatal = true) (body : State → State × Report) :
    command s body = .next (s.completed 0x04 0 0 0) := by
  simp [command, h, complete_eq_completed, raise, ErrCode.code]

/-- Everything a command can answer: a next state that is a completion record over the state or over its body's effect. -/
theorem command_cases {s t : State} {body : State → State × Report} (h : command s body = .next t) :
    (s.fatal = true ∧ t = s.completed 0x04 0 0 0) ∨
    (s.fatal = false ∧
      t = (body s).1.completed (body s).2.err.code (body s).2.len (body s).2.bits (body s).2.count) := by
  cases hf : s.fatal with
  | true => left; rw [command_of_fatal hf] at h; exact ⟨rfl, (Host.Outcome.next.inj h).symm⟩
  | false => right; rw [command_of_not_fatal hf] at h; exact ⟨rfl, (Host.Outcome.next.inj h).symm⟩

end Sys2Proof.Machine
end

