-- ==== Sys2Proof/Laws/Memory.lean ====
section
/-! SUPPORT. Laws/Memory.lean: the laws of the byte memories: a read after a write, the frame of a write, and the
canonical form (20_memory.md R82, R84, R85). -/

namespace Sys2Proof.Machine

@[simp] theorem memGet_memSet_same (m : Memory) (a : Nat) (b : Byte) : memGet (memSet m a b) a = some b := by
  induction m with
  | nil => simp [memSet, memGet]
  | cons c rest ih =>
    obtain ⟨k, v⟩ := c
    simp only [memSet]
    split
    · simp [memGet]
    · split
      · simp [memGet]
      · simp_all [memGet, eq_comm]

theorem memGet_memSet_other (m : Memory) {a x : Nat} (b : Byte) (h : x ≠ a) :
    memGet (memSet m a b) x = memGet m x := by
  induction m with
  | nil => simp [memSet, memGet, h.symm]
  | cons c rest ih =>
    obtain ⟨k, v⟩ := c
    simp only [memSet]
    split
    · simp [memGet, h.symm]
    · split
      · rename_i hk
        subst hk
        simp [memGet, h.symm]
      · simp [memGet, ih]

/-- The offsets listed after a write: the old ones and the one written. -/
theorem mem_memSet_fst {m : Memory} {a : Nat} {b : Byte} {c : Host.Cell} (h : c ∈ memSet m a b) :
    c.1 = a ∨ c ∈ m := by
  induction m with
  | nil => simp_all [memSet]
  | cons d rest ih =>
    obtain ⟨k, v⟩ := d
    simp only [memSet] at h
    split at h
    · rcases List.mem_cons.1 h with h | h
      · left; simp [h]
      · right; exact h
    · split at h
      · rcases List.mem_cons.1 h with h | h
        · left; simp [h]
        · right; exact List.mem_cons_of_mem _ h
      · rcases List.mem_cons.1 h with h | h
        · right; simp [h]
        · rcases ih h with h | h
          · left; exact h
          · right; exact List.mem_cons_of_mem _ h

/-- A write keeps the canonical form. -/
theorem memSet_wf {m : Memory} (h : m.wf) (a : Nat) (b : Byte) : (memSet m a b).wf := by
  induction m with
  | nil => simp [memSet, Memory.wf]
  | cons d rest ih =>
    obtain ⟨k, v⟩ := d
    have hr : rest.Pairwise fun x y => x.1 < y.1 := (List.pairwise_cons.1 h).2
    have hk : ∀ c ∈ rest, k < c.1 := (List.pairwise_cons.1 h).1
    simp only [memSet]
    split
    · refine List.pairwise_cons.2 ⟨fun c hc => ?_, h⟩
      rcases List.mem_cons.1 hc with rfl | hc
      · assumption
      · have := hk c hc; simp only; omega
    · split
      · refine List.pairwise_cons.2 ⟨fun c hc => ?_, hr⟩
        have := hk c hc; simp only; omega
      · refine List.pairwise_cons.2 ⟨fun c hc => ?_, ih hr⟩
        rcases mem_memSet_fst hc with e | hc
        · simp only; omega
        · exact hk c hc

/-- A write below the capacity keeps every listed offset below it. -/
theorem memSet_below {m : Memory} {cap a : Nat} (h : Memory.below cap m) (ha : a < cap) (b : Byte) :
    Memory.below cap (memSet m a b) := by
  intro c hc
  rcases mem_memSet_fst hc with e | hc
  · omega
  · exact h c hc

theorem memGet_eq_none {m : Memory} {a : Nat} (h : ∀ c ∈ m, c.1 ≠ a) : memGet m a = none := by
  induction m with
  | nil => rfl
  | cons d rest ih =>
    obtain ⟨k, v⟩ := d
    have hk : k ≠ a := h (k, v) List.mem_cons_self
    simp only [memGet, if_neg hk]
    exact ih fun c hc => h c (List.mem_cons_of_mem _ hc)

/-- Memories in canonical form that read alike at every offset are equal data. -/
theorem memory_ext {m n : Memory} (hm : m.wf) (hn : n.wf) (h : ∀ a, memGet m a = memGet n a) : m = n := by
  induction m generalizing n with
  | nil =>
    cases n with
    | nil => rfl
    | cons d rest => have := h d.1; simp [memGet] at this
  | cons c m ih =>
    obtain ⟨k, v⟩ := c
    have hk : ∀ c ∈ m, k < c.1 := (List.pairwise_cons.1 hm).1
    cases n with
    | nil => have := h k; simp [memGet] at this
    | cons d n =>
      obtain ⟨l, w⟩ := d
      have hl : ∀ c ∈ n, l < c.1 := (List.pairwise_cons.1 hn).1
      have hkl : k = l := by
        rcases Nat.lt_trichotomy k l with lt | e | gt
        · have e := h k
          rw [memGet_eq_none (m := (l, w) :: n) (fun c hc => ?_)] at e
          · simp [memGet] at e
          · rcases List.mem_cons.1 hc with rfl | hc
            · simp only; omega
            · have := hl c hc; omega
        · exact e
        · have e := h l
          rw [memGet_eq_none (m := (k, v) :: m) (fun c hc => ?_)] at e
          · simp [memGet] at e
          · rcases List.mem_cons.1 hc with rfl | hc
            · simp only; omega
            · have := hk c hc; omega
      subst hkl
      have hv : v = w := by have := h k; simpa [memGet] using this
      subst hv
      congr 1
      refine ih (List.pairwise_cons.1 hm).2 (List.pairwise_cons.1 hn).2 fun a => ?_
      by_cases e : k = a
      · subst e
        rw [memGet_eq_none fun c hc => ?_, memGet_eq_none fun c hc => ?_]
        · have := hl c hc; omega
        · have := hk c hc; omega
      · have := h a; simpa [memGet, e] using this

/-- A little-endian store changes exactly its `n` bytes. -/
theorem memGet_storeLE (m : Memory) (a : Nat) (d : Word) (n x : Nat) :
    memGet (storeLE m a d n) x =
      if a ≤ x ∧ x < a + n then some (d.extractLsb' (8 * (x - a)) 8) else memGet m x := by
  induction n with
  | zero => simp [storeLE]
  | succ n ih =>
    by_cases e : x = a + n
    · subst e; simp [storeLE]
    · rw [storeLE, memGet_memSet_other _ _ e, ih]
      by_cases h : a ≤ x ∧ x < a + n
      · rw [if_pos h, if_pos (by omega)]
      · rw [if_neg h, if_neg (by omega)]

theorem storeLE_wf {m : Memory} (h : m.wf) (a : Nat) (d : Word) (n : Nat) : (storeLE m a d n).wf := by
  induction n with
  | zero => exact h
  | succ n ih => exact memSet_wf ih _ _

theorem storeLE_below {m : Memory} {cap a n : Nat} (h : Memory.below cap m) (d : Word) (ha : a + n ≤ cap) :
    Memory.below cap (storeLE m a d n) := by
  induction n with
  | zero => exact h
  | succ n ih => exact memSet_below (ih (by omega)) (by omega) _

end Sys2Proof.Machine
end

