-- ==== Sys2Proof/Laws/State.lean ====
section
/-! SUPPORT. Laws/State.lean: one lemma per field per named update of State, each true by rfl. -/

namespace Sys2Proof.Machine

/-! ### completed -/

@[simp] theorem completed_cfg (s : State) (err' : BitVec 8) (rl rb rc : Nat) :
    (s.completed err' rl rb rc).cfg = s.cfg := rfl
@[simp] theorem completed_busy (s : State) (err' : BitVec 8) (rl rb rc : Nat) :
    (s.completed err' rl rb rc).busy = false := rfl
@[simp] theorem completed_treeValid (s : State) (err' : BitVec 8) (rl rb rc : Nat) :
    (s.completed err' rl rb rc).treeValid = s.treeValid := rfl
@[simp] theorem completed_tableValid (s : State) (err' : BitVec 8) (rl rb rc : Nat) :
    (s.completed err' rl rb rc).tableValid = s.tableValid := rfl
@[simp] theorem completed_fatal (s : State) (err' : BitVec 8) (rl rb rc : Nat) :
    (s.completed err' rl rb rc).fatal = s.fatal := rfl
@[simp] theorem completed_err (s : State) (err' : BitVec 8) (rl rb rc : Nat) :
    (s.completed err' rl rb rc).err = err' := rfl
@[simp] theorem completed_curCmd (s : State) (err' : BitVec 8) (rl rb rc : Nat) :
    (s.completed err' rl rb rc).curCmd = s.curCmd := rfl
@[simp] theorem completed_intEnable (s : State) (err' : BitVec 8) (rl rb rc : Nat) :
    (s.completed err' rl rb rc).intEnable = s.intEnable := rfl
@[simp] theorem completed_intStatus (s : State) (err' : BitVec 8) (rl rb rc : Nat) :
    (s.completed err' rl rb rc).intStatus = if err' = 0 then s.intStatus ||| 0b0001 else s.intStatus ||| 0b0011 := rfl
@[simp] theorem completed_srcAddr (s : State) (err' : BitVec 8) (rl rb rc : Nat) :
    (s.completed err' rl rb rc).srcAddr = s.srcAddr := rfl
@[simp] theorem completed_srcLen (s : State) (err' : BitVec 8) (rl rb rc : Nat) :
    (s.completed err' rl rb rc).srcLen = s.srcLen := rfl
@[simp] theorem completed_dstAddr (s : State) (err' : BitVec 8) (rl rb rc : Nat) :
    (s.completed err' rl rb rc).dstAddr = s.dstAddr := rfl
@[simp] theorem completed_dstCap (s : State) (err' : BitVec 8) (rl rb rc : Nat) :
    (s.completed err' rl rb rc).dstCap = s.dstCap := rfl
@[simp] theorem completed_expectCount (s : State) (err' : BitVec 8) (rl rb rc : Nat) :
    (s.completed err' rl rb rc).expectCount = s.expectCount := rfl
@[simp] theorem completed_resultLen (s : State) (err' : BitVec 8) (rl rb rc : Nat) :
    (s.completed err' rl rb rc).resultLen = BitVec.ofNat 32 rl := rfl
@[simp] theorem completed_resultBits (s : State) (err' : BitVec 8) (rl rb rc : Nat) :
    (s.completed err' rl rb rc).resultBits = BitVec.ofNat 32 rb := rfl
@[simp] theorem completed_resultCount (s : State) (err' : BitVec 8) (rl rb rc : Nat) :
    (s.completed err' rl rb rc).resultCount = BitVec.ofNat 32 rc := rfl
@[simp] theorem completed_symIndex (s : State) (err' : BitVec 8) (rl rb rc : Nat) :
    (s.completed err' rl rb rc).symIndex = s.symIndex := rfl
@[simp] theorem completed_nodeIndex (s : State) (err' : BitVec 8) (rl rb rc : Nat) :
    (s.completed err' rl rb rc).nodeIndex = s.nodeIndex := rfl
@[simp] theorem completed_freq (s : State) (err' : BitVec 8) (rl rb rc : Nat) :
    (s.completed err' rl rb rc).freq = s.freq := rfl
@[simp] theorem completed_codes (s : State) (err' : BitVec 8) (rl rb rc : Nat) :
    (s.completed err' rl rb rc).codes = s.codes := rfl
@[simp] theorem completed_nodes (s : State) (err' : BitVec 8) (rl rb rc : Nat) :
    (s.completed err' rl rb rc).nodes = s.nodes := rfl
@[simp] theorem completed_root (s : State) (err' : BitVec 8) (rl rb rc : Nat) :
    (s.completed err' rl rb rc).root = s.root := rfl
@[simp] theorem completed_nodeCount (s : State) (err' : BitVec 8) (rl rb rc : Nat) :
    (s.completed err' rl rb rc).nodeCount = s.nodeCount := rfl
@[simp] theorem completed_leafCount (s : State) (err' : BitVec 8) (rl rb rc : Nat) :
    (s.completed err' rl rb rc).leafCount = s.leafCount := rfl
@[simp] theorem completed_inMem (s : State) (err' : BitVec 8) (rl rb rc : Nat) :
    (s.completed err' rl rb rc).inMem = s.inMem := rfl
@[simp] theorem completed_outMem (s : State) (err' : BitVec 8) (rl rb rc : Nat) :
    (s.completed err' rl rb rc).outMem = s.outMem := rfl
@[simp] theorem completed_sched (s : State) (err' : BitVec 8) (rl rb rc : Nat) :
    (s.completed err' rl rb rc).sched = s.sched := rfl
@[simp] theorem completed_resp (s : State) (err' : BitVec 8) (rl rb rc : Nat) :
    (s.completed err' rl rb rc).resp = s.resp := rfl
@[simp] theorem completed_epoch (s : State) (err' : BitVec 8) (rl rb rc : Nat) :
    (s.completed err' rl rb rc).epoch = s.epoch := rfl
@[simp] theorem completed_tieDraws (s : State) (err' : BitVec 8) (rl rb rc : Nat) :
    (s.completed err' rl rb rc).tieDraws = s.tieDraws := rfl

/-! ### raiseInt -/

@[simp] theorem raiseInt_cfg (s : State) (i : IntSource) : (raiseInt s i).cfg = s.cfg := rfl
@[simp] theorem raiseInt_busy (s : State) (i : IntSource) : (raiseInt s i).busy = s.busy := rfl
@[simp] theorem raiseInt_treeValid (s : State) (i : IntSource) : (raiseInt s i).treeValid = s.treeValid := rfl
@[simp] theorem raiseInt_tableValid (s : State) (i : IntSource) : (raiseInt s i).tableValid = s.tableValid := rfl
@[simp] theorem raiseInt_fatal (s : State) (i : IntSource) : (raiseInt s i).fatal = s.fatal := rfl
@[simp] theorem raiseInt_err (s : State) (i : IntSource) : (raiseInt s i).err = s.err := rfl
@[simp] theorem raiseInt_curCmd (s : State) (i : IntSource) : (raiseInt s i).curCmd = s.curCmd := rfl
@[simp] theorem raiseInt_intEnable (s : State) (i : IntSource) : (raiseInt s i).intEnable = s.intEnable := rfl
@[simp] theorem raiseInt_intStatus (s : State) (i : IntSource) : (raiseInt s i).intStatus = pend s.intStatus i := rfl
@[simp] theorem raiseInt_srcAddr (s : State) (i : IntSource) : (raiseInt s i).srcAddr = s.srcAddr := rfl
@[simp] theorem raiseInt_srcLen (s : State) (i : IntSource) : (raiseInt s i).srcLen = s.srcLen := rfl
@[simp] theorem raiseInt_dstAddr (s : State) (i : IntSource) : (raiseInt s i).dstAddr = s.dstAddr := rfl
@[simp] theorem raiseInt_dstCap (s : State) (i : IntSource) : (raiseInt s i).dstCap = s.dstCap := rfl
@[simp] theorem raiseInt_expectCount (s : State) (i : IntSource) : (raiseInt s i).expectCount = s.expectCount := rfl
@[simp] theorem raiseInt_resultLen (s : State) (i : IntSource) : (raiseInt s i).resultLen = s.resultLen := rfl
@[simp] theorem raiseInt_resultBits (s : State) (i : IntSource) : (raiseInt s i).resultBits = s.resultBits := rfl
@[simp] theorem raiseInt_resultCount (s : State) (i : IntSource) : (raiseInt s i).resultCount = s.resultCount := rfl
@[simp] theorem raiseInt_symIndex (s : State) (i : IntSource) : (raiseInt s i).symIndex = s.symIndex := rfl
@[simp] theorem raiseInt_nodeIndex (s : State) (i : IntSource) : (raiseInt s i).nodeIndex = s.nodeIndex := rfl
@[simp] theorem raiseInt_freq (s : State) (i : IntSource) : (raiseInt s i).freq = s.freq := rfl
@[simp] theorem raiseInt_codes (s : State) (i : IntSource) : (raiseInt s i).codes = s.codes := rfl
@[simp] theorem raiseInt_nodes (s : State) (i : IntSource) : (raiseInt s i).nodes = s.nodes := rfl
@[simp] theorem raiseInt_root (s : State) (i : IntSource) : (raiseInt s i).root = s.root := rfl
@[simp] theorem raiseInt_nodeCount (s : State) (i : IntSource) : (raiseInt s i).nodeCount = s.nodeCount := rfl
@[simp] theorem raiseInt_leafCount (s : State) (i : IntSource) : (raiseInt s i).leafCount = s.leafCount := rfl
@[simp] theorem raiseInt_inMem (s : State) (i : IntSource) : (raiseInt s i).inMem = s.inMem := rfl
@[simp] theorem raiseInt_outMem (s : State) (i : IntSource) : (raiseInt s i).outMem = s.outMem := rfl
@[simp] theorem raiseInt_sched (s : State) (i : IntSource) : (raiseInt s i).sched = s.sched := rfl
@[simp] theorem raiseInt_resp (s : State) (i : IntSource) : (raiseInt s i).resp = s.resp := rfl
@[simp] theorem raiseInt_epoch (s : State) (i : IntSource) : (raiseInt s i).epoch = s.epoch := rfl
@[simp] theorem raiseInt_tieDraws (s : State) (i : IntSource) : (raiseInt s i).tieDraws = s.tieDraws := rfl

/-! ### acknowledge -/

@[simp] theorem acknowledge_cfg (s : State) (w : Word) : (acknowledge s w).cfg = s.cfg := rfl
@[simp] theorem acknowledge_busy (s : State) (w : Word) : (acknowledge s w).busy = s.busy := rfl
@[simp] theorem acknowledge_treeValid (s : State) (w : Word) : (acknowledge s w).treeValid = s.treeValid := rfl
@[simp] theorem acknowledge_tableValid (s : State) (w : Word) : (acknowledge s w).tableValid = s.tableValid := rfl
@[simp] theorem acknowledge_fatal (s : State) (w : Word) : (acknowledge s w).fatal = s.fatal := rfl
@[simp] theorem acknowledge_err (s : State) (w : Word) : (acknowledge s w).err = s.err := rfl
@[simp] theorem acknowledge_curCmd (s : State) (w : Word) : (acknowledge s w).curCmd = s.curCmd := rfl
@[simp] theorem acknowledge_intEnable (s : State) (w : Word) : (acknowledge s w).intEnable = s.intEnable := rfl
@[simp] theorem acknowledge_intStatus (s : State) (w : Word) :
    (acknowledge s w).intStatus = s.intStatus &&& ~~~(w.extractLsb' 0 4) := rfl
@[simp] theorem acknowledge_srcAddr (s : State) (w : Word) : (acknowledge s w).srcAddr = s.srcAddr := rfl
@[simp] theorem acknowledge_srcLen (s : State) (w : Word) : (acknowledge s w).srcLen = s.srcLen := rfl
@[simp] theorem acknowledge_dstAddr (s : State) (w : Word) : (acknowledge s w).dstAddr = s.dstAddr := rfl
@[simp] theorem acknowledge_dstCap (s : State) (w : Word) : (acknowledge s w).dstCap = s.dstCap := rfl
@[simp] theorem acknowledge_expectCount (s : State) (w : Word) : (acknowledge s w).expectCount = s.expectCount := rfl
@[simp] theorem acknowledge_resultLen (s : State) (w : Word) : (acknowledge s w).resultLen = s.resultLen := rfl
@[simp] theorem acknowledge_resultBits (s : State) (w : Word) : (acknowledge s w).resultBits = s.resultBits := rfl
@[simp] theorem acknowledge_resultCount (s : State) (w : Word) : (acknowledge s w).resultCount = s.resultCount := rfl
@[simp] theorem acknowledge_symIndex (s : State) (w : Word) : (acknowledge s w).symIndex = s.symIndex := rfl
@[simp] theorem acknowledge_nodeIndex (s : State) (w : Word) : (acknowledge s w).nodeIndex = s.nodeIndex := rfl
@[simp] theorem acknowledge_freq (s : State) (w : Word) : (acknowledge s w).freq = s.freq := rfl
@[simp] theorem acknowledge_codes (s : State) (w : Word) : (acknowledge s w).codes = s.codes := rfl
@[simp] theorem acknowledge_nodes (s : State) (w : Word) : (acknowledge s w).nodes = s.nodes := rfl
@[simp] theorem acknowledge_root (s : State) (w : Word) : (acknowledge s w).root = s.root := rfl
@[simp] theorem acknowledge_nodeCount (s : State) (w : Word) : (acknowledge s w).nodeCount = s.nodeCount := rfl
@[simp] theorem acknowledge_leafCount (s : State) (w : Word) : (acknowledge s w).leafCount = s.leafCount := rfl
@[simp] theorem acknowledge_inMem (s : State) (w : Word) : (acknowledge s w).inMem = s.inMem := rfl
@[simp] theorem acknowledge_outMem (s : State) (w : Word) : (acknowledge s w).outMem = s.outMem := rfl
@[simp] theorem acknowledge_sched (s : State) (w : Word) : (acknowledge s w).sched = s.sched := rfl
@[simp] theorem acknowledge_resp (s : State) (w : Word) : (acknowledge s w).resp = s.resp := rfl
@[simp] theorem acknowledge_epoch (s : State) (w : Word) : (acknowledge s w).epoch = s.epoch := rfl
@[simp] theorem acknowledge_tieDraws (s : State) (w : Word) : (acknowledge s w).tieDraws = s.tieDraws := rfl

/-! ### issue -/

@[simp] theorem issue_cfg (s : State) (w : Word) : (issue s w).cfg = s.cfg := rfl
@[simp] theorem issue_busy (s : State) (w : Word) : (issue s w).busy = true := rfl
@[simp] theorem issue_treeValid (s : State) (w : Word) : (issue s w).treeValid = s.treeValid := rfl
@[simp] theorem issue_tableValid (s : State) (w : Word) : (issue s w).tableValid = s.tableValid := rfl
@[simp] theorem issue_fatal (s : State) (w : Word) : (issue s w).fatal = s.fatal := rfl
@[simp] theorem issue_err (s : State) (w : Word) : (issue s w).err = s.err := rfl
@[simp] theorem issue_curCmd (s : State) (w : Word) : (issue s w).curCmd = w := rfl
@[simp] theorem issue_intEnable (s : State) (w : Word) : (issue s w).intEnable = s.intEnable := rfl
@[simp] theorem issue_intStatus (s : State) (w : Word) : (issue s w).intStatus = s.intStatus := rfl
@[simp] theorem issue_srcAddr (s : State) (w : Word) : (issue s w).srcAddr = s.srcAddr := rfl
@[simp] theorem issue_srcLen (s : State) (w : Word) : (issue s w).srcLen = s.srcLen := rfl
@[simp] theorem issue_dstAddr (s : State) (w : Word) : (issue s w).dstAddr = s.dstAddr := rfl
@[simp] theorem issue_dstCap (s : State) (w : Word) : (issue s w).dstCap = s.dstCap := rfl
@[simp] theorem issue_expectCount (s : State) (w : Word) : (issue s w).expectCount = s.expectCount := rfl
@[simp] theorem issue_resultLen (s : State) (w : Word) : (issue s w).resultLen = s.resultLen := rfl
@[simp] theorem issue_resultBits (s : State) (w : Word) : (issue s w).resultBits = s.resultBits := rfl
@[simp] theorem issue_resultCount (s : State) (w : Word) : (issue s w).resultCount = s.resultCount := rfl
@[simp] theorem issue_symIndex (s : State) (w : Word) : (issue s w).symIndex = s.symIndex := rfl
@[simp] theorem issue_nodeIndex (s : State) (w : Word) : (issue s w).nodeIndex = s.nodeIndex := rfl
@[simp] theorem issue_freq (s : State) (w : Word) : (issue s w).freq = s.freq := rfl
@[simp] theorem issue_codes (s : State) (w : Word) : (issue s w).codes = s.codes := rfl
@[simp] theorem issue_nodes (s : State) (w : Word) : (issue s w).nodes = s.nodes := rfl
@[simp] theorem issue_root (s : State) (w : Word) : (issue s w).root = s.root := rfl
@[simp] theorem issue_nodeCount (s : State) (w : Word) : (issue s w).nodeCount = s.nodeCount := rfl
@[simp] theorem issue_leafCount (s : State) (w : Word) : (issue s w).leafCount = s.leafCount := rfl
@[simp] theorem issue_inMem (s : State) (w : Word) : (issue s w).inMem = s.inMem := rfl
@[simp] theorem issue_outMem (s : State) (w : Word) : (issue s w).outMem = s.outMem := rfl
@[simp] theorem issue_sched (s : State) (w : Word) : (issue s w).sched = s.sched := rfl
@[simp] theorem issue_resp (s : State) (w : Word) : (issue s w).resp = s.resp := rfl
@[simp] theorem issue_epoch (s : State) (w : Word) : (issue s w).epoch = s.epoch := rfl
@[simp] theorem issue_tieDraws (s : State) (w : Word) : (issue s w).tieDraws = s.tieDraws := rfl

/-! ### popEvent -/

@[simp] theorem popEvent_cfg (s : State) : (popEvent s).cfg = s.cfg := rfl
@[simp] theorem popEvent_busy (s : State) : (popEvent s).busy = s.busy := rfl
@[simp] theorem popEvent_treeValid (s : State) : (popEvent s).treeValid = s.treeValid := rfl
@[simp] theorem popEvent_tableValid (s : State) : (popEvent s).tableValid = s.tableValid := rfl
@[simp] theorem popEvent_fatal (s : State) : (popEvent s).fatal = s.fatal := rfl
@[simp] theorem popEvent_err (s : State) : (popEvent s).err = s.err := rfl
@[simp] theorem popEvent_curCmd (s : State) : (popEvent s).curCmd = s.curCmd := rfl
@[simp] theorem popEvent_intEnable (s : State) : (popEvent s).intEnable = s.intEnable := rfl
@[simp] theorem popEvent_intStatus (s : State) : (popEvent s).intStatus = s.intStatus := rfl
@[simp] theorem popEvent_srcAddr (s : State) : (popEvent s).srcAddr = s.srcAddr := rfl
@[simp] theorem popEvent_srcLen (s : State) : (popEvent s).srcLen = s.srcLen := rfl
@[simp] theorem popEvent_dstAddr (s : State) : (popEvent s).dstAddr = s.dstAddr := rfl
@[simp] theorem popEvent_dstCap (s : State) : (popEvent s).dstCap = s.dstCap := rfl
@[simp] theorem popEvent_expectCount (s : State) : (popEvent s).expectCount = s.expectCount := rfl
@[simp] theorem popEvent_resultLen (s : State) : (popEvent s).resultLen = s.resultLen := rfl
@[simp] theorem popEvent_resultBits (s : State) : (popEvent s).resultBits = s.resultBits := rfl
@[simp] theorem popEvent_resultCount (s : State) : (popEvent s).resultCount = s.resultCount := rfl
@[simp] theorem popEvent_symIndex (s : State) : (popEvent s).symIndex = s.symIndex := rfl
@[simp] theorem popEvent_nodeIndex (s : State) : (popEvent s).nodeIndex = s.nodeIndex := rfl
@[simp] theorem popEvent_freq (s : State) : (popEvent s).freq = s.freq := rfl
@[simp] theorem popEvent_codes (s : State) : (popEvent s).codes = s.codes := rfl
@[simp] theorem popEvent_nodes (s : State) : (popEvent s).nodes = s.nodes := rfl
@[simp] theorem popEvent_root (s : State) : (popEvent s).root = s.root := rfl
@[simp] theorem popEvent_nodeCount (s : State) : (popEvent s).nodeCount = s.nodeCount := rfl
@[simp] theorem popEvent_leafCount (s : State) : (popEvent s).leafCount = s.leafCount := rfl
@[simp] theorem popEvent_inMem (s : State) : (popEvent s).inMem = s.inMem := rfl
@[simp] theorem popEvent_outMem (s : State) : (popEvent s).outMem = s.outMem := rfl
@[simp] theorem popEvent_sched (s : State) : (popEvent s).sched = s.sched.tail := rfl
@[simp] theorem popEvent_resp (s : State) : (popEvent s).resp = s.resp := rfl
@[simp] theorem popEvent_epoch (s : State) : (popEvent s).epoch = s.epoch := rfl
@[simp] theorem popEvent_tieDraws (s : State) : (popEvent s).tieDraws = s.tieDraws := rfl

/-! ### assignCodes -/

@[simp] theorem assignCodes_cfg (s : State) : (assignCodes s).cfg = s.cfg := rfl
@[simp] theorem assignCodes_busy (s : State) : (assignCodes s).busy = s.busy := rfl
@[simp] theorem assignCodes_treeValid (s : State) : (assignCodes s).treeValid = false := rfl
@[simp] theorem assignCodes_tableValid (s : State) : (assignCodes s).tableValid = assignOk s := rfl
@[simp] theorem assignCodes_fatal (s : State) : (assignCodes s).fatal = (s.fatal || !assignOk s) := rfl
@[simp] theorem assignCodes_err (s : State) : (assignCodes s).err = s.err := rfl
@[simp] theorem assignCodes_curCmd (s : State) : (assignCodes s).curCmd = s.curCmd := rfl
@[simp] theorem assignCodes_intEnable (s : State) : (assignCodes s).intEnable = s.intEnable := rfl
@[simp] theorem assignCodes_intStatus (s : State) : (assignCodes s).intStatus = s.intStatus := rfl
@[simp] theorem assignCodes_srcAddr (s : State) : (assignCodes s).srcAddr = s.srcAddr := rfl
@[simp] theorem assignCodes_srcLen (s : State) : (assignCodes s).srcLen = s.srcLen := rfl
@[simp] theorem assignCodes_dstAddr (s : State) : (assignCodes s).dstAddr = s.dstAddr := rfl
@[simp] theorem assignCodes_dstCap (s : State) : (assignCodes s).dstCap = s.dstCap := rfl
@[simp] theorem assignCodes_expectCount (s : State) : (assignCodes s).expectCount = s.expectCount := rfl
@[simp] theorem assignCodes_resultLen (s : State) : (assignCodes s).resultLen = s.resultLen := rfl
@[simp] theorem assignCodes_resultBits (s : State) : (assignCodes s).resultBits = s.resultBits := rfl
@[simp] theorem assignCodes_resultCount (s : State) : (assignCodes s).resultCount = s.resultCount := rfl
@[simp] theorem assignCodes_symIndex (s : State) : (assignCodes s).symIndex = s.symIndex := rfl
@[simp] theorem assignCodes_nodeIndex (s : State) : (assignCodes s).nodeIndex = s.nodeIndex := rfl
@[simp] theorem assignCodes_freq (s : State) : (assignCodes s).freq = s.freq := rfl
@[simp] theorem assignCodes_codes (s : State) : (assignCodes s).codes = codesOfTree (nodeAt s) s.root := rfl
@[simp] theorem assignCodes_nodes (s : State) : (assignCodes s).nodes = s.nodes := rfl
@[simp] theorem assignCodes_root (s : State) : (assignCodes s).root = s.root := rfl
@[simp] theorem assignCodes_nodeCount (s : State) : (assignCodes s).nodeCount = s.nodeCount := rfl
@[simp] theorem assignCodes_leafCount (s : State) : (assignCodes s).leafCount = s.leafCount := rfl
@[simp] theorem assignCodes_inMem (s : State) : (assignCodes s).inMem = s.inMem := rfl
@[simp] theorem assignCodes_outMem (s : State) : (assignCodes s).outMem = s.outMem := rfl
@[simp] theorem assignCodes_sched (s : State) : (assignCodes s).sched = s.sched := rfl
@[simp] theorem assignCodes_resp (s : State) : (assignCodes s).resp = s.resp := rfl
@[simp] theorem assignCodes_epoch (s : State) : (assignCodes s).epoch = s.epoch := rfl
@[simp] theorem assignCodes_tieDraws (s : State) : (assignCodes s).tieDraws = s.tieDraws := rfl

/-! ### buildTree -/

@[simp] theorem buildTree_cfg (s : State) : (buildTree s).cfg = s.cfg := rfl
@[simp] theorem buildTree_busy (s : State) : (buildTree s).busy = s.busy := rfl
@[simp] theorem buildTree_treeValid (s : State) : (buildTree s).treeValid = true := rfl
@[simp] theorem buildTree_tableValid (s : State) : (buildTree s).tableValid = s.tableValid := rfl
@[simp] theorem buildTree_fatal (s : State) : (buildTree s).fatal = s.fatal := rfl
@[simp] theorem buildTree_err (s : State) : (buildTree s).err = s.err := rfl
@[simp] theorem buildTree_curCmd (s : State) : (buildTree s).curCmd = s.curCmd := rfl
@[simp] theorem buildTree_intEnable (s : State) : (buildTree s).intEnable = s.intEnable := rfl
@[simp] theorem buildTree_intStatus (s : State) : (buildTree s).intStatus = s.intStatus := rfl
@[simp] theorem buildTree_srcAddr (s : State) : (buildTree s).srcAddr = s.srcAddr := rfl
@[simp] theorem buildTree_srcLen (s : State) : (buildTree s).srcLen = s.srcLen := rfl
@[simp] theorem buildTree_dstAddr (s : State) : (buildTree s).dstAddr = s.dstAddr := rfl
@[simp] theorem buildTree_dstCap (s : State) : (buildTree s).dstCap = s.dstCap := rfl
@[simp] theorem buildTree_expectCount (s : State) : (buildTree s).expectCount = s.expectCount := rfl
@[simp] theorem buildTree_resultLen (s : State) : (buildTree s).resultLen = s.resultLen := rfl
@[simp] theorem buildTree_resultBits (s : State) : (buildTree s).resultBits = s.resultBits := rfl
@[simp] theorem buildTree_resultCount (s : State) : (buildTree s).resultCount = s.resultCount := rfl
@[simp] theorem buildTree_symIndex (s : State) : (buildTree s).symIndex = s.symIndex := rfl
@[simp] theorem buildTree_nodeIndex (s : State) : (buildTree s).nodeIndex = s.nodeIndex := rfl
@[simp] theorem buildTree_freq (s : State) : (buildTree s).freq = s.freq := rfl
@[simp] theorem buildTree_codes (s : State) : (buildTree s).codes = s.codes := rfl
@[simp] theorem buildTree_nodes (s : State) :
    (buildTree s).nodes =
      (huffman s.cfg.tieBreak s.freq s.tieDraws).nodes ++
      s.nodes.drop (huffman s.cfg.tieBreak s.freq s.tieDraws).nodes.length := rfl
@[simp] theorem buildTree_root (s : State) : (buildTree s).root = (huffman s.cfg.tieBreak s.freq s.tieDraws).root := rfl
@[simp] theorem buildTree_nodeCount (s : State) :
    (buildTree s).nodeCount =
      BitVec.ofNat 10 (huffman s.cfg.tieBreak s.freq s.tieDraws).nodes.length := rfl
@[simp] theorem buildTree_leafCount (s : State) : (buildTree s).leafCount = BitVec.ofNat 9 (nsym s.freq) := rfl
@[simp] theorem buildTree_inMem (s : State) : (buildTree s).inMem = s.inMem := rfl
@[simp] theorem buildTree_outMem (s : State) : (buildTree s).outMem = s.outMem := rfl
@[simp] theorem buildTree_sched (s : State) : (buildTree s).sched = s.sched := rfl
@[simp] theorem buildTree_resp (s : State) : (buildTree s).resp = s.resp := rfl
@[simp] theorem buildTree_epoch (s : State) : (buildTree s).epoch = s.epoch := rfl
@[simp] theorem buildTree_tieDraws (s : State) :
    (buildTree s).tieDraws = (huffman s.cfg.tieBreak s.freq s.tieDraws).draws := rfl

/-! ### resetState -/

@[simp] theorem resetState_cfg (s : State) : (resetState s).cfg = s.cfg := rfl
@[simp] theorem resetState_busy (s : State) : (resetState s).busy = State.reset.busy := rfl
@[simp] theorem resetState_treeValid (s : State) : (resetState s).treeValid = State.reset.treeValid := rfl
@[simp] theorem resetState_tableValid (s : State) : (resetState s).tableValid = State.reset.tableValid := rfl
@[simp] theorem resetState_fatal (s : State) : (resetState s).fatal = State.reset.fatal := rfl
@[simp] theorem resetState_err (s : State) : (resetState s).err = State.reset.err := rfl
@[simp] theorem resetState_curCmd (s : State) : (resetState s).curCmd = State.reset.curCmd := rfl
@[simp] theorem resetState_intEnable (s : State) : (resetState s).intEnable = State.reset.intEnable := rfl
@[simp] theorem resetState_intStatus (s : State) : (resetState s).intStatus = State.reset.intStatus := rfl
@[simp] theorem resetState_srcAddr (s : State) : (resetState s).srcAddr = State.reset.srcAddr := rfl
@[simp] theorem resetState_srcLen (s : State) : (resetState s).srcLen = State.reset.srcLen := rfl
@[simp] theorem resetState_dstAddr (s : State) : (resetState s).dstAddr = State.reset.dstAddr := rfl
@[simp] theorem resetState_dstCap (s : State) : (resetState s).dstCap = State.reset.dstCap := rfl
@[simp] theorem resetState_expectCount (s : State) : (resetState s).expectCount = State.reset.expectCount := rfl
@[simp] theorem resetState_resultLen (s : State) : (resetState s).resultLen = State.reset.resultLen := rfl
@[simp] theorem resetState_resultBits (s : State) : (resetState s).resultBits = State.reset.resultBits := rfl
@[simp] theorem resetState_resultCount (s : State) : (resetState s).resultCount = State.reset.resultCount := rfl
@[simp] theorem resetState_symIndex (s : State) : (resetState s).symIndex = State.reset.symIndex := rfl
@[simp] theorem resetState_nodeIndex (s : State) : (resetState s).nodeIndex = State.reset.nodeIndex := rfl
@[simp] theorem resetState_freq (s : State) : (resetState s).freq = State.reset.freq := rfl
@[simp] theorem resetState_codes (s : State) : (resetState s).codes = State.reset.codes := rfl
@[simp] theorem resetState_nodes (s : State) : (resetState s).nodes = State.reset.nodes := rfl
@[simp] theorem resetState_root (s : State) : (resetState s).root = State.reset.root := rfl
@[simp] theorem resetState_nodeCount (s : State) : (resetState s).nodeCount = State.reset.nodeCount := rfl
@[simp] theorem resetState_leafCount (s : State) : (resetState s).leafCount = State.reset.leafCount := rfl
@[simp] theorem resetState_inMem (s : State) : (resetState s).inMem = State.reset.inMem := rfl
@[simp] theorem resetState_outMem (s : State) : (resetState s).outMem = State.reset.outMem := rfl
@[simp] theorem resetState_sched (s : State) : (resetState s).sched = s.sched := rfl
@[simp] theorem resetState_resp (s : State) : (resetState s).resp = State.reset.resp := rfl
@[simp] theorem resetState_epoch (s : State) : (resetState s).epoch = s.epoch + 1 := rfl
@[simp] theorem resetState_tieDraws (s : State) : (resetState s).tieDraws = s.tieDraws := rfl

end Sys2Proof.Machine
end

