-- ==== Sys2Proof/Laws/HostPort.lean ====
section
/-! SUPPORT. Laws/HostPort.lean: what a host access names, and all that a host step can do (20_memory.md R80-R92). -/

namespace Sys2Proof.Machine

/-- Every register is found at its own offset. -/
@[simp] theorem regAt_offset (r : Reg) : regAt r.offset = some r := by
  cases r <;> first | rfl | (rename_i k; fin_cases k <;> rfl)

theorem regAt_some {o : Word} {r : Reg} (h : regAt o = some r) : o = r.offset := by
  have := List.find?_some h
  exact (of_decide_eq_true this).symm

/-- Register offsets are the word-aligned offsets below 0x78 (20_memory.md R80). -/
theorem offset_lt (r : Reg) : r.offset.toNat < 0x78 ∧ r.offset.toNat % 4 = 0 := by
  cases r <;> first | decide | (rename_i k; fin_cases k <;> decide)

theorem regAt_none {o : Word} : regAt o = none ↔ ¬ (o.toNat < 0x78 ∧ o.toNat % 4 = 0) := by
  constructor
  · intro h hc
    obtain ⟨h1, h2⟩ := hc
    obtain ⟨q, hq⟩ : ∃ q, o.toNat = 4 * q := ⟨o.toNat / 4, by omega⟩
    have hq30 : q < 30 := by omega
    have ho : o = BitVec.ofNat 32 (4 * q) := by rw [← hq]; simp
    subst ho
    clear h1 h2 hq
    interval_cases q <;> revert h <;> decide
  · intro h
    cases hr : regAt o with
    | none => rfl
    | some r => exact absurd (regAt_some hr ▸ offset_lt r) h

theorem bytes_pos (n : AccessSize) : 0 < n.bytes := by cases n <;> decide

/-- A buffer window begins at a multiple of every access size, so alignment may be read off either offset. -/
theorem align_base {n : AccessSize} {x k : Nat} (h : 4 * k ≤ x) : (x - 4 * k) % n.bytes = 0 ↔ x % n.bytes = 0 := by
  cases n <;> simp only [AccessSize.bytes] <;> omega

theorem bufferTarget_none (c : Config) (b : BufferId) (a n : Nat) :
    bufferTarget c b a n = none ↔ ¬ (a % n = 0 ∧ a + n ≤ capOf c b) := by
  unfold bufferTarget
  split
  · rename_i h; exact ⟨fun e => (by cases e), fun e => absurd h e⟩
  · rename_i h; exact ⟨fun _ => h, fun _ => rfl⟩

/-- An access resolves to nothing exactly when it is not well placed (20_memory.md R80, R86, R88). -/
theorem resolve_none (c : Config) (o : Word) (n : AccessSize) :
    resolve c o n = none ↔ ¬ wellPlaced c o.toNat n.bytes := by
  have hb := bytes_pos n
  have hw : n.bytes = 4 ↔ n = .word := by cases n <;> decide
  unfold resolve wellPlaced
  split
  · rename_i h1
    split
    · rename_i h2
      rw [Option.map_eq_none_iff, regAt_none, hw]
      constructor
      · rintro h (h' | h' | h') <;> [exact h ⟨h'.1, h'.2.2⟩; omega; omega]
      · intro h h'; exact h (.inl ⟨h'.1, h2, h'.2⟩)
    · rename_i h2
      simp only [true_iff]
      rintro (h' | h' | h') <;> [exact h2 (hw.1 h'.2.1); omega; omega]
  · split
    · simp only [true_iff]; omega
    · split
      · rw [bufferTarget_none]
        simp only [capOf]
        have := align_base (n := n) (x := o.toNat) (k := 0x400000) (by omega)
        norm_num at this
        rw [this]
        omega
      · split
        · rw [bufferTarget_none]
          simp only [capOf]
          have := align_base (n := n) (x := o.toNat) (k := 0x800000) (by omega)
          norm_num at this
          rw [this]
          omega
        · simp only [true_iff]; omega

/-- A whole-word access at a register's offset names that register (10_state.md R40). -/
@[simp] theorem resolve_offset (c : Config) (r : Reg) : resolve c r.offset .word = some (.reg r) := by
  have := (offset_lt r).1
  unfold resolve
  rw [if_pos (by omega), if_pos rfl, regAt_offset]
  rfl

theorem resolve_reg {c : Config} {o : Word} {n : AccessSize} {r : Reg} (h : resolve c o n = some (.reg r)) :
    o = r.offset ∧ n = .word := by
  unfold resolve bufferTarget at h
  split at h
  · split at h
    · rename_i hn
      simp only [Option.map_eq_some_iff, Target.reg.injEq] at h
      obtain ⟨r', hr, rfl⟩ := h
      exact ⟨regAt_some hr, hn⟩
    · cases h
  · split at h
    · cases h
    · split at h
      · split at h <;> cases h
      · split at h
        · split at h <;> cases h
        · cases h

/-- A buffer access lies inside the buffer's capacity and is aligned (20_memory.md R86). -/
theorem resolve_buffer_inv {c : Config} {o : Word} {n : AccessSize} {b : BufferId} {a : Nat}
    (h : resolve c o n = some (.buffer b a)) : a % n.bytes = 0 ∧ a + n.bytes ≤ capOf c b := by
  unfold resolve bufferTarget at h
  split at h
  · split at h
    · simp at h
    · cases h
  · split at h
    · cases h
    · split at h
      · split at h
        · rename_i hp; cases h; exact hp
        · cases h
      · split at h
        · split at h
          · rename_i hp; cases h; exact hp
          · cases h
        · cases h

theorem bufferOffset_toNat (b : BufferId) {a : Nat} (h : a < 2 ^ 24) :
    (bufferOffset b a).toNat = (match b with | .input => 0x01000000 | .output => 0x02000000) + a := by
  cases b <;> simp only [bufferOffset, BitVec.toNat_ofNat] <;> omega

/-- An aligned access inside the capacity names its buffer and offset (20_memory.md R80, R86). -/
theorem resolve_bufferOffset {c : Config} {b : BufferId} {a : Nat} {n : AccessSize} (hc : c.wf = true)
    (ha : a % n.bytes = 0) (hl : a + n.bytes ≤ capOf c b) :
    resolve c (bufferOffset b a) n = some (.buffer b a) := by
  have hb := bytes_pos n
  simp only [Config.wf, Bool.and_eq_true, decide_eq_true_eq] at hc
  have h24 : a < 2 ^ 24 := by cases b <;> simp only [capOf] at hl <;> omega
  have ho := bufferOffset_toNat b h24
  cases b
  · simp only at ho
    unfold resolve bufferTarget
    rw [if_neg (by omega), if_neg (by omega), if_pos (by omega), ho, Nat.add_sub_cancel_left, if_pos ⟨ha, hl⟩]
  · simp only at ho
    unfold resolve bufferTarget
    rw [if_neg (by omega), if_neg (by omega), if_neg (by omega), if_pos (by omega), ho, Nat.add_sub_cancel_left,
      if_pos ⟨ha, hl⟩]

/-- The value of a little-endian read (20_memory.md R82). -/
theorem leValue_eq_sum (s : State) (b : BufferId) (a n : Nat) :
    leValue s b a n = ∑ i ∈ Finset.range n, (byteAt s b (a + i)).toNat * 2 ^ (8 * i) := by
  induction n with
  | zero => rfl
  | succ n ih => rw [leValue, ih, Finset.sum_range_succ]

theorem leValue_lt (s : State) (b : BufferId) (a n : Nat) : leValue s b a n < 2 ^ (8 * n) := by
  induction n with
  | zero => simp [leValue]
  | succ n ih =>
    have hb : (byteAt s b (a + n)).toNat ≤ 255 := by have := (byteAt s b (a + n)).isLt; omega
    have : (byteAt s b (a + n)).toNat * 2 ^ (8 * n) ≤ 255 * 2 ^ (8 * n) := Nat.mul_le_mul_right _ hb
    have e : 2 ^ (8 * (n + 1)) = 256 * 2 ^ (8 * n) := by rw [Nat.mul_add, Nat.pow_add]; ring
    rw [leValue, e]
    omega

/-- All that a host read can do: set the response, and ACCESS_ERR when it is rejected. -/
theorem hostRead_cases (s : State) (o : Word) (n : AccessSize) :
    (∃ t, resolve s.cfg o n = some t ∧ (s.busy = true → readableWhileBusy t = true) ∧
      hostRead s o n = { s with resp := some (targetRead s n t) }) ∨
    hostRead s o n = { s with intStatus := pend s.intStatus .accessErr, resp := some 0 } := by
  unfold hostRead
  split
  · right; rfl
  · rename_i t ht
    split
    · right; rfl
    · rename_i hb
      left
      refine ⟨t, ht, fun h => ?_, rfl⟩
      simpa [h] using hb

/-- All that a host write can do: a register's effect, a buffer store, an overrun or a rejection. -/
theorem hostWrite_cases (s : State) (o : Word) (n : AccessSize) (d : Word) :
    (∃ r, resolve s.cfg o n = some (.reg r) ∧
      (s.busy = true → r = .intEnable ∨ r = .intStatus) ∧
      hostWrite s o n d = { regWrite s r d with resp := none }) ∨
    (∃ b a, resolve s.cfg o n = some (.buffer b a) ∧ s.busy = false ∧
      hostWrite s o n d = { s.withBuffer b (storeLE (bufferOf s b) a d n.bytes) with resp := none }) ∨
    (s.busy = true ∧ hostWrite s o n d = { s with intStatus := pend s.intStatus .cmdOverrun, resp := none }) ∨
    hostWrite s o n d = { s with intStatus := pend s.intStatus .accessErr, resp := none } := by
  unfold hostWrite
  split
  · right; right; right; rfl
  · rename_i t ht
    split
    · rename_i hb
      simp only [Bool.and_eq_true, decide_eq_true_eq] at hb
      right; right; left
      exact ⟨hb.1, rfl⟩
    · rename_i h1
      split
      · right; right; right; rfl
      · rename_i h2
        cases t with
        | reg r =>
          left
          refine ⟨r, ht, fun h => ?_, rfl⟩
          rw [h] at h2
          cases r <;> simp_all [writableWhileBusy]
        | buffer b a =>
          right; left
          have hbusy : s.busy = false := by
            cases hb : s.busy with
            | false => rfl
            | true => simp [hb, writableWhileBusy] at h2
          refine ⟨b, a, ht, hbusy, ?_⟩
          cases b <;> rfl

end Sys2Proof.Machine
end

