-- ==== Sys2Proof/Laws/PerInstr.lean ====
section
/-! SUPPORT. Laws/PerInstr.lean: a fact of every command as syntax, one lemma per constructor: its word is `zext_32(OPC)` with
OPC at most 0x09 and the reserved field 0 (30_encoding.md R110, R112). -/

/-- The command is well-formed, its word's reserved field is 0, and its opcode field is the command's opcode, at most 9. -/
def Sys2Proof.Laws.EncodingForm.Statement (i : Sys2Proof.Instr) : Prop :=
  i.wf = true ∧ Sys2Proof.reservedField (Sys2Proof.encode i) = 0 ∧
    Sys2Proof.opcodeField (Sys2Proof.encode i) = i.opcode ∧ i.opcode.toNat ≤ 9

theorem Sys2Proof.Laws.EncodingForm.nop : Sys2Proof.Laws.EncodingForm.Statement .nop := by
  unfold Sys2Proof.Laws.EncodingForm.Statement; decide

theorem Sys2Proof.Laws.EncodingForm.freqClear : Sys2Proof.Laws.EncodingForm.Statement .freqClear := by
  unfold Sys2Proof.Laws.EncodingForm.Statement; decide

theorem Sys2Proof.Laws.EncodingForm.freqCount : Sys2Proof.Laws.EncodingForm.Statement .freqCount := by
  unfold Sys2Proof.Laws.EncodingForm.Statement; decide

theorem Sys2Proof.Laws.EncodingForm.treeBuild : Sys2Proof.Laws.EncodingForm.Statement .treeBuild := by
  unfold Sys2Proof.Laws.EncodingForm.Statement; decide

theorem Sys2Proof.Laws.EncodingForm.codeAssign : Sys2Proof.Laws.EncodingForm.Statement .codeAssign := by
  unfold Sys2Proof.Laws.EncodingForm.Statement; decide

theorem Sys2Proof.Laws.EncodingForm.buildTable : Sys2Proof.Laws.EncodingForm.Statement .buildTable := by
  unfold Sys2Proof.Laws.EncodingForm.Statement; decide

theorem Sys2Proof.Laws.EncodingForm.compress : Sys2Proof.Laws.EncodingForm.Statement .compress := by
  unfold Sys2Proof.Laws.EncodingForm.Statement; decide

theorem Sys2Proof.Laws.EncodingForm.decompress : Sys2Proof.Laws.EncodingForm.Statement .decompress := by
  unfold Sys2Proof.Laws.EncodingForm.Statement; decide

theorem Sys2Proof.Laws.EncodingForm.codeClear : Sys2Proof.Laws.EncodingForm.Statement .codeClear := by
  unfold Sys2Proof.Laws.EncodingForm.Statement; decide

theorem Sys2Proof.Laws.EncodingForm.tableLoad : Sys2Proof.Laws.EncodingForm.Statement .tableLoad := by
  unfold Sys2Proof.Laws.EncodingForm.Statement; decide
end

