-- ==== Sys2Proof/Laws/Step.lean ====
section
/-! SUPPORT. Laws/Step.lean: all that a step can do, said once (20_memory.md R94): a host access, an idle turn of the block,
a completion, or a reset. -/

namespace Sys2Proof.Machine

/-- Every command, legal or not, is one completion over its own body. -/
theorem runCurrent_eq (s : State) : ∃ body : State → State × Report, runCurrent s = command s body := by
  unfold runCurrent
  split
  · rename_i i _
    cases i
    · exact ⟨nopBody, rfl⟩
    · exact ⟨freqClearBody, rfl⟩
    · exact ⟨freqCountBody, rfl⟩
    · exact ⟨treeBuildBody, rfl⟩
    · exact ⟨codeAssignBody, rfl⟩
    · exact ⟨buildTableBody, rfl⟩
    · exact ⟨compressBody, rfl⟩
    · exact ⟨decompressBody, rfl⟩
    · exact ⟨codeClearBody, rfl⟩
    · exact ⟨tableLoadBody, rfl⟩
  · exact ⟨illegalBody, rfl⟩

/-- Inversion of a step: which of the three agents moved, and what it did. -/
theorem step_cases {s t : State} (h : step s = .next t) :
    (∃ a rest, s.sched = .host a :: rest ∧ t = hostStep { s with sched := rest } a) ∨
    (∃ rest, s.sched = .reset :: rest ∧ t = resetState { s with sched := rest }) ∨
    (s.blockNext ∧ s.busy = false ∧ t = { s with sched := s.sched.tail }) ∨
    (s.blockNext ∧ s.busy = true ∧ runCurrent { s with sched := s.sched.tail } = .next t) := by
  unfold step at h
  cases hs : s.sched with
  | nil =>
    have hn : nextEvent s = .block := by simp [nextEvent, hs]
    rw [hn] at h
    simp only [runEvent, blockTurn] at h
    split at h
    · right; right; right
      rename_i hb
      exact ⟨.inl hs, hb, by simpa [popEvent, hs] using h⟩
    · right; right; left
      rename_i hb
      refine ⟨.inl hs, by simpa using hb, ?_⟩
      have := Host.Outcome.next.inj h
      simpa [popEvent, hs] using this.symm
  | cons e rest =>
    have hn : nextEvent s = e := by simp [nextEvent, hs]
    have hp : popEvent s = { s with sched := rest } := by simp [popEvent, hs]
    rw [hn, hp] at h
    cases e with
    | host a => left; exact ⟨a, rest, rfl, (Host.Outcome.next.inj h).symm⟩
    | reset => right; left; exact ⟨rest, rfl, (Host.Outcome.next.inj h).symm⟩
    | block =>
      simp only [runEvent, blockTurn] at h
      split at h
      · rename_i hb
        right; right; right
        exact ⟨.inr (by simp [hs]), hb, h⟩
      · rename_i hb
        right; right; left
        exact ⟨.inr (by simp [hs]), by simpa using hb, (Host.Outcome.next.inj h).symm⟩

end Sys2Proof.Machine
end

