-- ==== Sys2Proof/Laws/Streams.lean ====
section
/-! SUPPORT. Laws/Streams.lean: what one run of the packer and of the unpacker can do to OUT_MEM and to its own counters
(44_bitstream_packer.md R220, 45_bitstream_unpacker.md R240): only bytes at the destination are written, in order. -/

namespace Sys2Proof.Machine

/-- OUT_MEM after `n` bytes were written at `dst` onwards: canonical, inside the capacity if those bytes are, and every
other byte kept. -/
structure WritesOnly (m m' : Memory) (dst n : Nat) : Prop where
  wf : m.wf → m'.wf
  below : ∀ cap, Memory.below cap m → dst + n ≤ cap → Memory.below cap m'
  kept : ∀ a, ¬ (dst ≤ a ∧ a < dst + n) → memGet m' a = memGet m a

theorem WritesOnly.refl (m : Memory) (dst : Nat) : WritesOnly m m dst 0 :=
  ⟨id, fun _ h _ => h, fun _ _ => rfl⟩

/-- One more byte, right after the last. -/
theorem WritesOnly.memSet {m m' : Memory} {dst n : Nat} (h : WritesOnly m m' dst n) (b : Byte) :
    WritesOnly m (memSet m' (dst + n) b) dst (n + 1) where
  wf hm := memSet_wf (h.wf hm) _ _
  below cap hm hc := memSet_below (h.below cap hm (by omega)) (by omega) _
  kept a ha := by rw [memGet_memSet_other _ _ (by omega), h.kept a (by omega)]

/-- What is written after writing is written. -/
theorem WritesOnly.weaken {m m' : Memory} {dst n k : Nat} (h : WritesOnly m m' dst n) (hk : n ≤ k) :
    WritesOnly m m' dst k where
  wf := h.wf
  below cap hm hc := h.below cap hm (by omega)
  kept a ha := h.kept a (by omega)

/-! ### The packer -/

/-- The packer after some bits: `cnt < 8` bits are buffered, all others are in whole bytes at `dst .. dst+j-1`. -/
structure PackerAt (m : Memory) (dst bits : Nat) (p : Packer) : Prop where
  cntLt : p.cnt < 8
  total : 8 * p.j + p.cnt = bits
  out : WritesOnly m p.out dst p.j

theorem packBit_at {m : Memory} {dst n : Nat} {p : Packer} (h : PackerAt m dst n p) (bit : Bool) :
    PackerAt m dst (n + 1) (packBit dst p bit) := by
  obtain ⟨h1, h2, h3⟩ := h
  unfold packBit
  split
  · exact ⟨by simp, by simp only; omega, h3.memSet _⟩
  · exact ⟨by simp only; omega, by simp only; omega, h3⟩

theorem foldl_packBit_at {m : Memory} {dst : Nat} (bits : List Bool) {n : Nat} {p : Packer} (h : PackerAt m dst n p) :
    PackerAt m dst (n + bits.length) (bits.foldl (packBit dst) p) := by
  induction bits generalizing n p with
  | nil => exact h
  | cons b bs ih =>
    have := ih (packBit_at h b)
    rwa [Nat.add_right_comm] at this

/-- All that packing can do: it writes `(bits + 7) div 8` bytes at the destination and none elsewhere. -/
theorem packAll_writes (t : Table Code) (dst : Nat) (input : List Byte) (m : Memory) :
    (packAll t dst input m).j = bytesNeeded (totalBits t input) ∧
      WritesOnly m (packAll t dst input m).out dst (packAll t dst input m).j := by
  have h := foldl_packBit_at (encodedBits t input)
    (p := { acc := 0, cnt := 0, j := 0, out := m }) (n := 0) ⟨by simp, rfl, WritesOnly.refl m dst⟩
  rw [length_encodedBits, Nat.zero_add] at h
  obtain ⟨h1, h2, h3⟩ := h
  simp only [packAll, packFlush, bytesNeeded]
  split
  · exact ⟨by simp only; omega, h3.memSet _⟩
  · exact ⟨by omega, h3⟩

/-! ### The unpacker -/

/-- The unpacker after `bits` bits: they are counted, and only the emitted symbols are in OUT_MEM. -/
structure UnpackerAt (m : Memory) (dst : Nat) (u : Unpacker) : Prop where
  out : WritesOnly m u.out dst u.count

theorem emitSymbol_at {m : Memory} {dst : Nat} {u : Unpacker} (h : UnpackerAt m dst u) (bit : Bool) (sym : Symbol) :
    UnpackerAt m dst (emitSymbol dst (pushBit u bit) sym) := ⟨h.out.memSet _⟩

theorem pushBit_at {m : Memory} {dst : Nat} {u : Unpacker} (h : UnpackerAt m dst u) (bit : Bool) :
    UnpackerAt m dst (pushBit u bit) := ⟨h.out⟩

/-- All that unpacking can do, whatever the table: it writes only the symbols it counts, reads at most the bits it is
given, and it ends with `true` exactly at the expected count and with `false` below it. -/
theorem unpackBits_spec (t : Table Code) (dst expect : Nat) (m : Memory) (bits : List Bool) {u : Unpacker}
    (h : UnpackerAt m dst u) (hc : u.count < expect) :
    UnpackerAt m dst (unpackBits t dst expect bits u).1 ∧
      (unpackBits t dst expect bits u).1.used ≤ u.used + bits.length ∧
      ((unpackBits t dst expect bits u).2 = true → (unpackBits t dst expect bits u).1.count = expect) ∧
      ((unpackBits t dst expect bits u).2 = false → (unpackBits t dst expect bits u).1.count < expect) := by
  induction bits generalizing u with
  | nil => exact ⟨h, by simp [unpackBits], by simp [unpackBits], fun _ => by simpa [unpackBits] using hc⟩
  | cons b bs ih =>
    simp only [unpackBits, List.length_cons]
    split
    · rename_i sym _
      split
      · rename_i he
        exact ⟨emitSymbol_at h b sym, by simp only [emitSymbol, pushBit]; omega, fun _ => he, by simp⟩
      · rename_i he
        have hc' : (emitSymbol dst (pushBit u b) sym).count < expect := by
          simp only [emitSymbol, pushBit] at he ⊢; omega
        obtain ⟨i1, i2, i3, i4⟩ := ih (emitSymbol_at h b sym) hc'
        refine ⟨i1, ?_, i3, i4⟩
        simp only [emitSymbol, pushBit] at i2 ⊢
        omega
    · split
      · exact ⟨pushBit_at h b, by simp only [pushBit]; omega, by simp, fun _ => hc⟩
      · obtain ⟨i1, i2, i3, i4⟩ := ih (pushBit_at h b) hc
        refine ⟨i1, ?_, i3, i4⟩
        simp only [pushBit] at i2 ⊢
        omega

/-- A step over a bit with no match and room for more bits only extends the candidate (45_bitstream_unpacker.md R240). -/
theorem unpackBits_cons_none {t : Table Code} {dst expect : Nat} {b : Bool} {bs : List Bool} {u : Unpacker}
    (h : codeMatch t (u.cl + 1) (2 * u.cv + b.toNat) = none) (hl : u.cl + 1 ≠ 255) :
    unpackBits t dst expect (b :: bs) u = unpackBits t dst expect bs (pushBit u b) := by
  simp [unpackBits, pushBit, h, hl]

/-- A step over a bit that completes a code emits its symbol (45_bitstream_unpacker.md R240). -/
theorem unpackBits_cons_some {t : Table Code} {dst expect : Nat} {b : Bool} {bs : List Bool} {u : Unpacker}
    {sym : Symbol} (h : codeMatch t (u.cl + 1) (2 * u.cv + b.toNat) = some sym) :
    unpackBits t dst expect (b :: bs) u =
      if u.count + 1 = expect then (emitSymbol dst (pushBit u b) sym, true)
      else unpackBits t dst expect bs (emitSymbol dst (pushBit u b) sym) := by
  simp only [unpackBits, pushBit, emitSymbol, h]
  congr

end Sys2Proof.Machine
end

