-- ==== Sys2Proof/Laws/Tree.lean ====
section
/-! SUPPORT. Laws/Tree.lean: what an extraction from the priority queue can do (42_tree_builder.md R170, R172, R178). -/

namespace Sys2Proof.Machine

/-- The lexicographic order of keys, in exact terms (42_tree_builder.md R172). -/
theorem keyLt_iff (a b : QEntry) :
    keyLt a b = true ↔ a.weight < b.weight ∨ (a.weight = b.weight ∧ a.node < b.node) := by
  simp [keyLt]

theorem keyLt_trans {a b c : QEntry} (h1 : keyLt a b = true) (h2 : keyLt b c = true) : keyLt a c = true := by
  simp only [keyLt_iff, BitVec.lt_def, ← BitVec.toNat_inj] at *
  omega

/-- `argmin_key(Q)` is in the queue, and no element has a smaller key (42_tree_builder.md R172). -/
theorem argminKey_some {q : List QEntry} {m : QEntry} (h : argminKey q = some m) :
    m ∈ q ∧ ∀ e ∈ q, keyLt e m = false := by
  induction q generalizing m with
  | nil => cases h
  | cons e es ih =>
    have irr : ∀ x : QEntry, keyLt x x = false := fun x => by simp [keyLt]
    cases hes : argminKey es with
    | none =>
      have hnil : es = [] := by
        cases es with
        | nil => rfl
        | cons y ys =>
          simp only [argminKey] at hes
          split at hes
          · cases hes
          · split at hes <;> cases hes
      simp only [argminKey, hes] at h
      cases h
      subst hnil
      exact ⟨List.mem_cons_self, fun x hx => by simp at hx; subst hx; exact irr _⟩
    | some k =>
      obtain ⟨hk, hmin⟩ := ih hes
      simp only [argminKey, hes] at h
      split at h
      · rename_i hlt
        cases h
        refine ⟨List.mem_cons_self, fun x hx => ?_⟩
        rcases List.mem_cons.1 hx with rfl | hx
        · exact irr _
        · cases hc : keyLt x e with
          | false => rfl
          | true =>
            have := hmin x hx
            rw [keyLt_trans hc hlt] at this
            cases this
      · rename_i hlt
        cases h
        refine ⟨List.mem_cons_of_mem _ hk, fun x hx => ?_⟩
        rcases List.mem_cons.1 hx with rfl | hx
        · simpa using hlt
        · exact hmin x hx

theorem argminKey_isSome {q : List QEntry} (h : q ≠ []) : ∃ m, argminKey q = some m := by
  cases q with
  | nil => exact absurd rfl h
  | cons e es =>
    simp only [argminKey]
    split
    · exact ⟨_, rfl⟩
    · split <;> exact ⟨_, rfl⟩

/-- Whatever the tie-break, the element taken is in the queue and of least weight (42_tree_builder.md R172, R178). -/
theorem choose_some {tb : TieBreak} {d : Nat} {q : List QEntry} {e : QEntry} (h : choose tb d q = some e) :
    e ∈ q ∧ ∀ x ∈ q, e.weight ≤ x.weight := by
  have least : ∀ m, argminKey q = some m → m ∈ q ∧ ∀ x ∈ q, m.weight ≤ x.weight := by
    intro m hm
    obtain ⟨h1, h2⟩ := argminKey_some hm
    refine ⟨h1, fun x hx => ?_⟩
    have := h2 x hx
    simp only [keyLt, Bool.or_eq_false_iff, decide_eq_false_iff_not] at this
    exact BitVec.not_lt.1 this.1
  cases tb with
  | lowestKey => exact least e h
  | anyMin =>
    simp only [choose, Option.map_eq_some_iff] at h
    obtain ⟨m, hm, rfl⟩ := h
    obtain ⟨h1, h2⟩ := least m hm
    have hmem : m ∈ q.filter fun e => decide (e.weight = m.weight) := by simp [h1]
    have hlen := List.length_pos_of_mem hmem
    rw [List.getD_eq_getElem _ _ (Nat.mod_lt _ hlen)]
    have hm' := List.getElem_mem (l := q.filter fun e => decide (e.weight = m.weight))
      (Nat.mod_lt (Config.tieDraw d) hlen)
    simp only [List.mem_filter, decide_eq_true_eq] at hm'
    exact ⟨hm'.1, fun x hx => by rw [hm'.2]; exact h2 x hx⟩

theorem choose_isSome (tb : TieBreak) (d : Nat) {q : List QEntry} (h : q ≠ []) : ∃ e, choose tb d q = some e := by
  obtain ⟨m, hm⟩ := argminKey_isSome h
  cases tb with
  | lowestKey => exact ⟨m, hm⟩
  | anyMin => simp [choose, hm]

/-- All that an extraction can do: it takes an element of least weight and leaves the others. -/
theorem extractMin_some {tb : TieBreak} {d : Nat} {q r : List QEntry} {e : QEntry}
    (h : extractMin tb d q = some (e, r)) : q.Perm (e :: r) ∧ ∀ x ∈ q, e.weight ≤ x.weight := by
  simp only [extractMin, Option.map_eq_some_iff, Prod.mk.injEq] at h
  obtain ⟨m, hm, rfl, rfl⟩ := h
  obtain ⟨h1, h2⟩ := choose_some hm
  exact ⟨List.perm_cons_erase h1, h2⟩

theorem extractMin_isSome (tb : TieBreak) (d : Nat) {q : List QEntry} (h : q ≠ []) :
    ∃ e r, extractMin tb d q = some (e, r) := by
  obtain ⟨e, he⟩ := choose_isSome tb d h
  exact ⟨e, q.erase e, by simp [extractMin, he]⟩

/-- The number of leaves is NSYM (42_tree_builder.md R171). -/
theorem length_leaves (t : Table Word) : (leaves t).length = nsym t := by
  simp [leaves, nsym, present]

@[simp] theorem length_initialQueue (ls : List Node) : (initialQueue ls).length = ls.length := by
  simp [initialQueue]

/-- A merge, from its two extractions: nothing else changes the builder (42_tree_builder.md R170). -/
theorem mergeStep_eq {tb : TieBreak} {t : TreeBuilder} {a b : QEntry} {q r : List QEntry}
    (ha : extractMin tb t.draws t.queue = some (a, q)) (hb : extractMin tb (t.draws + 1) q = some (b, r)) :
    mergeStep tb t =
      { nodes := t.nodes ++ [.internal a.node b.node (a.weight + b.weight)]
        queue := r ++ [{ weight := a.weight + b.weight, node := BitVec.ofNat 9 t.nodes.length }]
        draws := drawsAfter tb t.draws } := by
  simp [mergeStep, ha, hb]

/-- With two elements or more both extractions happen, and the queue is those two and the rest. -/
theorem extract_two (tb : TieBreak) (d : Nat) {q : List QEntry} (h : 2 ≤ q.length) :
    ∃ a b r1 r2, extractMin tb d q = some (a, r1) ∧ extractMin tb (d + 1) r1 = some (b, r2) ∧
      q.Perm (a :: b :: r2) := by
  obtain ⟨a, r1, h1⟩ := extractMin_isSome tb d (q := q) (by rintro rfl; simp at h)
  have p1 := (extractMin_some h1).1
  obtain ⟨b, r2, h2⟩ := extractMin_isSome tb (d + 1) (q := r1) (by
    rintro rfl
    have := p1.length_eq
    simp at this
    omega)
  exact ⟨a, b, r1, r2, h1, h2, p1.trans ((extractMin_some h2).1.cons a)⟩

/-- A merge takes two elements out of the queue, puts one in, and adds one node. -/
theorem mergeStep_lengths {tb : TieBreak} {t : TreeBuilder} (h : 2 ≤ t.queue.length) :
    (mergeStep tb t).nodes.length = t.nodes.length + 1 ∧ (mergeStep tb t).queue.length + 1 = t.queue.length := by
  obtain ⟨a, b, r1, r2, h1, h2, hp⟩ := extract_two tb t.draws h
  have hl := hp.length_eq
  simp only [List.length_cons] at hl
  rw [mergeStep_eq h1 h2]
  refine ⟨by simp, ?_⟩
  simp only [List.length_append, List.length_cons, List.length_nil, hl]

/-- An invariant that holds before the first merge and that every merge of two or more elements keeps holds of the
finished builder (42_tree_builder.md R170). -/
theorem mergeAll_induct {tb : TieBreak} {P : TreeBuilder → Prop}
    (hstep : ∀ t, 2 ≤ t.queue.length → P t → P (mergeStep tb t)) (fuel : Nat) {t : TreeBuilder} (h : P t) :
    P (mergeAll tb fuel t) := by
  induction fuel generalizing t with
  | zero => exact h
  | succ n ih =>
    simp only [mergeAll]
    split
    · rename_i h2; exact ih (hstep t h2 h)
    · exact h

/-- With fuel enough the loop ends with at most one element: it ends because its condition fails. -/
theorem mergeAll_queue {tb : TieBreak} (fuel : Nat) {t : TreeBuilder} (h : t.queue.length ≤ fuel + 1) :
    (mergeAll tb fuel t).queue.length ≤ 1 := by
  induction fuel generalizing t with
  | zero => simpa [mergeAll] using h
  | succ n ih =>
    simp only [mergeAll]
    split
    · rename_i h2
      have := (mergeStep_lengths (tb := tb) h2).2
      exact ih (by omega)
    · omega

/-- Every merge trades one element of the queue for one node, and a queue that is not empty stays so. -/
theorem mergeAll_lengths {tb : TieBreak} (fuel : Nat) (t : TreeBuilder) (h : 1 ≤ t.queue.length) :
    (mergeAll tb fuel t).nodes.length + (mergeAll tb fuel t).queue.length = t.nodes.length + t.queue.length ∧
      1 ≤ (mergeAll tb fuel t).queue.length := by
  refine mergeAll_induct (P := fun u => u.nodes.length + u.queue.length = t.nodes.length + t.queue.length ∧
    1 ≤ u.queue.length) (fun u h2 hu => ?_) fuel ⟨rfl, h⟩
  obtain ⟨l1, l2⟩ := mergeStep_lengths (tb := tb) h2
  omega

/-- Every merge keeps the nodes already built. -/
theorem mergeAll_nodes {tb : TieBreak} (fuel : Nat) (t : TreeBuilder) :
    ∃ more, (mergeAll tb fuel t).nodes = t.nodes ++ more := by
  refine mergeAll_induct (P := fun u => ∃ more, u.nodes = t.nodes ++ more) (fun u h2 hu => ?_) fuel ⟨[], by simp⟩
  obtain ⟨more, hm⟩ := hu
  obtain ⟨a, b, r1, r2, h1, h2', _⟩ := extract_two tb u.draws h2
  exact ⟨more ++ [.internal a.node b.node (a.weight + b.weight)], by rw [mergeStep_eq h1 h2']; simp [hm]⟩

end Sys2Proof.Machine
end

