-- ==== Sys2Proof/Tests/Slice0.lean ====
section
/-! SUPPORT. Tests/Slice0.lean: the well-formedness smoke tests, decoding of written-out words, small tests whose expected
values are those of 95_test_vectors.md (the vector is named in each docstring), and one witness for the hypotheses of every
obligation that has some. -/

set_option Elab.async false

namespace Sys2Proof.Tests

open Sys2Proof Sys2Proof.Machine

/-! ### Helpers -/

/-- The state a step or a command goes on in. -/
def after : Host.Outcome State Fault Refusal → State
  | .next t => t
  | .fault _ => State.reset
  | .refused _ => State.reset

/-- The bytes of a text placed from offset `a` of a buffer. -/
def placed (a : Nat) (l : List Byte) : Memory := l.zipIdx.map fun p => (a + p.2, p.1)

/-- Reset, with `l` written at IN[0..] and SRC_LEN its length. -/
def withSource (l : List Byte) : State :=
  { State.reset with inMem := placed 0 l, srcLen := BitVec.ofNat 32 l.length }

/-- Reset, with the given counts. -/
def withCounts (l : List (Symbol × Word)) : State :=
  { State.reset with freq := l.foldl (fun t e => setEntry t e.1 e.2) emptyFreq }

/-- A table of the given codes. -/
def tableOf (l : List (Symbol × Code)) : Table Code := l.foldl (fun t e => setEntry t e.1 e.2) emptyCodes

/-- `s` with that table, valid. -/
def withTable (s : State) (l : List (Symbol × Code)) : State := { s with codes := tableOf l, tableValid := true }

/-- The table of T-aab (95_test_vectors.md): a = 1:1, b = 1:0. -/
def tableAab : List (Symbol × Code) := [(0x61, { len := 1, val := 1 }), (0x62, { len := 1, val := 0 })]

/-- The table of T-abra (95_test_vectors.md). -/
def tableAbra : List (Symbol × Code) :=
  [(0x61, { len := 1, val := 0 }), (0x62, { len := 3, val := 6 }), (0x63, { len := 3, val := 4 }),
    (0x64, { len := 3, val := 5 }), (0x72, { len := 3, val := 7 })]

/-- The table of T-aaaa (95_test_vectors.md): a = 1:0. -/
def tableA : List (Symbol × Code) := [(0x61, { len := 1, val := 0 })]

/-- The three results and the error code. -/
def results (s : State) : Nat × Nat × Nat × Nat :=
  (s.err.toNat, s.resultLen.toNat, s.resultBits.toNat, s.resultCount.toNat)

/-- Reset, with one event scheduled and BUSY as given. -/
def next1 (busy : Bool) (e : Event) : State := { State.reset with busy := busy, sched := [e] }

/-! ### Well-formedness: an ill-formed term for each check (00_scope.md R8, 20_memory.md R81, 30_encoding.md R124) -/

theorem test_wf_standard_config : Config.standard.wf = true := by decide
theorem test_wf_no_in_buffer : ({ Config.standard with inCap := 0 } : Config).wf = false := by decide
theorem test_wf_in_buffer_too_large : ({ Config.standard with inCap := 2 ^ 24 + 1 } : Config).wf = false := by decide
theorem test_wf_no_out_buffer : ({ Config.standard with outCap := 0 } : Config).wf = false := by decide
theorem test_wf_out_buffer_too_large : ({ Config.standard with outCap := 2 ^ 24 + 1 } : Config).wf = false := by decide
theorem test_wf_byte_write_too_wide : (HostAccess.write 0x01000000 .byte 0x100).wf = false := by decide
theorem test_wf_half_write_too_wide : (HostAccess.write 0x01000000 .half 0x10000).wf = false := by decide
theorem test_wf_event_too_wide : (Event.host (.write 0x01000000 .byte 0x100)).wf = false := by decide
theorem test_wf_line_write_in_offset : (HostLine.writeIn .byte (2 ^ 24) 0).wf = false := by decide
theorem test_wf_line_write_in_width : (HostLine.writeIn .half 0 0x10000).wf = false := by decide
theorem test_wf_line_write_out_offset : (HostLine.writeOut .byte (2 ^ 24) 0).wf = false := by decide
theorem test_wf_line_write_out_width : (HostLine.writeOut .byte 0 0x100).wf = false := by decide
theorem test_wf_line_read_in_offset : (HostLine.readIn .word (2 ^ 24)).wf = false := by decide
theorem test_wf_line_read_out_offset : (HostLine.readOut .word (2 ^ 24)).wf = false := by decide
theorem test_wf_line_load_past_window : (HostLine.load (2 ^ 24 - 1) [0x61, 0x62]).wf = false := by decide

/-! ### Decoding: every command's word, written bit by bit from 30_encoding.md R110, R112 -/

theorem test_decode_nop : decode 0b00000000000000000000000000000000#32 = .ok .nop := by decide
theorem test_decode_freqClear : decode 0b00000000000000000000000000000001#32 = .ok .freqClear := by decide
theorem test_decode_freqCount : decode 0b00000000000000000000000000000010#32 = .ok .freqCount := by decide
theorem test_decode_treeBuild : decode 0b00000000000000000000000000000011#32 = .ok .treeBuild := by decide
theorem test_decode_codeAssign : decode 0b00000000000000000000000000000100#32 = .ok .codeAssign := by decide
theorem test_decode_buildTable : decode 0b00000000000000000000000000000101#32 = .ok .buildTable := by decide
theorem test_decode_compress : decode 0b00000000000000000000000000000110#32 = .ok .compress := by decide
theorem test_decode_decompress : decode 0b00000000000000000000000000000111#32 = .ok .decompress := by decide
theorem test_decode_codeClear : decode 0b00000000000000000000000000001000#32 = .ok .codeClear := by decide
theorem test_decode_tableLoad : decode 0b00000000000000000000000000001001#32 = .ok .tableLoad := by decide

/-- 30_encoding.md R114; V-LC-4, V-LC-7. -/
theorem test_decode_unassigned_opcodes :
    decode 0x0000000A = .error .opcodeUnassigned ∧ decode 0x000000FF = .error .opcodeUnassigned := by decide

/-- 30_encoding.md R114; V-LC-5, V-LC-6, and the lowest and highest reserved bit. -/
theorem test_decode_reserved_bits :
    decode 0x00000100 = .error .reservedBitsSet ∧ decode 0xFF000002 = .error .reservedBitsSet ∧
      decode 0x80000005 = .error .reservedBitsSet := by decide

theorem test_decodeTableWord :
    decodeTableWord 32 6 = some .compress ∧ decodeTableWord 8 9 = some .tableLoad ∧ decodeTableWord 32 10 = none ∧
      decodeTableWord 32 256 = none := by decide

/-- The placed word is the one the very next step runs (log 12). -/
theorem test_withFetchWord_runs :
    step (State.reset.withFetchWord 32 8) =
      exec .codeClear { State.reset with curCmd := 8, busy := true, sched := [] } := by rfl

/-! ### The life of a command -/

/-- V-LC-3. -/
theorem test_nop : regRead (after (exec .nop State.reset)) .status = 0 ∧
    regRead (after (exec .nop State.reset)) .intStatus = 1 ∧ results (after (exec .nop State.reset)) = (0, 0, 0, 0) := by
  decide +kernel

/-- V-LC-8: ERR falls, INT_STATUS.ERR stays. -/
theorem test_nop_after_error :
    let t := after (exec .nop { State.reset with err := 0x10, resultCount := 5, intStatus := 3 })
    results t = (0, 0, 0, 0) ∧ t.intStatus = 3 := by decide +kernel

/-- V-LC-4: an unassigned opcode. -/
theorem test_illegal_command :
    let t := after (step { State.reset with curCmd := 0x0A, busy := true })
    regRead t .status = 0x1000 ∧ regRead t .intStatus = 3 ∧ results t = (0x10, 0, 0, 0) := by decide +kernel

/-- V-LC-12: a NOP in the fatal state. -/
theorem test_nop_while_fatal :
    regRead (after (exec .nop { State.reset with fatal := true, err := 0x04 })) .status = 0x0408 := by decide +kernel

/-- V-LC-9, the order in which the second CMD write finds BUSY = 1: it is dropped, CUR_CMD keeps FREQ_COUNT. -/
theorem test_cmd_overrun :
    let t := hostStep (hostStep State.reset (.write 0x008 .word 2)) (.write 0x008 .word 0)
    t.curCmd = 2 ∧ t.busy = true ∧ t.intStatus = 0b1000 := by decide +kernel

/-- V-LC-10, before the completion: the read is gated. -/
theorem test_gated_read :
    let t := hostStep { State.reset with busy := true, srcLen := 11 } (.read 0x018 .word)
    t.resp = some 0 ∧ t.intStatus = 0b0100 := by decide +kernel

/-- An ill-sized CMD write while BUSY = 1 is a rejected access, not an overrun (log 14). -/
theorem test_cmd_byte_write_while_busy :
    (hostStep { State.reset with busy := true } (.write 0x008 .byte 2)).intStatus = 0b0100 := by decide +kernel

/-! ### Host accesses -/

/-- V-AC-1. -/
theorem test_buffer_little_endian :
    let t := hostStep State.reset (.write 0x01000000 .word 0x64636261)
    (hostStep t (.read 0x01000000 .byte)).resp = some 0x61 ∧ (hostStep t (.read 0x01000003 .byte)).resp = some 0x64 ∧
      (hostStep t (.read 0x01000002 .half)).resp = some 0x6463 := by decide +kernel

/-- V-AC-2, V-AC-4, V-AC-5, V-AC-6, V-AC-7: rejected accesses. -/
theorem test_rejected_accesses :
    (hostStep State.reset (.write 0x01000001 .half 0x1234)).intStatus = 0b0100 ∧
    (hostStep State.reset (.write 0x01000001 .half 0x1234)).inMem = [] ∧
    (hostStep State.reset (.write 0x0100FFFF .half 0)).intStatus = 0b0100 ∧
    (hostStep State.reset (.read 0x01010000 .byte)).intStatus = 0b0100 ∧
    (hostStep State.reset (.read 0x078 .word)).resp = some 0 ∧
    (hostStep State.reset (.read 0x004 .byte)).intStatus = 0b0100 := by decide +kernel

/-- V-AC-9, V-AC-10, V-AC-11: W1C and the interrupt output. -/
theorem test_interrupt_bits :
    (hostStep { State.reset with intStatus := 0xF } (.write 0x010 .word 5)).intStatus = 0xA ∧
    irq (hostStep { State.reset with intStatus := 1 } (.write 0x00C .word 0xFFFFFFF1)) = true ∧
    irq { State.reset with intStatus := 1, intEnable := 2 } = false := by decide +kernel

/-- V-AC-12, V-AC-13, V-AC-14: reserved bits of the index registers, and CMD reads 0. -/
theorem test_index_registers :
    (hostStep State.reset (.write 0x038 .word 0x161)).symIndex = 0x61 ∧
    (hostStep State.reset (.write 0x064 .word 0xFFFFFFFF)).nodeIndex = 0x1FF ∧
    (hostStep { State.reset with curCmd := 7 } (.read 0x008 .word)).resp = some 0 := by decide +kernel

/-- V-RS-2: reset while a COMPRESS runs. -/
theorem test_reset_abandons :
    let t := after (step { next1 true .reset with curCmd := 6, intStatus := 9, srcLen := 4 })
    t.busy = false ∧ t.intStatus = 0 ∧ t.srcLen = 0 := by decide +kernel

/-- HOST_BASE shifts host bus addresses and nothing else (20_memory.md R80; log 10). -/
theorem test_apertureOffset :
    apertureOffset { Config.standard with hostBase := 0x40000000 } 0x41000002 = some 0x01000002 ∧
      apertureOffset { Config.standard with hostBase := 0x40000000 } 0x3FFFFFFF = none := by decide

/-- 30_encoding.md R122, R123: `RUN NOP` with one poll that still sees BUSY. -/
theorem test_run_line : lineEvents (.run .nop 1) =
    [.host (.write 0x008 .word 0), .host (.read 0x004 .word), .block, .host (.read 0x004 .word)] := by decide

/-! ### The commands -/

/-- V-FQ-3. -/
theorem test_freqClear :
    let t := after (exec .freqClear { withCounts [(0x61, 4), (0x62, 2)] with treeValid := true, tableValid := true })
    nsym t.freq = 0 ∧ t.treeValid = false ∧ t.tableValid = true ∧ results t = (0, 0, 0, 0) := by decide +kernel

/-- V-FQ-1. -/
theorem test_freqCount :
    let t := after (exec .freqCount (withSource [0x61, 0x62, 0x63, 0x61]))
    entry t.freq 0x61 = 2 ∧ entry t.freq 0x62 = 1 ∧ entry t.freq 0x63 = 1 ∧ nsym t.freq = 3 ∧
      results t = (0, 0, 0, 4) := by decide +kernel

/-- V-FQ-7: all or nothing. -/
theorem test_freqCount_overflow :
    let t := after (exec .freqCount { withSource [0x61, 0x62] with freq := (withCounts [(0x61, 0xFFFFFFFF)]).freq })
    results t = (0x15, 0, 0, 0x61) ∧ entry t.freq 0x62 = 0 := by decide +kernel

/-- V-TB-6: T-abra. -/
theorem test_treeBuild :
    let t := after (exec .treeBuild (withCounts [(0x61, 5), (0x62, 2), (0x63, 1), (0x64, 1), (0x72, 2)]))
    regRead t .treeInfo = 0x00090008 ∧ regRead { t with nodeIndex := 8 } .nodeInfo = 0xC0070000 ∧
      regRead { t with nodeIndex := 6 } .nodeInfo = 0xC0040001 ∧ regRead { t with nodeIndex := 5 } .nodeInfo = 0xC0030002 ∧
      results t = (0, 0, 0, 5) := by decide +kernel

/-- V-TB-9: a weight of more than 32 bits. -/
theorem test_treeBuild_wide_weight :
    let t := after (exec .treeBuild (withCounts [(0, 0xFFFFFFFF), (1, 0xFFFFFFFF)]))
    regRead { t with nodeIndex := 2 } .nodeWeightLo = 0xFFFFFFFE ∧
      regRead { t with nodeIndex := 2 } .nodeWeightHi = 1 := by decide +kernel

/-- V-CA-7: the old table is replaced whole; T-aab. -/
theorem test_codeAssign :
    let s := after (exec .treeBuild (withTable (withCounts [(0x61, 2), (0x62, 1)]) tableAbra))
    let t := after (exec .codeAssign s)
    coded t.codes = tableAab ∧ regRead t .status = 4 ∧ results t = (0, 0, 0, 2) := by decide +kernel

/-- V-CA-1: no tree. -/
theorem test_codeAssign_no_tree :
    results (after (exec .codeAssign State.reset)) = (0x12, 0, 0, 0) := by decide +kernel

/-- V-BT-1 (L1-4): one symbol. -/
theorem test_buildTable_one_symbol :
    let t := after (exec .buildTable (withSource [0x61, 0x61, 0x61, 0x61]))
    coded t.codes = tableA ∧ entry t.freq 0x61 = 4 ∧ regRead t .status = 4 ∧ results t = (0, 0, 0, 4) := by
  decide +kernel

/-- V-BT-3. -/
theorem test_buildTable_range :
    results (after (exec .buildTable { State.reset with srcAddr := 65530, srcLen := 7 })) = (0x11, 0, 0, 0) := by
  decide +kernel

/-- V-CP-7: 6E 8A DC. -/
theorem test_compress :
    let t := after (exec .compress { withTable (withSource [0x61, 0x62, 0x72, 0x61, 0x63, 0x61, 0x64, 0x61, 0x62,
      0x72, 0x61]) tableAbra with dstCap := 3 })
    t.outMem = [(0, 0x6E), (1, 0x8A), (2, 0xDC)] ∧ results t = (0, 3, 23, 11) := by decide +kernel

/-- V-CP-12: UNKNOWN_SYMBOL before OUTPUT_OVERFLOW. -/
theorem test_compress_unknown :
    let t := after (exec .compress (withTable (withSource [0x61, 0x62, 0x72, 0x7A]) tableAbra))
    t.outMem = [] ∧ results t = (0x02, 0, 0, 3) := by decide +kernel

/-- V-DC-10: it stops at the 11th symbol. -/
theorem test_decompress :
    let t := after (exec .decompress
      { withTable (withSource [0x6E, 0x8A, 0xDC]) tableAbra with dstCap := 11, expectCount := 11 })
    t.outMem.map Prod.snd = [0x61, 0x62, 0x72, 0x61, 0x63, 0x61, 0x64, 0x61, 0x62, 0x72, 0x61] ∧
      results t = (0, 11, 23, 11) := by decide +kernel

/-- V-DC-9: the decoded prefix stays. -/
theorem test_decompress_truncated :
    let t := after (exec .decompress { withTable (withSource [0x40]) tableA with dstCap := 2, expectCount := 2 })
    t.outMem = [(0, 0x61)] ∧ results t = (0x03, 1, 8, 1) := by decide +kernel

/-- V-TL-11. -/
theorem test_codeClear :
    let t := after (exec .codeClear { withTable (withCounts [(0x61, 1)]) tableAbra with treeValid := true })
    codedCount t.codes = 0 ∧ t.tableValid = false ∧ t.treeValid = true ∧ nsym t.freq = 1 := by decide +kernel

/-- V-TL-1. -/
theorem test_tableLoad :
    let t := after (exec .tableLoad { State.reset with codes := tableOf tableAbra })
    t.tableValid = true ∧ results t = (0, 0, 0, 5) := by decide +kernel

/-- V-TL-3: 0 is a prefix of 01. -/
theorem test_tableLoad_bad :
    let t := after (exec .tableLoad (withTable State.reset [(0x61, { len := 1, val := 0 }), (0x62, { len := 2, val := 1 })]))
    t.tableValid = false ∧ results t = (0x16, 0, 0, 0) := by decide +kernel

/-! ### Witnesses: concrete states and operands that meet all the hypotheses of an obligation together -/

/-- "aab" at IN[0..2], room for one byte at OUT[0]. -/
def sAab : State := { withSource [0x61, 0x61, 0x62] with dstCap := 1 }

/-- "aab" with the table T-aab. -/
def sAabTable : State := withTable sAab tableAab

/-- "abracadabra". -/
def textAbra : List Symbol := [0x61, 0x62, 0x72, 0x61, 0x63, 0x61, 0x64, 0x61, 0x62, 0x72, 0x61]

/-- The three bytes that T-abra packs "abracadabra" into, with that table and EXPECT_COUNT = DST_CAP = 11. -/
def sPacked : State := { withTable (withSource [0x6E, 0x8A, 0xDC]) tableAbra with dstCap := 11, expectCount := 11 }

/-- The counts of "aab". -/
def sCounts : State := withCounts [(0x61, 2), (0x62, 1)]

/-- Those counts with their tree. -/
def sTree : State := after (exec .treeBuild sCounts)

/-- The tree of one symbol. -/
def sLeaf : State := after (exec .treeBuild (withCounts [(0x61, 4)]))

/-- Reset with one host access scheduled. -/
def hostNext (busy : Bool) (a : HostAccess) : State := next1 busy (.host a)

theorem witness_DecodingIsTotalAndExact :
    (0x00000100 : Word).extractLsb' 8 24 ≠ 0 ∧ (0x80000000 : Word).extractLsb' 8 24 ≠ 0 ∧
    ((0x00 : Word).extractLsb' 8 24 = 0 ∧ ((0x00 : Word).extractLsb' 0 8).toNat ≤ 0x09) ∧
    ((0x09 : Word).extractLsb' 8 24 = 0 ∧ ((0x09 : Word).extractLsb' 0 8).toNat ≤ 0x09) ∧
    ((0x0A : Word).extractLsb' 8 24 = 0 ∧ 0x09 < ((0x0A : Word).extractLsb' 0 8).toNat) ∧
    ((0xFF : Word).extractLsb' 8 24 = 0 ∧ 0x09 < ((0xFF : Word).extractLsb' 0 8).toNat) := by decide

theorem witness_DecodeAndEncodeAgree : Instr.tableLoad.wf = true ∧ Instr.nop.wf = true := by decide

theorem witness_StepCompletesTheDecodedCommand :
    (placeWord State.reset 9).blockNext ∧ (placeWord State.reset 9).busy = true ∧
      decode (placeWord State.reset 9).curCmd = .ok .tableLoad ∧ State.reset.blockNext ∧ State.reset.busy = false :=
  ⟨.inr rfl, rfl, by decide, .inl rfl, rfl⟩

/-- The turn also comes when nothing is scheduled. -/
theorem witness_StepCompletesTheDecodedCommand_empty :
    State.blockNext { State.reset with busy := true } ∧ decode State.reset.curCmd = .ok .nop := ⟨.inl rfl, by decide⟩

theorem witness_IllegalWordsCompleteWithIllegalCmd :
    (placeWord State.reset 0x0A).busy = true ∧ 0x0A ≤ ((placeWord State.reset 0x0A).curCmd.extractLsb' 0 8).toNat ∧
      (placeWord State.reset 0x100).busy = true ∧ (placeWord State.reset 0x100).curCmd.extractLsb' 8 24 ≠ 0 :=
  ⟨rfl, by decide, rfl, by decide⟩

/-- The fatal state with a command in progress. -/
def sFatal : State := placeWord { State.reset with fatal := true, err := 0x04 } 0

theorem witness_FatalTurnsEveryCommandAway :
    sFatal.busy = true ∧ sFatal.fatal = true ∧ step sFatal = .next (after (step sFatal)) ∧
      sFatal.sched.head? ≠ some .reset := ⟨rfl, rfl, rfl, by decide⟩

theorem witness_RunningCommandEnds : (hostNext true (.read 0x004 .word)).busy = true := rfl

theorem witness_IdleStepDoesNotReadCurCmd :
    let s := hostNext false (.write 0x008 .word 3)
    s.busy = false ∧ step s = .next (after (step s)) ∧ (after (step s)).busy = true := ⟨rfl, rfl, by decide +kernel⟩

theorem witness_CmdWriteIssuesOrOverruns :
    (hostNext false (.write 0x008 .word 3)).sched = .host (.write 0x008 .word 3) :: [] ∧
      (hostNext false (.write 0x008 .word 3)).busy = false ∧ (hostNext true (.write 0x008 .word 3)).busy = true :=
  ⟨rfl, rfl, rfl⟩

theorem witness_RejectedAccessSetsOnlyAccessErr :
    let s := hostNext false (.read 0x078 .word)
    s.sched = .host (.read 0x078 .word) :: [] ∧ ¬ accepted s (.read 0x078 .word) ∧
      ¬ (s.busy = true ∧ ∃ n d, HostAccess.read 0x078 .word = .write 0x008 n d) := by
  refine ⟨rfl, ?_, by rintro ⟨h, _⟩; cases h⟩
  rintro ⟨h, _⟩
  revert h
  simp only [wellPlaced, accessOffset, accessBytes, AccessSize.bytes]
  decide

/-- A half-word write across the end of IN_MEM, and a read of SRC_LEN while BUSY = 1. -/
theorem witness_RejectedAccessSetsOnlyAccessErr_boundary :
    ¬ accepted (hostNext false (.write 0x0100FFFF .half 0)) (.write 0x0100FFFF .half 0) ∧
    ¬ accepted (hostNext true (.read 0x018 .word)) (.read 0x018 .word) ∧
    ¬ ((hostNext true (.read 0x018 .word)).busy = true ∧ ∃ n d, HostAccess.read 0x018 .word = .write 0x008 n d) := by
  refine ⟨?_, ?_, by rintro ⟨_, n, d, h⟩; cases h⟩
  · rintro ⟨h, _⟩
    revert h
    simp only [wellPlaced, accessOffset, accessBytes, AccessSize.bytes]
    decide +kernel
  · rintro ⟨_, h⟩
    have := h rfl
    revert this
    simp only [passesBusyGate]
    decide

theorem witness_RegisterReadsHaveNoSideEffect :
    (hostNext true (.read Reg.status.offset .word)).sched = .host (.read Reg.status.offset .word) :: [] ∧
    (hostNext false (.read Reg.treeInfo.offset .word)).sched = .host (.read Reg.treeInfo.offset .word) :: [] ∧
    (hostNext false (.read Reg.treeInfo.offset .word)).busy ≠ true := ⟨rfl, rfl, by decide⟩

/-- A leaf, an internal node, and the first index past NODE_COUNT of T-aab; and no tree. -/
theorem witness_TreeWindowsShowTheValidTree :
    sTree.treeValid = true ∧ sTree.nodeCount.toNat = 3 ∧
    nodeAt { sTree with nodeIndex := 1 } 1 = .leaf 0x62 1 ∧ nodeAt { sTree with nodeIndex := 2 } 2 = .internal 1 0 3 ∧
    ¬ ((3 : NodeIdx).toNat < sTree.nodeCount.toNat) ∧ State.reset.treeValid = false := by decide +kernel

theorem witness_FreqDataWriteReplacesOneCount :
    (hostNext false (.write 0x03C .word 7)).sched = .host (.write 0x03C .word 7) :: [] ∧
      (hostNext false (.write 0x03C .word 7)).busy = false := ⟨rfl, rfl⟩

theorem witness_CodeWindowWritesReplaceOneField :
    (hostNext false (.write 0x040 .word 7)).sched = .host (.write 0x040 .word 7) :: [] ∧
    (hostNext false (.write 0x044 .word 7)).sched =
      .host (.write (BitVec.ofNat 32 (0x044 + 4 * (0 : Fin 8).val)) .word 7) :: [] ∧
    (hostNext false (.write 0x060 .word 7)).sched =
      .host (.write (BitVec.ofNat 32 (0x044 + 4 * (7 : Fin 8).val)) .word 7) :: [] ∧
    (hostNext false (.write 0x060 .word 7)).busy = false := ⟨rfl, rfl, rfl, rfl⟩

/-- For each register and each value of BUSY. -/
theorem witness_RegisterWritesHaveExactlyTheirEffect (r : Reg) (busy : Bool) :
    (hostNext busy (.write r.offset .word 5)).sched = .host (.write r.offset .word 5) :: [] ∧
      (hostNext busy (.write r.offset .word 5)).busy = busy := ⟨rfl, rfl⟩

/-- The last word of either buffer. -/
theorem witness_BufferAccessesAreLittleEndian :
    (hostNext false (.write (bufferOffset .output 65532) .word 5)).sched =
      .host (.write (bufferOffset .output 65532) .word 5) :: [] ∧
    (hostNext false (.read (bufferOffset .input 65532) .word)).sched =
      .host (.read (bufferOffset .input 65532) .word) :: [] ∧
    Config.standard.wf = true ∧ 65532 % AccessSize.word.bytes = 0 ∧
    65532 + AccessSize.word.bytes ≤ capOf Config.standard .input ∧
    65532 + AccessSize.word.bytes ≤ capOf Config.standard .output :=
  ⟨rfl, rfl, by decide, by decide, by decide, by decide⟩

/-- Two states in the middle of a command that differ in FREQ and in the results. -/
theorem witness_BusyHostReadsSeeOnlyStatus :
    let a : HostAccess := .read 0x004 .word
    let s := hostNext true a
    let s' := { s with freq := constTable 1, resultLen := 5 }
    s.sched = .host a :: [] ∧ s'.sched = .host a :: [] ∧ s.cfg = s'.cfg ∧ s.busy = true ∧ s'.busy = true ∧
      regRead s .status = regRead s' .status ∧ s.intEnable = s'.intEnable ∧ s.intStatus = s'.intStatus ∧
      step s = .next (after (step s)) ∧ step s' = .next (after (step s')) :=
  ⟨rfl, rfl, rfl, rfl, rfl, rfl, rfl, rfl, rfl, rfl⟩

theorem witness_InterruptBitsAreSticky :
    let s := { hostNext false (.write 0x010 .word 4) with intStatus := 0b0101 }
    step s = .next (after (step s)) ∧ s.intStatus.getLsbD 0 = true ∧ s.intStatus.getLsbD 2 = true :=
  ⟨rfl, by decide, by decide⟩

theorem witness_ResetLeavesTheSpecifiedValues : (next1 true .reset).sched = .reset :: [] := rfl

theorem witness_NoCommandWritesOperandsOrInput : exec .compress sAabTable = .next (after (exec .compress sAabTable)) :=
  rfl

/-- NOP is outside every list, and each command of a list is outside some other. -/
theorem witness_OnlyTheNamedCommandsWriteEachTable :
    exec .nop sTree = .next (after (exec .nop sTree)) ∧
    Instr.nop ∉ [Instr.freqClear, .freqCount, .treeBuild, .codeAssign, .buildTable] ∧
    Instr.nop ∉ [Instr.codeAssign, .buildTable, .codeClear, .tableLoad] ∧ Instr.nop ∉ [Instr.compress, .decompress] ∧
    Instr.codeAssign ∉ [Instr.freqClear, .freqCount, .buildTable] ∧ Instr.codeAssign ∉ [Instr.treeBuild, .buildTable] ∧
    Instr.tableLoad ∉ [Instr.codeAssign, .buildTable] ∧ Instr.buildTable ∉ [Instr.compress, .decompress] ∧
    Instr.compress ∉ [Instr.codeAssign, .buildTable, .codeClear] :=
  ⟨rfl, by decide, by decide, by decide, by decide, by decide, by decide, by decide, by decide⟩

/-- Two states that differ in a byte outside the source range and in INT_STATUS. -/
theorem witness_CommandsAreDeterministicInTheirInputs :
    let s := sAabTable
    let s' := { s with inMem := memSet s.inMem 9 0x7A, intStatus := 3 }
    s.cfg = s'.cfg ∧ s.fatal = s'.fatal ∧ s.tieDraws = s'.tieDraws ∧ s.epoch = s'.epoch ∧ s.srcAddr = s'.srcAddr ∧
      s.srcLen = s'.srcLen ∧ s.dstAddr = s'.dstAddr ∧ s.dstCap = s'.dstCap ∧ s.expectCount = s'.expectCount ∧
      s.freq = s'.freq ∧ s.codes = s'.codes ∧ s.nodes = s'.nodes ∧ s.root = s'.root ∧ s.leafCount = s'.leafCount ∧
      s.treeValid = s'.treeValid ∧ s.tableValid = s'.tableValid ∧ s.outMem = s'.outMem ∧
      (∀ a, s.srcAddr.toNat ≤ a → a < s.srcAddr.toNat + s.srcLen.toNat → byteAt s .input a = byteAt s' .input a) ∧
      exec .compress s = .next (after (exec .compress s)) ∧ exec .compress s' = .next (after (exec .compress s')) := by
  refine ⟨rfl, rfl, rfl, rfl, rfl, rfl, rfl, rfl, rfl, rfl, rfl, rfl, rfl, rfl, rfl, rfl, rfl, ?_, rfl, rfl⟩
  intro a _ h
  have h3 : a < 3 := h
  interval_cases a <;> rfl

theorem witness_NopAndTheClearsAlwaysSucceed : sTree.fatal = false ∧ sFatal.fatal = true := ⟨by decide +kernel, rfl⟩

/-- The range ends exactly at IN_CAP, and the largest sum is exactly 2^32 - 1. -/
theorem witness_FreqCountAddsTheHistogram :
    let s := { State.reset with
      srcAddr := 65535, srcLen := 1, inMem := [(65535, 0x61)], freq := (withCounts [(0x61, 0xFFFFFFFE)]).freq }
    s.fatal = false ∧ s.srcAddr.toNat + s.srcLen.toNat ≤ s.cfg.inCap ∧
      ∀ x, (entry s.freq x).toNat + (srcBytes s).count x ≤ 2 ^ 32 - 1 := by decide +kernel

theorem witness_FreqCountErrorsChangeNothing :
    let s := { State.reset with srcAddr := 65537 }
    let u := { sAab with freq := (withCounts [(0x61, 0xFFFFFFFE), (0x62, 0xFFFFFFFF)]).freq }
    s.fatal = false ∧ s.cfg.inCap < s.srcAddr.toNat + s.srcLen.toNat ∧ u.fatal = false ∧
      u.srcAddr.toNat + u.srcLen.toNat ≤ u.cfg.inCap ∧
      2 ^ 32 - 1 < (entry u.freq 0x61).toNat + (srcBytes u).count 0x61 ∧
      ∀ y : Symbol, y < 0x61 → (entry u.freq y).toNat + (srcBytes u).count y ≤ 2 ^ 32 - 1 := by decide +kernel

theorem witness_FreqCountIgnoresByteOrder :
    let m := placed 0 [0x62, 0x61, 0x61]
    (srcBytes { sAab with inMem := m }).Perm (srcBytes sAab) ∧
      exec .freqCount sAab = .next (after (exec .freqCount sAab)) ∧
      exec .freqCount { sAab with inMem := m } = .next (after (exec .freqCount { sAab with inMem := m })) :=
  ⟨by decide +kernel, rfl, rfl⟩

theorem witness_MissingInputsOnlyReport :
    let s := { State.reset with srcAddr := 65530, srcLen := 7 }
    State.reset.fatal = false ∧ (∀ x, entry State.reset.freq x = 0) ∧ State.reset.treeValid = false ∧
      s.cfg.inCap < s.srcAddr.toNat + s.srcLen.toNat ∧
      State.reset.srcAddr.toNat + State.reset.srcLen.toNat ≤ State.reset.cfg.inCap ∧ State.reset.srcLen = 0 := by
  decide +kernel

/-- Two symbols, one symbol, and all 256. -/
theorem witness_TreeBuildLaysOutTheArena :
    sCounts.fatal = false ∧ keyCount sCounts.freq = 2 ∧ keyCount (withCounts [(0x61, 4)]).freq = 1 ∧
      keyCount (constTable (1 : Word)) = 256 := by decide +kernel

theorem witness_TreeBuildStructure :
    sCounts.fatal = false ∧ keyCount sCounts.freq ≠ 0 ∧ exec .treeBuild sCounts = .next sTree :=
  ⟨rfl, by decide +kernel, rfl⟩

theorem witness_MergeTakesTheTwoLeastKeys :
    let t := startBuilder sCounts.freq 0
    2 ≤ t.queue.length ∧ (t.queue.map QEntry.node).Nodup := by decide +kernel

theorem witness_AnyMinMergeTakesLeastWeights : 2 ≤ (startBuilder sCounts.freq 0).queue.length := by decide +kernel

theorem witness_SingleSymbolGetsOneBit :
    sLeaf.fatal = false ∧ sLeaf.treeValid = true ∧ nodeAt sLeaf sLeaf.root = .leaf 0x61 4 ∧ sLeaf.leafCount = 1 := by
  decide +kernel

/-- A state that no run reaches: LEAF_COUNT does not match the tree. -/
theorem witness_CodeCountMismatchIsFatal :
    let s := { sTree with leafCount := 3 }
    s.fatal = false ∧ s.treeValid = true ∧ codeCount (codesOfTree (nodeAt s) s.root) ≠ s.leafCount.toNat := by
  decide +kernel

theorem sTree_isCurrent : sTree.treeIsCurrent := ⟨by decide +kernel, 0, by decide +kernel⟩

theorem witness_CodeAssignGivesAPrefixFreeTable :
    sTree.fatal = false ∧ sTree.treeValid = true ∧ sTree.treeIsCurrent ∧ sLeaf.treeIsCurrent :=
  ⟨by decide +kernel, by decide +kernel, sTree_isCurrent, by decide +kernel, 0, by decide +kernel⟩

theorem witness_CodesArePathsToTheirLeaves :
    sTree.fatal = false ∧ sTree.treeValid = true ∧ sTree.treeIsCurrent ∧ 2 ≤ keyCount sTree.freq ∧
      exec .codeAssign sTree = .next (after (exec .codeAssign sTree)) ∧ entry sTree.freq 0x61 ≠ 0 :=
  ⟨by decide +kernel, by decide +kernel, sTree_isCurrent, by decide +kernel, rfl, by decide +kernel⟩

theorem witness_AssignedCodesAreComplete :
    (sTree.fatal = false ∧ sTree.treeValid = true ∧ 2 ≤ keyCount sTree.freq ∧ sLeaf.fatal = false ∧
      sLeaf.treeValid = true ∧ keyCount sLeaf.freq = 1) ∧ sTree.treeIsCurrent ∧ sLeaf.treeIsCurrent ∧
    exec .codeAssign sTree = .next (after (exec .codeAssign sTree)) ∧
    exec .codeAssign sLeaf = .next (after (exec .codeAssign sLeaf)) ∧ 255 ≤ (List.replicate 255 true).length :=
  ⟨by decide +kernel, sTree_isCurrent, ⟨by decide +kernel, 0, by decide +kernel⟩, rfl, rfl, by decide +kernel⟩

theorem witness_BuildTableCodesItsInput :
    sAab.fatal = false ∧ sAab.cfg.wf = true ∧ sAab.srcAddr.toNat + sAab.srcLen.toNat ≤ sAab.cfg.inCap ∧
      sAab.srcLen ≠ 0 := by decide +kernel

theorem witness_BuildTableEqualsTheFourCommands :
    sAab.fatal = false ∧ sAab.cfg.wf = true ∧ sAab.srcAddr.toNat + sAab.srcLen.toNat ≤ sAab.cfg.inCap ∧
      sAab.srcLen ≠ 0 ∧ State.reset.srcLen = 0 ∧
      State.reset.srcAddr.toNat + State.reset.srcLen.toNat ≤ State.reset.cfg.inCap := by decide +kernel

theorem sAabTable_wf : wfTable sAabTable.codes := (codeTableWf_iff _).1 (by decide +kernel)

theorem sPacked_wf : wfTable sPacked.codes := (codeTableWf_iff _).1 (by decide +kernel)

theorem witness_TableLoadChecksWellFormedness :
    sAabTable.fatal = false ∧ wfTable sAabTable.codes ∧ ¬ wfTable State.reset.codes :=
  ⟨by decide +kernel, sAabTable_wf, fun h => absurd ((codeTableWf_iff _).2 h) (by decide +kernel)⟩

/-- The stream just fits: 3 bits in DST_CAP = 1 byte. -/
theorem witness_CompressWritesTheBitstream :
    let s := sAabTable
    s.fatal = false ∧ s.srcAddr.toNat + s.srcLen.toNat ≤ s.cfg.inCap ∧
      s.dstAddr.toNat + s.dstCap.toNat ≤ s.cfg.outCap ∧ s.tableValid = true ∧
      (∀ x ∈ srcBytes s, (entry s.codes x).len ≠ 0) ∧
      ((codedStream s.codes (srcBytes s)).length + 7) / 8 ≤ s.dstCap.toNat := by decide +kernel

/-- Both RANGE clauses at the first value outside, and NO_TABLE. -/
theorem witness_CompressErrorsInOrder :
    let a := { State.reset with srcAddr := 65536, srcLen := 1 }
    let b := { State.reset with dstAddr := 65535, dstCap := 2 }
    a.fatal = false ∧ a.cfg.inCap < a.srcAddr.toNat + a.srcLen.toNat ∧
      b.srcAddr.toNat + b.srcLen.toNat ≤ b.cfg.inCap ∧ b.cfg.outCap < b.dstAddr.toNat + b.dstCap.toNat ∧
      State.reset.dstAddr.toNat + State.reset.dstCap.toNat ≤ State.reset.cfg.outCap ∧
      State.reset.tableValid = false := by decide +kernel

/-- The first unknown byte at index 0 and at index 2. -/
theorem witness_CompressErrorsInOrder_unknown :
    let a := withTable (withSource [0x7A]) tableAab
    let b := withTable (withSource [0x61, 0x62, 0x7A]) tableAab
    a.tableValid = true ∧
      (∃ h : 0 < (srcBytes a).length, (entry a.codes (srcBytes a)[0]).len = 0) ∧
      (∃ h : 2 < (srcBytes b).length, (entry b.codes (srcBytes b)[2]).len = 0 ∧
        ∀ (j : Nat) (hj : j < 2), (entry b.codes ((srcBytes b)[j]'(by omega))).len ≠ 0) := by decide +kernel

/-- The stream misses by one byte. -/
theorem witness_CompressErrorsInOrder_overflow :
    let s := { sAabTable with dstCap := 0 }
    s.tableValid = true ∧ (∀ x ∈ srcBytes s, (entry s.codes x).len ≠ 0) ∧
      s.dstCap.toNat < ((codedStream s.codes (srcBytes s)).length + 7) / 8 := by decide +kernel

/-- A success, an OUTPUT_OVERFLOW and another error. -/
theorem witness_CompressSizesFit :
    let a := sAabTable
    let b := { sAabTable with dstCap := 0 }
    (a.cfg.wf = true ∧ (after (exec .compress a)).err = 0x00 ∧ (after (exec .compress b)).err = 0x14 ∧
      (after (exec .compress State.reset)).err = 0x13) ∧
    exec .compress a = .next (after (exec .compress a)) ∧ exec .compress b = .next (after (exec .compress b)) ∧
    exec .compress State.reset = .next (after (exec .compress State.reset)) := ⟨by decide +kernel, rfl, rfl, rfl⟩

/-- BUILD_TABLE on "aab", then COMPRESS of it. -/
def tAab : State := after (exec .buildTable sAab)

/-- The state after that COMPRESS. -/
def uAab : State := after (exec .compress tAab)

theorem tAab_err : tAab.err = 0 := by decide +kernel

theorem uAab_err : uAab.err = 0 := by decide +kernel

/-- A second block with the table of `tAab`, the same bytes at another place, and another destination. -/
def wAab : State :=
  { State.reset with
    codes := tAab.codes, tableValid := true, inMem := placed 40 [0x61, 0x61, 0x62], srcAddr := 40, srcLen := 3,
    dstAddr := 9, dstCap := 5 }

theorem witness_CompressedBitsAreTheWeightedPathLength :
    (sAab.cfg.wf = true ∧ srcBytes wAab = srcBytes sAab ∧ (after (exec .compress wAab)).err = 0x00 ∧
      (after (exec .compress { wAab with dstCap := 0 })).err = 0x14) ∧
    exec .buildTable sAab = .next tAab ∧ tAab.err = 0 ∧ wAab.codes = tAab.codes ∧
    exec .compress wAab = .next (after (exec .compress wAab)) ∧
    exec .compress { wAab with dstCap := 0 } = .next (after (exec .compress { wAab with dstCap := 0 })) :=
  ⟨by decide +kernel, rfl, tAab_err, rfl, rfl, rfl⟩

theorem witness_DecompressEarlyErrorsInOrder :
    let a := { State.reset with srcAddr := 65536, srcLen := 1 }
    let b := { State.reset with dstAddr := 65535, dstCap := 2 }
    let c := { sPacked with dstCap := 10 }
    a.fatal = false ∧ a.cfg.inCap < a.srcAddr.toNat + a.srcLen.toNat ∧
      b.srcAddr.toNat + b.srcLen.toNat ≤ b.cfg.inCap ∧ b.cfg.outCap < b.dstAddr.toNat + b.dstCap.toNat ∧
      State.reset.dstAddr.toNat + State.reset.dstCap.toNat ≤ State.reset.cfg.outCap ∧
      State.reset.tableValid = false ∧ c.tableValid = true ∧ c.srcAddr.toNat + c.srcLen.toNat ≤ c.cfg.inCap ∧
      c.dstAddr.toNat + c.dstCap.toNat ≤ c.cfg.outCap ∧ c.dstCap.toNat < c.expectCount.toNat := by decide +kernel

theorem witness_DecompressOfZeroSymbolsDoesNothing :
    let s := { sPacked with expectCount := 0 }
    s.fatal = false ∧ s.srcAddr.toNat + s.srcLen.toNat ≤ s.cfg.inCap ∧
      s.dstAddr.toNat + s.dstCap.toNat ≤ s.cfg.outCap ∧ s.tableValid = true ∧ s.expectCount = 0 := by decide +kernel

/-- A source that holds all the symbols, one that ends inside a code, and one of 32 bytes that begins no code: each meets
the hypotheses, and the last two are the clauses of R245 and R246 (V-DC-13, V-DC-18). -/
theorem witness_DecompressSucceedsOrIsTruncated :
    let s := sPacked
    let a := { sPacked with srcLen := 2 }
    let b := { withTable (withSource (List.replicate 32 0xFF)) tableA with dstCap := 1, expectCount := 1 }
    (s.fatal = false ∧ s.srcAddr.toNat + s.srcLen.toNat ≤ s.cfg.inCap ∧
      s.dstAddr.toNat + s.dstCap.toNat ≤ s.cfg.outCap ∧ s.tableValid = true ∧ s.expectCount ≠ 0 ∧
      s.expectCount.toNat ≤ s.dstCap.toNat) ∧
    a.srcAddr.toNat + a.srcLen.toNat ≤ a.cfg.inCap ∧ results (after (exec .decompress a)) = (0x03, 8, 16, 8) ∧
    (b.fatal = false ∧ b.srcAddr.toNat + b.srcLen.toNat ≤ b.cfg.inCap ∧
      b.dstAddr.toNat + b.dstCap.toNat ≤ b.cfg.outCap ∧ b.tableValid = true ∧ b.expectCount ≠ 0 ∧
      b.expectCount.toNat ≤ b.dstCap.toNat) ∧ results (after (exec .decompress b)) = (0x03, 0, 255, 0) := by
  decide +kernel

theorem witness_DecompressDecodesACodedStream :
    let s := sPacked
    (s.fatal = false ∧ s.srcAddr.toNat + s.srcLen.toNat ≤ s.cfg.inCap ∧
      s.dstAddr.toNat + s.dstCap.toNat ≤ s.cfg.outCap ∧ s.tableValid = true ∧
      s.expectCount.toNat ≤ s.dstCap.toNat ∧ textAbra.length = s.expectCount.toNat ∧ textAbra ≠ [] ∧
      (∀ x ∈ textAbra, (entry s.codes x).len ≠ 0) ∧ codedStream s.codes textAbra <+: byteStream (srcBytes s)) ∧
      wfTable s.codes := ⟨by decide +kernel, sPacked_wf⟩

/-- L1-6: the first two of the three bytes. -/
theorem witness_ShortenedStreamIsTruncatedInput :
    let s := { sPacked with srcLen := 2 }
    (s.fatal = false ∧ s.srcAddr.toNat + s.srcLen.toNat ≤ s.cfg.inCap ∧
      s.dstAddr.toNat + s.dstCap.toNat ≤ s.cfg.outCap ∧ s.tableValid = true ∧
      s.expectCount.toNat ≤ s.dstCap.toNat ∧ textAbra.length = s.expectCount.toNat ∧
      (∀ x ∈ textAbra, (entry s.codes x).len ≠ 0) ∧ 8 * s.srcLen.toNat < (codedStream s.codes textAbra).length ∧
      byteStream (srcBytes s) <+: codedStream s.codes textAbra) ∧ wfTable s.codes :=
  ⟨by decide +kernel, sPacked_wf⟩

/-- A second block with the table of `uAab` and its one byte of output as the source. -/
def vAab : State :=
  { State.reset with
    codes := uAab.codes, tableValid := uAab.tableValid, inMem := [(0, 0xC0)], srcLen := 1, dstCap := 3, expectCount := 3 }

theorem witness_CompressThenDecompressRoundTrip :
    (sAab.fatal = false ∧ sAab.cfg.wf = true ∧ sAab.srcAddr.toNat + sAab.srcLen.toNat ≤ sAab.cfg.inCap ∧
      sAab.srcLen ≠ 0 ∧ sAab.dstAddr.toNat + sAab.dstCap.toNat ≤ sAab.cfg.outCap) ∧
    exec .buildTable sAab = .next tAab ∧ ((codedStream tAab.codes (srcBytes sAab)).length + 7) / 8 ≤ sAab.dstCap.toNat ∧
    exec .compress tAab = .next uAab ∧ vAab.codes = uAab.codes ∧ vAab.tableValid = uAab.tableValid ∧
    (vAab.fatal = false ∧ vAab.cfg = uAab.cfg ∧ vAab.srcAddr.toNat + vAab.srcLen.toNat ≤ vAab.cfg.inCap ∧
      vAab.dstAddr.toNat + vAab.dstCap.toNat ≤ vAab.cfg.outCap ∧ vAab.expectCount = sAab.srcLen ∧
      vAab.expectCount.toNat ≤ vAab.dstCap.toNat ∧ vAab.srcLen = uAab.resultLen ∧
      ∀ i, i < vAab.srcLen.toNat →
        byteAt vAab .input (vAab.srcAddr.toNat + i) = byteAt uAab .output (uAab.dstAddr.toNat + i)) :=
  ⟨by decide +kernel, rfl, by decide +kernel, rfl, rfl, rfl, by decide +kernel⟩

/-- A running CODE_ASSIGN with a current tree: a safe state in which both flags matter. -/
def sSafe : State := placeWord sTree 4

theorem sSafe_safe : sSafe.safe := by
  refine ⟨⟨by decide +kernel, ⟨by decide +kernel, by decide +kernel⟩, ⟨by decide +kernel, by decide +kernel⟩,
    by decide +kernel, ⟨.ok, by decide +kernel⟩, ?_, fun _ => ?_, ?_⟩, by decide +kernel⟩
  · intro h; exact absurd h (by decide +kernel)
  · exact sTree_isCurrent
  · intro h; exact absurd h (by decide +kernel)

theorem witness_EveryStepKeepsTheInvariant : sSafe.Inv ∧ step sSafe = .next (after (step sSafe)) :=
  ⟨sSafe_safe.1, rfl⟩

theorem witness_FatalIsUnreachable : sSafe.safe ∧ step sSafe = .next (after (step sSafe)) := ⟨sSafe_safe, rfl⟩

/-- Two blocks with the same counts, one with a table and a source left over. -/
theorem witness_EqualCountsRebuildTheSameTable :
    let t := { sAabTable with freq := sCounts.freq }
    sCounts.fatal = false ∧ t.fatal = false ∧ sCounts.cfg.tieBreak = .lowestKey ∧ t.cfg.tieBreak = .lowestKey ∧
      sCounts.freq = t.freq ∧ keyCount sCounts.freq ≠ 0 :=
  ⟨rfl, rfl, rfl, rfl, rfl, by decide +kernel⟩

theorem witness_RunLineCompletesItsCommand :
    let s := { State.reset with sched := lineEvents (.run .tableLoad 2) ++ [Event.reset] }
    s.busy = false ∧ s.sched = lineEvents (.run .tableLoad 2) ++ [Event.reset] := ⟨rfl, rfl⟩

theorem witness_SetCodeLineWritesOneCode :
    let s := { State.reset with sched := lineEvents (.setCode 0x61 255 (BitVec.ofNat 256 (2 ^ 255 - 1))) ++ [] }
    s.busy = false ∧ s.sched = lineEvents (.setCode 0x61 255 (BitVec.ofNat 256 (2 ^ 255 - 1))) ++ [] := ⟨rfl, rfl⟩

end Sys2Proof.Tests
end

/-! ## Proofs: trees, paths and codes -/

namespace Sys2Proof.Machine

/-! ### The value of a bit sequence -/

theorem bitsValue_append (p q : List Bool) : bitsValue (p ++ q) = bitsValue p * 2 ^ q.length + bitsValue q := by
  suffices h : ∀ acc, q.foldl (fun v b => 2 * v + b.toNat) acc = acc * 2 ^ q.length + bitsValue q by
    simp only [bitsValue, List.foldl_append] at h ⊢
    exact h _
  induction q with
  | nil => simp [bitsValue]
  | cons b q ih =>
    intro acc
    have e : bitsValue (b :: q) = b.toNat * 2 ^ q.length + bitsValue q := by
      simpa [bitsValue] using ih b.toNat
    rw [List.foldl_cons, ih, e, List.length_cons]
    ring

theorem bitsValue_cons (b : Bool) (q : List Bool) :
    bitsValue (b :: q) = b.toNat * 2 ^ q.length + bitsValue q := by
  simpa [bitsValue] using bitsValue_append [b] q

@[simp] theorem bitsValue_concat (p : List Bool) (b : Bool) : bitsValue (p ++ [b]) = 2 * bitsValue p + b.toNat := by
  simp [bitsValue]

theorem bitsValue_lt (q : List Bool) : bitsValue q < 2 ^ q.length := by
  induction q with
  | nil => simp [bitsValue]
  | cons b q ih =>
    have hb : b.toNat * 2 ^ q.length ≤ 1 * 2 ^ q.length := Nat.mul_le_mul_right _ (Bool.toNat_le b)
    rw [bitsValue_cons, List.length_cons, Nat.pow_succ]
    omega

/-- A bit sequence is read back from its value and its length. -/
theorem bitsMsb_bitsValue (q : List Bool) : bitsMsb q.length (bitsValue q) = q := by
  refine List.ext_getElem (by simp) fun i h1 h2 => ?_
  rw [getElem_bitsMsb]
  induction q generalizing i with
  | nil => simp at h2
  | cons b q ih =>
    rw [bitsValue_cons, Nat.mul_comm, List.length_cons, Nat.testBit_two_pow_mul_add _ (bitsValue_lt q)]
    cases i with
    | zero => cases b <;> simp
    | succ i =>
      have hi : i < q.length := by simpa using h2
      rw [if_pos (by omega), List.getElem_cons_succ, ← ih i (by simpa using hi) hi]
      congr 1
      omega

theorem bitsValue_inj {p q : List Bool} (hl : p.length = q.length) (h : bitsValue p = bitsValue q) : p = q := by
  rw [← bitsMsb_bitsValue p, ← bitsMsb_bitsValue q, hl, h]

/-- A sequence whose value, with the low bits dropped, is that of a shorter one begins with it. -/
theorem prefix_of_bitsValue_div {p q : List Bool} (hl : p.length ≤ q.length)
    (h : bitsValue q / 2 ^ (q.length - p.length) = bitsValue p) : p <+: q := by
  have hd : (q.drop p.length).length = q.length - p.length := List.length_drop
  have ht : (q.take p.length).length = p.length := by simp [hl]
  have hv : bitsValue (q.take p.length) = bitsValue p := by
    have hlt := bitsValue_lt (q.drop p.length)
    rw [hd] at hlt
    rw [← h]
    conv_rhs => rw [← List.take_append_drop p.length q, bitsValue_append, hd]
    simp only [List.length_append, ht, hd, Nat.add_sub_cancel_left]
    rw [Nat.mul_comm, Nat.mul_add_div (by positivity), Nat.div_eq_of_lt hlt, Nat.add_zero]
  rw [← bitsValue_inj ht hv]
  exact List.take_prefix _ _

/-! ### The code of a path (43_code_assigner.md R191) -/

/-- The code that the walk gives to the leaf at the end of a path from the root. -/
def pathCode (q : List Bool) : Code := { len := BitVec.ofNat 8 q.length, val := BitVec.ofNat 256 (bitsValue q) }

theorem pathCode_len {q : List Bool} (h : q.length ≤ 255) : (pathCode q).len.toNat = q.length := by
  simp [pathCode]; omega

theorem pathCode_val {q : List Bool} (h : q.length ≤ 255) : (pathCode q).val.toNat = bitsValue q := by
  have h1 := bitsValue_lt q
  have h2 : 2 ^ q.length ≤ 2 ^ 255 := Nat.pow_le_pow_right (by decide) h
  simp only [pathCode, BitVec.toNat_ofNat]
  exact Nat.mod_eq_of_lt (by omega)

theorem pathCode_len_ne_zero {q : List Bool} (h : q.length ≤ 255) (hq : q ≠ []) : (pathCode q).len ≠ 0 := by
  intro e
  have := congrArg BitVec.toNat e
  rw [pathCode_len h] at this
  exact hq (List.length_eq_zero_iff.1 this)

/-- When one code begins another as 43_code_assigner.md R200 has it, the one path begins the other. -/
theorem prefix_of_pathCode {q r : List Bool} (hq : q.length ≤ 255) (hr : r.length ≤ 255)
    (hl : (pathCode q).len.toNat ≤ (pathCode r).len.toNat)
    (h : (pathCode r).val.toNat / 2 ^ ((pathCode r).len.toNat - (pathCode q).len.toNat) = (pathCode q).val.toNat) :
    q <+: r := by
  rw [pathCode_len hq, pathCode_len hr] at *
  rw [pathCode_val hq, pathCode_val hr] at h
  exact prefix_of_bitsValue_div hl h

/-! ### Trees -/

/-- A binary tree with a symbol at every leaf: what an arena of nodes represents from one index on. -/
inductive CodeTree where
  | leaf (s : Symbol)
  | node (l r : CodeTree)

namespace CodeTree

/-- The symbols of the leaves, left to right. -/
def syms : CodeTree → List Symbol
  | leaf s => [s]
  | node l r => l.syms ++ r.syms

/-- The number of edges on a longest path from the root. -/
def depth : CodeTree → Nat
  | leaf _ => 0
  | node l r => max l.depth r.depth + 1

/-- `T.HasPath q s`: the leaf of `s` is reached from the root by `q`, 0 to the left and 1 to the right. -/
inductive HasPath : CodeTree → List Bool → Symbol → Prop
  | here (s : Symbol) : HasPath (leaf s) [] s
  | left {l r : CodeTree} {q : List Bool} {s : Symbol} : HasPath l q s → HasPath (node l r) (false :: q) s
  | right {l r : CodeTree} {q : List Bool} {s : Symbol} : HasPath r q s → HasPath (node l r) (true :: q) s

theorem depth_lt_length_syms (t : CodeTree) : t.depth < t.syms.length := by
  induction t with
  | leaf s => simp [depth, syms]
  | node l r ihl ihr => simp only [depth, syms, List.length_append]; omega

theorem HasPath.length_le {t : CodeTree} {q : List Bool} {s : Symbol} (h : t.HasPath q s) : q.length ≤ t.depth := by
  induction h with
  | here s => simp [depth]
  | left _ ih => simp only [List.length_cons, depth]; omega
  | right _ ih => simp only [List.length_cons, depth]; omega

/-- A symbol is at a leaf exactly when some path leads to it. -/
theorem mem_syms_iff (t : CodeTree) (s : Symbol) : s ∈ t.syms ↔ ∃ q, t.HasPath q s := by
  induction t with
  | leaf u =>
    constructor
    · intro h
      obtain rfl : s = u := by simpa [syms] using h
      exact ⟨[], .here _⟩
    · rintro ⟨_, h⟩
      cases h
      simp [syms]
  | node l r ihl ihr =>
    rw [syms, List.mem_append, ihl, ihr]
    constructor
    · rintro (⟨q, h⟩ | ⟨q, h⟩)
      · exact ⟨_, h.left⟩
      · exact ⟨_, h.right⟩
    · rintro ⟨_, h⟩
      cases h with
      | left h => exact .inl ⟨_, h⟩
      | right h => exact .inr ⟨_, h⟩

/-- No path to a leaf begins with the path to another symbol's leaf (43_code_assigner.md R195 item 2). -/
theorem HasPath.not_prefix {t : CodeTree} {q r : List Bool} {s u : Symbol} (hs : t.HasPath q s) (hu : t.HasPath r u)
    (hne : s ≠ u) : ¬ q <+: r := by
  induction hs generalizing r with
  | here s => cases hu; exact absurd rfl hne
  | left _ ih =>
    cases hu with
    | left hu => simpa using ih hu hne
    | right _ => simp
  | right _ ih =>
    cases hu with
    | left _ => simp
    | right hu => simpa using ih hu hne

end CodeTree

/-! ### The tree an arena represents -/

/-- The nodes listed in an arena represent a tree from index `k` on (10_state.md R52). -/
inductive TreeAt (nodes : List Node) : NodeIdx → CodeTree → Prop
  | leaf {k : NodeIdx} {s : Symbol} {w : Weight} : nodes[k.toNat]? = some (.leaf s w) → TreeAt nodes k (.leaf s)
  | node {k a b : NodeIdx} {w : Weight} {l r : CodeTree} : nodes[k.toNat]? = some (.internal a b w) →
      TreeAt nodes a l → TreeAt nodes b r → TreeAt nodes k (.node l r)

/-- More nodes after the listed ones change no tree. -/
theorem TreeAt.append {nodes : List Node} {k : NodeIdx} {t : CodeTree} (h : TreeAt nodes k t) (more : List Node) :
    TreeAt (nodes ++ more) k t := by
  have keep : ∀ {i : Nat} {n : Node}, nodes[i]? = some n → (nodes ++ more)[i]? = some n := fun hn => by
    rw [List.getElem?_append_left (List.getElem?_eq_some_iff.1 hn).1, hn]
  induction h with
  | leaf hk => exact .leaf (keep hk)
  | node hk _ _ ihl ihr => exact .node (keep hk) ihl ihr

theorem nodeAt_eq {s : State} {k : NodeIdx} {n : Node} (h : s.nodes[k.toNat]? = some n) : nodeAt s k = n := by
  simp [nodeAt, h]

/-! ### The walk (43_code_assigner.md R191) -/

/-- The walk leaves the entry of every symbol that the tree does not have. -/
theorem entry_walk_of_not_mem {s : State} {k : NodeIdx} {T : CodeTree} (hT : TreeAt s.nodes k T) {x : Symbol}
    (hx : x ∉ T.syms) (levels v l : Nat) (t : Table Code) : entry (walk (nodeAt s) levels k v l t) x = entry t x := by
  induction hT generalizing levels v l t with
  | leaf hk =>
    cases levels with
    | zero => rfl
    | succ n =>
      simp only [walk, nodeAt_eq hk]
      exact entry_setEntry_other _ _ fun e => hx (by simp [CodeTree.syms, e])
  | node hk _ _ ihl ihr =>
    simp only [CodeTree.syms, List.mem_append, not_or] at hx
    cases levels with
    | zero => rfl
    | succ n =>
      simp only [walk, nodeAt_eq hk]
      rw [ihr hx.2, ihl hx.1]

/-- With levels enough the walk gives every symbol of the tree the code of its path, after the bits `p` that led to
the tree's root. -/
theorem entry_walk_of_path {s : State} {k : NodeIdx} {T : CodeTree} (hT : TreeAt s.nodes k T) (hn : T.syms.Nodup)
    {levels : Nat} (hl : T.depth < levels) {q : List Bool} {x : Symbol} (hx : T.HasPath q x) (p : List Bool)
    (t : Table Code) : entry (walk (nodeAt s) levels k (bitsValue p) p.length t) x = pathCode (p ++ q) := by
  induction hT generalizing levels q p t with
  | leaf hk =>
    cases hx
    obtain ⟨n, rfl⟩ : ∃ n, levels = n + 1 := ⟨levels - 1, by omega⟩
    simp [walk, nodeAt_eq hk, pathCode]
  | @node k a b w L R hk _ hR ihl ihr =>
    obtain ⟨n, rfl⟩ : ∃ n, levels = n + 1 := ⟨levels - 1, by omega⟩
    obtain ⟨hnl, hnr, hd⟩ := List.nodup_append.1 hn
    simp only [CodeTree.depth] at hl
    have step : walk (nodeAt s) (n + 1) k (bitsValue p) p.length t =
        walk (nodeAt s) n b (bitsValue (p ++ [true])) (p ++ [true]).length
          (walk (nodeAt s) n a (bitsValue (p ++ [false])) (p ++ [false]).length t) := by
      simp [walk, nodeAt_eq hk]
    rw [step]
    cases hx with
    | left hx =>
      have hxR : x ∉ R.syms := fun h => hd x ((L.mem_syms_iff x).2 ⟨_, hx⟩) x h rfl
      rw [entry_walk_of_not_mem hR hxR, ihl hnl (by omega) hx]
      simp
    | right hx =>
      rw [ihr hnr (by omega) hx]
      simp

/-! ### The code table of a tree (43_code_assigner.md R190-R192, R195) -/

/-- The bits that CODE_ASSIGN gives a symbol of the tree: its path, or the single bit 0 when the tree is one leaf. -/
def CodeTree.HasCode (T : CodeTree) (q : List Bool) (s : Symbol) : Prop :=
  match T with
  | .leaf u => s = u ∧ q = [false]
  | .node _ _ => T.HasPath q s

theorem CodeTree.mem_syms_iff_hasCode (T : CodeTree) (s : Symbol) : s ∈ T.syms ↔ ∃ q, T.HasCode q s := by
  cases T with
  | leaf u => simp [syms, HasCode]
  | node l r => exact mem_syms_iff _ s

theorem CodeTree.HasCode.ne_nil {T : CodeTree} {q : List Bool} {s : Symbol} (h : T.HasCode q s) : q ≠ [] := by
  cases T with
  | leaf u => rintro rfl; exact absurd h.2 (by simp)
  | node l r => rintro rfl; cases h

theorem CodeTree.HasCode.length_le {T : CodeTree} {q : List Bool} {s : Symbol} (h : T.HasCode q s)
    (hd : T.depth ≤ 255) : q.length ≤ 255 := by
  cases T with
  | leaf u => simp [h.2]
  | node l r => exact (HasPath.length_le h).trans hd

theorem CodeTree.HasCode.not_prefix {T : CodeTree} {q r : List Bool} {s u : Symbol} (hs : T.HasCode q s)
    (hu : T.HasCode r u) (hne : s ≠ u) : ¬ q <+: r := by
  cases T with
  | leaf v => exact absurd (hs.1.trans hu.1.symm) hne
  | node l r => exact HasPath.not_prefix hs hu hne

section
variable {s : State} {T : CodeTree} (hT : TreeAt s.nodes s.root T) (hn : T.syms.Nodup) (hd : T.depth ≤ 255)
include hT

theorem entry_codesOfTree_of_not_mem {x : Symbol} (hx : x ∉ T.syms) :
    entry (codesOfTree (nodeAt s) s.root) x = { len := 0, val := 0 } := by
  cases hT with
  | leaf hk =>
    simp only [codesOfTree, nodeAt_eq hk]
    rw [entry_setEntry_other _ _ fun e => hx (by simp [CodeTree.syms, e])]
    simp [emptyCodes]
  | node hk hL hR =>
    simp only [codesOfTree, nodeAt_eq hk]
    rw [entry_walk_of_not_mem (.node hk hL hR) hx]
    simp [emptyCodes]

include hn hd

theorem entry_codesOfTree_of_hasCode {q : List Bool} {x : Symbol} (hx : T.HasCode q x) :
    entry (codesOfTree (nodeAt s) s.root) x = pathCode q := by
  cases hT with
  | leaf hk =>
    obtain ⟨rfl, rfl⟩ := hx
    simp only [codesOfTree, nodeAt_eq hk, entry_setEntry_same]
    rfl
  | node hk hL hR =>
    simp only [codesOfTree, nodeAt_eq hk]
    exact entry_walk_of_path (.node hk hL hR) hn (by omega) hx [] _

/-- A symbol has a code exactly when it is at a leaf (43_code_assigner.md R195 item 1). -/
theorem codesOfTree_len_ne_zero_iff (x : Symbol) :
    (entry (codesOfTree (nodeAt s) s.root) x).len ≠ 0 ↔ x ∈ T.syms := by
  constructor
  · intro h
    by_contra hx
    exact h (by rw [entry_codesOfTree_of_not_mem hT hx])
  · intro h
    obtain ⟨q, hq⟩ := (T.mem_syms_iff_hasCode x).1 h
    rw [entry_codesOfTree_of_hasCode hT hn hd hq]
    exact pathCode_len_ne_zero (hq.length_le hd) hq.ne_nil

/-- The code table of a tree is well-formed (43_code_assigner.md R195, R200). -/
theorem wfTable_codesOfTree : wfTable (codesOfTree (nodeAt s) s.root) := by
  have code : ∀ x, (entry (codesOfTree (nodeAt s) s.root) x).len ≠ 0 →
      ∃ q, T.HasCode q x ∧ q.length ≤ 255 ∧ entry (codesOfTree (nodeAt s) s.root) x = pathCode q := fun x hx => by
    obtain ⟨q, hq⟩ := (T.mem_syms_iff_hasCode x).1 ((codesOfTree_len_ne_zero_iff hT hn hd x).1 hx)
    exact ⟨q, hq, hq.length_le hd, entry_codesOfTree_of_hasCode hT hn hd hq⟩
  refine ⟨?_, fun x hx => ?_, fun x y hxy hx hy => ?_⟩
  · obtain ⟨x, hx⟩ := List.exists_mem_of_length_pos (Nat.zero_lt_of_lt T.depth_lt_length_syms)
    exact ⟨x, (codesOfTree_len_ne_zero_iff hT hn hd x).2 hx⟩
  · obtain ⟨q, -, hl, e⟩ := code x hx
    rw [e, pathCode_len hl, pathCode_val hl]
    exact bitsValue_lt q
  · obtain ⟨q, hq, hql, eq⟩ := code x hx
    obtain ⟨r, hr, hrl, er⟩ := code y hy
    rw [eq, er]
    rintro ⟨hl, hv⟩
    exact hq.not_prefix hr hxy (prefix_of_pathCode hql hrl hl hv)

end

/-! ### The tree that the merges build (42_tree_builder.md R170-R176) -/

/-- The queue of a tree builder stands for a forest over the arena built so far: one tree for each element, with the
given symbols at the leaves together; the arena and the queue leave room for the nodes to come. -/
def Forest (keys : List Symbol) (t : TreeBuilder) : Prop :=
  t.nodes.length + t.queue.length ≤ 512 ∧
    ∃ f : List CodeTree, t.queue.Forall₂ (fun e T => TreeAt t.nodes e.node T) f ∧ (f.flatMap CodeTree.syms).Perm keys

/-- The leaves are the keys of FREQ with their counts (42_tree_builder.md R171). -/
theorem leaves_eq (t : Table Word) : leaves t = (present t).map fun s => .leaf s ((entry t s).zeroExtend 40) := by
  simp only [leaves, present_eq, entries_eq, List.filter_map, List.map_map]
  rfl

/-- The leaves stand for the keys of FREQ, one tree each (42_tree_builder.md R171). -/
theorem startBuilder_forest (t : Table Word) (draws : Nat) : Forest (present t) (startBuilder t draws) := by
  have hlen : (present t).length ≤ 256 := (nsym_eq_keyCount t).trans_le (keyCount_le t)
  refine ⟨?_, (present t).map .leaf, ?_, ?_⟩
  · simp only [startBuilder, length_initialQueue, length_leaves, nsym]
    omega
  · rw [List.forall₂_iff_get]
    refine ⟨by simp [startBuilder, length_leaves, nsym], fun i h1 h2 => ?_⟩
    have hi : i < (present t).length := by simpa using h2
    have hl : i < (leaves t).length := by simpa [length_leaves, nsym] using hi
    have hk : ((startBuilder t draws).queue.get ⟨i, h1⟩).node.toNat = i := by
      simp [startBuilder, initialQueue]; omega
    have hn : (leaves t)[i]? = some (.leaf (present t)[i] ((entry t (present t)[i]).zeroExtend 40)) := by
      simp [leaves_eq, hi]
    rw [List.get_eq_getElem (l := List.map _ _), List.getElem_map]
    exact .leaf (by rw [hk]; exact hn)
  · simp [List.flatMap_map, CodeTree.syms]

/-- A merge puts the tree of the new internal node in the place of the two it joins (42_tree_builder.md R173). -/
theorem mergeStep_forest {tb : TieBreak} {keys : List Symbol} {t : TreeBuilder} (h2 : 2 ≤ t.queue.length)
    (h : Forest keys t) : Forest keys (mergeStep tb t) := by
  obtain ⟨hlen, f, hf, hk⟩ := h
  obtain ⟨l1, l2⟩ := mergeStep_lengths (tb := tb) h2
  obtain ⟨a, b, r1, r2, ha, hb, hp⟩ := extract_two tb t.draws h2
  obtain ⟨f', hf', hp'⟩ := List.perm_comp_forall₂ hp.symm hf
  obtain ⟨A, f1, hA, hf1, rfl⟩ := List.forall₂_cons_left_iff.1 hf'
  obtain ⟨B, f2, hB, hf2, rfl⟩ := List.forall₂_cons_left_iff.1 hf1
  refine ⟨by omega, f2 ++ [.node A B], ?_, ?_⟩
  · rw [mergeStep_eq ha hb]
    refine List.rel_append (hf2.imp fun _ _ hT => hT.append _) (.cons ?_ .nil)
    refine .node (w := a.weight + b.weight) ?_ (hA.append _) (hB.append _)
    simp only [BitVec.toNat_ofNat]
    rw [Nat.mod_eq_of_lt (by omega)]
    simp
  · refine List.Perm.trans ?_ ((hp'.flatMap_right _).trans hk)
    simp only [List.flatMap_append, List.flatMap_cons, List.flatMap_nil, CodeTree.syms, List.append_nil]
    rw [← List.append_assoc A.syms]
    exact List.perm_append_comm

/-- The finished builder: 2n - 1 nodes, and from ROOT on a tree with the keys of FREQ at its leaves. -/
theorem huffman_tree (tb : TieBreak) (t : Table Word) (d : Nat) (hn : nsym t ≠ 0) :
    (huffman tb t d).nodes.length = 2 * nsym t - 1 ∧
      ∃ T, TreeAt (huffman tb t d).nodes (huffman tb t d).root T ∧ T.syms.Perm (present t) := by
  have hq : (startBuilder t d).queue.length = nsym t := by simp [startBuilder, length_leaves]
  have hl : (startBuilder t d).nodes.length = nsym t := length_leaves t
  obtain ⟨hlen, hone⟩ := mergeAll_lengths (tb := tb) (nsym t) (startBuilder t d) (by omega)
  have hle := mergeAll_queue (tb := tb) (nsym t) (t := startBuilder t d) (by omega)
  obtain ⟨-, f, hf, hk⟩ : Forest (present t) (huffman tb t d) :=
    mergeAll_induct (fun _ => mergeStep_forest) (nsym t) (startBuilder_forest t d)
  obtain ⟨e, he⟩ := List.length_eq_one_iff.1 (le_antisymm hle hone)
  have hroot : (huffman tb t d).queue = [e] := he
  refine ⟨by unfold huffman; omega, ?_⟩
  rw [hroot] at hf
  obtain ⟨T, f', hT, hnil, rfl⟩ := List.forall₂_cons_left_iff.1 hf
  cases hnil
  exact ⟨T, by simpa [TreeBuilder.root, hroot] using hT, by simpa using hk⟩

/-- The arena of a finished builder has at most 511 nodes (10_state.md R52). -/
theorem length_huffman_nodes_le (tb : TieBreak) (t : Table Word) (d : Nat) : (huffman tb t d).nodes.length ≤ 511 := by
  by_cases hn : nsym t = 0
  · have hl : (leaves t).length = 0 := by rw [length_leaves, hn]
    simp [huffman, hn, mergeAll, startBuilder, hl]
  · have := (huffman_tree tb t d hn).1
    have := (nsym_eq_keyCount t).trans_le (keyCount_le t)
    omega

theorem nodup_present (t : Table Word) : (present t).Nodup := by
  rw [present_eq]
  exact nodup_symbols.filter _

/-- A state whose tree is current represents, from ROOT on, a tree with the keys of FREQ at its leaves, each once, and
no path of more than 255 edges (42_tree_builder.md R176). -/
theorem State.treeIsCurrent.exists_tree {s : State} (h : s.treeIsCurrent) :
    ∃ T, TreeAt s.nodes s.root T ∧ T.syms.Perm (present s.freq) ∧ T.syms.Nodup ∧ T.depth ≤ 255 := by
  obtain ⟨hn, d, hnodes, hroot, -, -⟩ := h
  obtain ⟨-, T, hT, hp⟩ := huffman_tree s.cfg.tieBreak s.freq d hn
  refine ⟨T, ?_, hp, hp.nodup_iff.2 (nodup_present _), ?_⟩
  · rw [← List.take_append_drop (huffman s.cfg.tieBreak s.freq d).nodes.length s.nodes, hnodes, hroot]
    exact hT.append _
  · have h1 := T.depth_lt_length_syms
    have h2 := (nsym_eq_keyCount s.freq).trans_le (keyCount_le s.freq)
    rw [hp.length_eq] at h1
    unfold nsym at h2
    omega

/-- CODE_ASSIGN of a current tree leaves a well-formed table (43_code_assigner.md R195). -/
theorem State.treeIsCurrent.codes_wf {s : State} (h : s.treeIsCurrent) : codeTableWf (assignCodes s).codes = true := by
  obtain ⟨T, hT, -, hn, hd⟩ := h.exists_tree
  exact (codeTableWf_iff _).2 (wfTable_codesOfTree hT hn hd)

/-- TREE_BUILD leaves the tree of FREQ (42_tree_builder.md R170). -/
theorem buildTree_treeIsCurrent {s : State} (h : nsym s.freq ≠ 0) : (buildTree s).treeIsCurrent :=
  ⟨h, s.tieDraws, by simp, rfl, rfl, rfl⟩

theorem buildTree_length_nodes_le {s : State} (h : s.nodes.length ≤ 511) : (buildTree s).nodes.length ≤ 511 := by
  have := length_huffman_nodes_le s.cfg.tieBreak s.freq s.tieDraws
  simp only [buildTree_nodes, List.length_append, List.length_drop]
  omega

end Sys2Proof.Machine

/-! ## Proofs: what a command's body can do -/

namespace Sys2Proof.Machine

/-- The effect of a command and its report, before the completion record (40_command_lifecycle.md R134). -/
def commandBody : Instr → State → State × Report
  | .nop => nopBody
  | .freqClear => freqClearBody
  | .freqCount => freqCountBody
  | .treeBuild => treeBuildBody
  | .codeAssign => codeAssignBody
  | .buildTable => buildTableBody
  | .compress => compressBody
  | .decompress => decompressBody
  | .codeClear => codeClearBody
  | .tableLoad => tableLoadBody

theorem exec_eq_command (i : Instr) (s : State) : exec i s = command s (commandBody i) := by cases i <;> rfl

/-! ### One inversion lemma for each body with more than one path -/

theorem freqCountBody_cases (s : State) :
    (freqCountBody s).1 = s ∨
      (freqCountBody s).1 = { s with freq := addCounts s.freq (srcBytes s), treeValid := false } := by
  unfold freqCountBody
  split
  · split
    · exact .inl rfl
    · exact .inr rfl
  · exact .inl rfl

theorem treeBuildBody_cases (s : State) :
    (treeBuildBody s).1 = s ∨ nsym s.freq ≠ 0 ∧ (treeBuildBody s).1 = buildTree s := by
  unfold treeBuildBody
  split
  · exact .inl rfl
  · exact .inr ⟨‹_›, rfl⟩

/-- CODE_ASSIGN reports INVARIANT_VIOLATION when its check fails (43_code_assigner.md R193). -/
theorem codeAssignBody_cases (s : State) :
    (codeAssignBody s).1 = s ∨
      s.treeValid = true ∧ (codeAssignBody s).1 = assignCodes s ∧
        (assignOk s = false → (codeAssignBody s).2.err = .invariantViolation) := by
  unfold codeAssignBody
  split
  · exact .inr ⟨‹_›, rfl, fun h => by simp [h, raise]⟩
  · exact .inl rfl

/-- BUILD_TABLE reports INVARIANT_VIOLATION when its check fails (43_code_assigner.md R193, R196). -/
theorem buildTableBody_cases (s : State) :
    (buildTableBody s).1 = s ∨
      s.srcLen ≠ 0 ∧ (buildTableBody s).1 = assignCodes (countAndBuild s) ∧
        (assignOk (countAndBuild s) = false → (buildTableBody s).2.err = .invariantViolation) := by
  unfold buildTableBody
  split
  · split
    · exact .inl rfl
    · exact .inr ⟨‹_›, rfl, fun h => by simp [h, raise]⟩
  · exact .inl rfl

/-- COMPRESS writes at most DST_CAP bytes from DST_ADDR on, inside OUT_MEM (44_bitstream_packer.md R222). -/
theorem compressBody_cases (s : State) :
    (compressBody s).1 = s ∨
      s.dstAddr.toNat + s.dstCap.toNat ≤ s.cfg.outCap ∧
        ∃ m, WritesOnly s.outMem m s.dstAddr.toNat s.dstCap.toNat ∧ (compressBody s).1 = { s with outMem := m } := by
  unfold compressBody
  split_ifs with hsrc hdst hvalid
  · split
    · exact .inl rfl
    · dsimp only
      split
      · exact .inl rfl
      · obtain ⟨hj, hw⟩ := packAll_writes s.codes s.dstAddr.toNat (srcBytes s) s.outMem
        exact .inr ⟨by simpa [dstInRange] using hdst, _, hw.weaken (by omega), rfl⟩
  all_goals exact .inl rfl

/-- DECOMPRESS writes at most DST_CAP bytes from DST_ADDR on, inside OUT_MEM (45_bitstream_unpacker.md R240). -/
theorem decompressBody_cases (s : State) :
    (decompressBody s).1 = s ∨
      s.dstAddr.toNat + s.dstCap.toNat ≤ s.cfg.outCap ∧
        ∃ m, WritesOnly s.outMem m s.dstAddr.toNat s.dstCap.toNat ∧ (decompressBody s).1 = { s with outMem := m } := by
  unfold decompressBody
  split_ifs with hsrc hdst hvalid hcap hzero
  case neg =>
    have hpos : 0 < s.expectCount.toNat := Nat.pos_of_ne_zero fun e => hzero (BitVec.eq_of_toNat_eq e)
    obtain ⟨hw, -, htrue, hfalse⟩ := unpackBits_spec s.codes s.dstAddr.toNat s.expectCount.toNat s.outMem
      (streamBits (srcBytes s)) (u := startUnpacker s.outMem) ⟨WritesOnly.refl _ _⟩ hpos
    refine .inr ⟨by simpa [dstInRange] using hdst, _, hw.out.weaken ?_, rfl⟩
    cases hr : (unpackBits s.codes s.dstAddr.toNat s.expectCount.toNat (streamBits (srcBytes s))
      (startUnpacker s.outMem)).2 with
    | true => have := htrue hr; omega
    | false => have := hfalse hr; omega
  all_goals exact .inl rfl

/-- TABLE_LOAD records whether the code table is well-formed (43_code_assigner.md R202). -/
theorem tableLoadBody_fst (s : State) : (tableLoadBody s).1 = { s with tableValid := codeTableWf s.codes } := by
  unfold tableLoadBody
  split
  · rename_i h; simp [h]
  · rename_i h; simp [h]

/-! ### The invariant -/

theorem nsym_ne_zero_of_entry {t : Table Word} {x : Symbol} (h : entry t x ≠ 0) : nsym t ≠ 0 :=
  (List.length_pos_of_mem ((mem_present t x).2 h)).ne'

/-- The histogram of a source that is not empty has a key (43_code_assigner.md R196). -/
theorem nsym_addCounts_srcBytes_ne_zero {s : State} (h : s.srcLen ≠ 0) :
    nsym (addCounts emptyFreq (srcBytes s)) ≠ 0 := by
  have hpos : 0 < s.srcLen.toNat := Nat.pos_of_ne_zero fun e => h (BitVec.eq_of_toNat_eq e)
  obtain ⟨x, hx⟩ := List.exists_mem_of_length_pos (l := srcBytes s) (by simpa using hpos)
  have h1 : 0 < hist (srcBytes s) x := List.count_pos_iff.2 hx
  have h2 : hist (srcBytes s) x ≤ s.srcLen.toNat :=
    List.count_le_length.trans_eq (length_srcBytes s)
  refine nsym_ne_zero_of_entry (x := x) fun e => ?_
  have := congrArg BitVec.toNat e
  simp [addCounts, emptyFreq] at this
  have := s.srcLen.isLt
  omega

/-- The part of the invariant that does not speak of ERR and FATAL: what a command's body must keep, before the
completion record writes ERR. -/
structure State.TablesOk (s : State) : Prop where
  cfgOk : s.cfg.wf = true
  inOk : s.inMem.wf ∧ Memory.below s.cfg.inCap s.inMem
  outOk : s.outMem.wf ∧ Memory.below s.cfg.outCap s.outMem
  arenaOk : s.nodes.length ≤ 511
  treeOk : s.treeValid = true → s.treeIsCurrent
  tableOk : s.tableValid = true → codeTableWf s.codes = true

theorem State.Inv.tablesOk {s : State} (h : s.Inv) : s.TablesOk :=
  ⟨h.cfgOk, h.inOk, h.outOk, h.arenaOk, h.treeOk, h.tableOk⟩

/-- A completion makes the invariant whole when it reports INVARIANT_VIOLATION in a fatal state. -/
theorem State.TablesOk.completed {s : State} (h : s.TablesOk) {e : ErrCode}
    (he : s.fatal = true → e = .invariantViolation) (rl rb rc : Nat) : (s.completed e.code rl rb rc).Inv where
  cfgOk := h.cfgOk
  inOk := h.inOk
  outOk := h.outOk
  arenaOk := h.arenaOk
  errOk := ⟨e, rfl⟩
  fatalErr hf := congrArg ErrCode.code (he hf)
  treeOk := h.treeOk
  tableOk := h.tableOk

theorem State.TablesOk.buildTree {s : State} (h : s.TablesOk) {f : Table Word} (hf : nsym f ≠ 0) :
    (buildTree { s with freq := f }).TablesOk :=
  { h with
    arenaOk := buildTree_length_nodes_le h.arenaOk
    treeOk := fun _ => buildTree_treeIsCurrent hf }

theorem State.TablesOk.assignCodes {s : State} (h : s.TablesOk) (hv : s.treeValid = true) :
    (assignCodes s).TablesOk :=
  { h with
    treeOk := fun e => nomatch e
    tableOk := fun _ => (h.treeOk hv).codes_wf }

theorem State.TablesOk.writesOut {s : State} (h : s.TablesOk) {m : Memory} {dst n : Nat}
    (hw : WritesOnly s.outMem m dst n) (hn : dst + n ≤ s.cfg.outCap) : State.TablesOk { s with outMem := m } :=
  { h with outOk := ⟨hw.wf h.outOk.1, hw.below _ h.outOk.2 hn⟩ }

/-- The body of every command keeps the tables and buffers as the invariant has them. -/
theorem commandBody_tablesOk (i : Instr) {s : State} (h : s.TablesOk) : (commandBody i s).1.TablesOk := by
  cases i with
  | nop => exact h
  | freqClear => exact { h with treeOk := fun e => nomatch e }
  | freqCount =>
    rcases freqCountBody_cases s with e | e <;> simp only [commandBody, e]
    · exact h
    · exact { h with treeOk := fun e => nomatch e }
  | treeBuild =>
    rcases treeBuildBody_cases s with e | ⟨hn, e⟩ <;> simp only [commandBody, e]
    · exact h
    · exact h.buildTree hn
  | codeAssign =>
    rcases codeAssignBody_cases s with e | ⟨hv, e, -⟩ <;> simp only [commandBody, e]
    · exact h
    · exact h.assignCodes hv
  | buildTable =>
    rcases buildTableBody_cases s with e | ⟨hl, e, -⟩ <;> simp only [commandBody, e]
    · exact h
    · exact (h.buildTree (nsym_addCounts_srcBytes_ne_zero hl)).assignCodes rfl
  | compress =>
    rcases compressBody_cases s with e | ⟨hn, m, hw, e⟩ <;> simp only [commandBody, e]
    · exact h
    · exact h.writesOut hw hn
  | decompress =>
    rcases decompressBody_cases s with e | ⟨hn, m, hw, e⟩ <;> simp only [commandBody, e]
    · exact h
    · exact h.writesOut hw hn
  | codeClear => exact { h with tableOk := fun e => nomatch e }
  | tableLoad =>
    simp only [commandBody, tableLoadBody_fst]
    exact { h with tableOk := id }

/-! ### The frame of every command -/

/-- `u` differs from `s` only in the tables, flags and buffers that command `i` may write (10_state.md R34, R50-R52;
20_memory.md R85). -/
structure WritesOnlyItsTables (i : Instr) (s u : State) : Prop where
  freq : i ∉ [Instr.freqClear, .freqCount, .buildTable] → u.freq = s.freq
  arena : i ∉ [Instr.treeBuild, .buildTable] →
    u.nodes = s.nodes ∧ u.root = s.root ∧ u.nodeCount = s.nodeCount ∧ u.leafCount = s.leafCount ∧
      u.tieDraws = s.tieDraws
  treeValid : i ∉ [Instr.freqClear, .freqCount, .treeBuild, .codeAssign, .buildTable] → u.treeValid = s.treeValid
  codes : i ∉ [Instr.codeAssign, .buildTable, .codeClear] → u.codes = s.codes
  tableValid : i ∉ [Instr.codeAssign, .buildTable, .codeClear, .tableLoad] → u.tableValid = s.tableValid
  fatal : i ∉ [Instr.codeAssign, .buildTable] → u.fatal = s.fatal
  outMem : i ∉ [Instr.compress, .decompress] → u.outMem = s.outMem
  others : u =
    { s with
      freq := u.freq, nodes := u.nodes, root := u.root, nodeCount := u.nodeCount, leafCount := u.leafCount
      tieDraws := u.tieDraws, treeValid := u.treeValid, codes := u.codes, tableValid := u.tableValid
      fatal := u.fatal, outMem := u.outMem }

/-- Every command may change nothing. -/
theorem WritesOnlyItsTables.refl (i : Instr) (s : State) : WritesOnlyItsTables i s s := by
  constructor <;> simp

theorem commandBody_writesOnlyItsTables (i : Instr) (s : State) : WritesOnlyItsTables i s (commandBody i s).1 := by
  cases i with
  | nop => exact .refl _ s
  | freqClear => constructor <;> simp [commandBody, freqClearBody]
  | freqCount =>
    rcases freqCountBody_cases s with e | e <;> simp only [commandBody, e]
    · exact .refl _ s
    · constructor <;> simp
  | treeBuild =>
    rcases treeBuildBody_cases s with e | ⟨-, e⟩ <;> simp only [commandBody, e]
    · exact .refl _ s
    · constructor <;> simp [buildTree]
  | codeAssign =>
    rcases codeAssignBody_cases s with e | ⟨-, e, -⟩ <;> simp only [commandBody, e]
    · exact .refl _ s
    · constructor <;> simp [assignCodes]
  | buildTable =>
    rcases buildTableBody_cases s with e | ⟨-, e, -⟩ <;> simp only [commandBody, e]
    · exact .refl _ s
    · constructor <;> simp [assignCodes, countAndBuild, buildTree]
  | compress =>
    rcases compressBody_cases s with e | ⟨-, m, -, e⟩ <;> simp only [commandBody, e]
    · exact .refl _ s
    · constructor <;> simp
  | decompress =>
    rcases decompressBody_cases s with e | ⟨-, m, -, e⟩ <;> simp only [commandBody, e]
    · exact .refl _ s
    · constructor <;> simp
  | codeClear => constructor <;> simp [commandBody, codeClearBody]
  | tableLoad => constructor <;> simp [commandBody, tableLoadBody_fst]

/-- All that the completion of a command can do: its own tables, then the completion record. -/
theorem exec_cases {i : Instr} {s t : State} (h : exec i s = .next t) :
    ∃ u e rl rb rc, WritesOnlyItsTables i s u ∧ t = u.completed e rl rb rc := by
  rw [exec_eq_command] at h
  rcases command_cases h with ⟨-, rfl⟩ | ⟨-, rfl⟩
  · exact ⟨s, _, _, _, _, .refl i s, rfl⟩
  · exact ⟨_, _, _, _, _, commandBody_writesOnlyItsTables i s, rfl⟩

end Sys2Proof.Machine

/-! ## Proofs: the invariant is kept -/

namespace Sys2Proof.Machine

/-- A failed check of CODE_ASSIGN is the only way into the fatal state, and it is reported (60_exceptions.md R271). -/
theorem commandBody_err_of_fatal (i : Instr) {s : State} (hs : s.fatal = false)
    (h : (commandBody i s).1.fatal = true) : (commandBody i s).2.err = .invariantViolation := by
  by_cases hi : i ∈ [Instr.codeAssign, .buildTable]
  · simp only [List.mem_cons, List.not_mem_nil, or_false] at hi
    rcases hi with rfl | rfl
    · rcases codeAssignBody_cases s with e | ⟨-, e, herr⟩
      · simp [commandBody, e, hs] at h
      · exact herr (by simpa [commandBody, e, hs] using h)
    · rcases buildTableBody_cases s with e | ⟨-, e, herr⟩
      · simp [commandBody, e, hs] at h
      · exact herr (by simpa [commandBody, e, countAndBuild, hs] using h)
  · rw [(commandBody_writesOnlyItsTables i s).fatal hi, hs] at h
    cases h

/-- A completion keeps the invariant (40_command_lifecycle.md R133, R138). -/
theorem command_inv {s t : State} {body : State → State × Report} (h : s.Inv) (ht : command s body = .next t)
    (hbody : (body s).1.TablesOk)
    (herr : s.fatal = false → (body s).1.fatal = true → (body s).2.err = .invariantViolation) : t.Inv := by
  rcases command_cases ht with ⟨-, rfl⟩ | ⟨hf, rfl⟩
  · exact h.tablesOk.completed (e := .invariantViolation) (fun _ => rfl) 0 0 0
  · exact hbody.completed (herr hf) _ _ _

/-- Every completion step keeps the invariant, the word in CUR_CMD legal or not. -/
theorem runCurrent_inv {s t : State} (h : s.Inv) (ht : runCurrent s = .next t) : t.Inv := by
  unfold runCurrent at ht
  split at ht
  · rename_i i _
    rw [exec_eq_command] at ht
    exact command_inv h ht (commandBody_tablesOk i h.tablesOk) (commandBody_err_of_fatal i)
  · exact command_inv h ht h.tablesOk fun hf hf' => absurd (hf.symm.trans hf') (by decide)

/-- A register write keeps the invariant: a write of a count or a code takes back the flag that speaks of it
(41_frequency_counter.md R155, 43_code_assigner.md R205). -/
theorem regWrite_inv {s : State} (h : s.Inv) (r : Reg) (w : Word) : (regWrite s r w).Inv := by
  cases r with
  | freqData => exact { h with treeOk := fun e => nomatch e }
  | codeLen | codeVal => exact { h with tableOk := fun e => nomatch e }
  | _ => exact { h with }

/-- A host write inside a buffer's capacity keeps it canonical and inside that capacity (20_memory.md R86). -/
theorem withBuffer_storeLE_inv {s : State} (h : s.Inv) (b : BufferId) {a n : Nat} (d : Word)
    (hn : a + n ≤ capOf s.cfg b) : (s.withBuffer b (storeLE (bufferOf s b) a d n)).Inv := by
  cases b with
  | input => exact { h with inOk := ⟨storeLE_wf h.inOk.1 _ _ _, storeLE_below h.inOk.2 _ hn⟩ }
  | output => exact { h with outOk := ⟨storeLE_wf h.outOk.1 _ _ _, storeLE_below h.outOk.2 _ hn⟩ }

/-- A host access keeps the invariant, accepted or not. -/
theorem hostStep_inv {s : State} (h : s.Inv) (a : HostAccess) : (hostStep s a).Inv := by
  cases a with
  | read o n =>
    rcases hostRead_cases s o n with ⟨_, -, -, e⟩ | e <;> rw [hostStep, e]
    · exact { h with }
    · exact { h with }
  | write o n d =>
    rcases hostWrite_cases s o n d with ⟨r, -, -, e⟩ | ⟨b, x, hr, -, e⟩ | ⟨-, e⟩ | e <;> rw [hostStep, e]
    · exact { regWrite_inv h r d with }
    · exact { withBuffer_storeLE_inv h b d (resolve_buffer_inv hr).2 with }
    · exact { h with }
    · exact { h with }

/-- Reset keeps the parameters and establishes the rest of the invariant (70_reset_and_hazards.md R290). -/
theorem resetState_inv {s : State} (h : s.cfg.wf = true) : (resetState s).Inv where
  cfgOk := h
  inOk := ⟨.nil, fun _ hc => nomatch hc⟩
  outOk := ⟨.nil, fun _ hc => nomatch hc⟩
  arenaOk := Nat.zero_le _
  errOk := ⟨.ok, rfl⟩
  fatalErr e := nomatch e
  treeOk e := nomatch e
  tableOk e := nomatch e

/-- Settles O59: each kind of step keeps the invariant by itself (a host access, a reset, an idle turn, a completion);
the one deep case is a code table that CODE_ASSIGN or BUILD_TABLE has just made valid, which is well-formed because the
tree it was walked from has every key of FREQ once, at paths of at most 255 edges. -/
theorem everyStepKeepsTheInvariant : Obligations.EveryStepKeepsTheInvariant := by
  unfold Obligations.EveryStepKeepsTheInvariant
  intro s t h hstep
  rcases step_cases hstep with ⟨a, rest, -, rfl⟩ | ⟨rest, -, rfl⟩ | ⟨-, -, rfl⟩ | ⟨-, -, hrun⟩
  · exact hostStep_inv (s := { s with sched := rest }) { h with } a
  · exact resetState_inv h.cfgOk
  · exact { h with }
  · exact runCurrent_inv (s := { s with sched := s.sched.tail }) { h with } hrun

/-- Settles O58: the state after reset meets the invariant as any reset leaves it, and FATAL is 0. -/
theorem resetIsSafe : Obligations.ResetIsSafe := by
  unfold Obligations.ResetIsSafe
  exact ⟨{ resetState_inv (s := State.reset) (by decide) with }, rfl⟩

/-! ## Proofs: what a command leaves alone -/

/-- Settles O27: a command writes only its own tables and the completion record. -/
theorem noCommandWritesOperandsOrInput : Obligations.NoCommandWritesOperandsOrInput := by
  unfold Obligations.NoCommandWritesOperandsOrInput
  intro i s t h
  obtain ⟨u, e, rl, rb, rc, hw, rfl⟩ := exec_cases h
  rw [hw.others]
  simp

/-- Settles O28: each table, flag and buffer is kept by the commands that do not write it, and the completion record
touches none of them. -/
theorem onlyTheNamedCommandsWriteEachTable : Obligations.OnlyTheNamedCommandsWriteEachTable := by
  unfold Obligations.OnlyTheNamedCommandsWriteEachTable
  intro i s t h
  obtain ⟨u, e, rl, rb, rc, hw, rfl⟩ := exec_cases h
  exact ⟨hw.freq, hw.arena, hw.treeValid, hw.codes, hw.tableValid, hw.fatal, hw.outMem⟩

end Sys2Proof.Machine

/-! ## Proofs: the host port -/

namespace Sys2Proof.Machine

/-! ### Accepted accesses -/

theorem step_of_host {s : State} {a : HostAccess} {rest : List Event} (h : s.sched = .host a :: rest) :
    step s = .next (hostStep { s with sched := rest } a) := by
  simp [step, nextEvent, popEvent, h, runEvent]

/-- An accepted read changes the response alone (20_memory.md R86, R90, R92). -/
theorem hostRead_of_accepted {s : State} {o : Word} {n : AccessSize} {t : Target} (hr : resolve s.cfg o n = some t)
    (hb : s.busy = true → readableWhileBusy t = true) :
    hostRead s o n = { s with resp := some (targetRead s n t) } := by
  cases h : s.busy with
  | false => simp [hostRead, hr, h]
  | true => simp [hostRead, hr, h, hb h]

/-- An accepted write has its target's effect and no response (20_memory.md R86, R90). -/
theorem hostWrite_of_accepted {s : State} {o : Word} {n : AccessSize} {t : Target} (hr : resolve s.cfg o n = some t)
    (hb : s.busy = true → writableWhileBusy t = true) (d : Word) :
    hostWrite s o n d = { targetWrite s n d t with resp := none } := by
  cases h : s.busy with
  | false => simp [hostWrite, hr, h]
  | true =>
    have ht : t ≠ .reg .cmd := by rintro rfl; exact absurd (hb h) (by decide)
    simp [hostWrite, hr, h, hb h, ht]

/-- A step that is an accepted read of a register. -/
theorem step_regRead {s : State} {r : Reg} {rest : List Event} (h : s.sched = .host (.read r.offset .word) :: rest)
    (hb : s.busy = true → readableWhileBusy (.reg r) = true) :
    step s = .next { s with sched := rest, resp := some (regRead s r) } := by
  rw [step_of_host h, hostStep, hostRead_of_accepted (s := { s with sched := rest }) (resolve_offset _ r) hb]
  cases r <;> rfl

/-- A step that is an accepted write of a register. -/
theorem step_regWrite {s : State} {r : Reg} {w : Word} {rest : List Event}
    (h : s.sched = .host (.write r.offset .word w) :: rest)
    (hb : s.busy = true → writableWhileBusy (.reg r) = true) :
    step s = .next { regWrite { s with sched := rest } r w with resp := none } := by
  rw [step_of_host h, hostStep, hostWrite_of_accepted (s := { s with sched := rest }) (resolve_offset _ r) hb]
  rfl

/-- Settles O12: the read is accepted, and an accepted read sets nothing but the response. -/
theorem registerReadsHaveNoSideEffect : Obligations.RegisterReadsHaveNoSideEffect := by
  unfold Obligations.RegisterReadsHaveNoSideEffect
  intro s r rest h hb
  refine step_regRead h fun hbusy => ?_
  rcases hb hbusy with rfl | rfl | rfl | rfl <;> rfl

/-- The write-one-to-clear of INT_STATUS, bit by bit (10_state.md R42). -/
theorem acknowledge_intStatus_getLsbD (s : State) (w : Word) {j : Nat} (hj : j < 4) :
    (acknowledge s w).intStatus.getLsbD j = (s.intStatus.getLsbD j && !w.getLsbD j) := by
  simp [hj]

/-- Settles O18: each write is accepted, and an accepted write has the register's own effect. -/
theorem registerWritesHaveExactlyTheirEffect : Obligations.RegisterWritesHaveExactlyTheirEffect := by
  unfold Obligations.RegisterWritesHaveExactlyTheirEffect
  intro s r w rest h
  refine ⟨?_, ?_, fun hb => ?_⟩
  · rintro rfl
    exact step_regWrite h fun _ => rfl
  · rintro rfl
    exact ⟨_, step_regWrite h fun _ => rfl, fun j hj => acknowledge_intStatus_getLsbD _ w hj⟩
  · have idle := step_regWrite h fun hb' => absurd (hb.symm.trans hb') (by decide)
    refine ⟨?_, ?_, ?_, ?_, ?_, ?_, ?_, fun hr => ?_⟩
    iterate 7
      rintro rfl
      exact idle
    simp only [List.mem_cons, List.not_mem_nil, or_false] at hr
    rcases hr with rfl | rfl | rfl | rfl | rfl | rfl | rfl | rfl | rfl | rfl <;> exact idle

/-! ### CUR_CMD while BUSY = 0 (10_state.md R57, R61) -/

theorem targetRead_curCmd (s : State) (v : Word) (n : AccessSize) (t : Target) :
    targetRead { s with curCmd := v } n t = targetRead s n t := by
  cases t with
  | reg r => cases r <;> rfl
  | buffer b a =>
    simp only [targetRead, leValue_eq_sum]
    cases b <;> rfl

/-- A read neither uses nor changes CUR_CMD, and it starts no command. -/
theorem hostRead_curCmd (s : State) (v : Word) (o : Word) (n : AccessSize) :
    hostRead { s with curCmd := v } o n = { hostRead s o n with curCmd := v } ∧ (hostRead s o n).busy = s.busy := by
  constructor
  · unfold hostRead
    dsimp only
    split
    · rfl
    · split
      · rfl
      · rw [targetRead_curCmd]
  · rcases hostRead_cases s o n with ⟨_, -, -, e⟩ | e <;> rw [e]

/-- A register write does not use CUR_CMD; from an idle block it is a command's issue that sets CUR_CMD, or BUSY
stays 0. -/
theorem regWrite_curCmd {s : State} (hb : s.busy = false) (v : Word) (r : Reg) (w : Word) :
    ∃ v', regWrite { s with curCmd := v } r w = { regWrite s r w with curCmd := v' } ∧
      ((regWrite s r w).busy = true → v' = (regWrite s r w).curCmd) := by
  have idle : ¬ s.busy = true := by simp [hb]
  cases r with
  | cmd => exact ⟨w, rfl, fun _ => rfl⟩
  | _ => exact ⟨v, rfl, fun h => absurd h idle⟩

/-- A host access to an idle block does not use CUR_CMD. -/
theorem hostStep_curCmd {s : State} (hb : s.busy = false) (v : Word) (a : HostAccess) :
    ∃ v', hostStep { s with curCmd := v } a = { hostStep s a with curCmd := v' } ∧
      ((hostStep s a).busy = true → v' = (hostStep s a).curCmd) := by
  have idle : ¬ s.busy = true := by simp [hb]
  cases a with
  | read o n =>
    obtain ⟨e, hbusy⟩ := hostRead_curCmd s v o n
    exact ⟨v, e, fun h => absurd (hbusy.symm.trans h) idle⟩
  | write o n d =>
    simp only [hostStep]
    cases hr : resolve s.cfg o n with
    | none =>
      refine ⟨v, ?_, fun h => ?_⟩
      · simp [hostWrite, hr, reject, raiseInt]
      · simp [hostWrite, hr, reject, hb] at h
    | some t =>
      rw [hostWrite_of_accepted (s := { s with curCmd := v }) hr (absurd · idle),
        hostWrite_of_accepted hr (absurd · idle)]
      cases t with
      | reg r =>
        obtain ⟨v', e, hv⟩ := regWrite_curCmd hb v r d
        exact ⟨v', by simp only [targetWrite, e], hv⟩
      | buffer b x => cases b <;> exact ⟨v, rfl, fun h => absurd h idle⟩

/-- Settles O9: of the three kinds of step from an idle block only a host access can set BUSY, and then it is a CMD
write, which latches its own word. -/
theorem idleStepDoesNotReadCurCmd : Obligations.IdleStepDoesNotReadCurCmd := by
  unfold Obligations.IdleStepDoesNotReadCurCmd
  intro s t w hb hstep
  have idle : ¬ s.busy = true := by simp [hb]
  unfold step at hstep ⊢
  have hn : nextEvent { s with curCmd := w } = nextEvent s := rfl
  rw [hn]
  cases he : nextEvent s with
  | host a =>
    rw [he] at hstep
    obtain rfl := Host.Outcome.next.inj hstep
    obtain ⟨v, e, hv⟩ := hostStep_curCmd (s := popEvent s) hb w a
    exact ⟨v, congrArg Host.Outcome.next e, hv⟩
  | block =>
    rw [he] at hstep
    have turn : ∀ u : State, u.busy = false → runEvent .block u = .next u := fun u hu => by
      simp [runEvent, blockTurn, hu]
    rw [turn (popEvent s) hb] at hstep
    obtain rfl := Host.Outcome.next.inj hstep
    exact ⟨w, turn _ hb, fun h => absurd h idle⟩
  | reset =>
    rw [he] at hstep
    obtain rfl := Host.Outcome.next.inj hstep
    exact ⟨_, rfl, fun _ => rfl⟩

/-! ### What the registers read as -/

/-- Settles O14: NSYM is a count of at most 256, so it fits its register. -/
theorem nsymCountsTheKeys : Obligations.NsymCountsTheKeys := by
  unfold Obligations.NsymCountsTheKeys
  intro s
  have h := keyCount_le s.freq
  refine ⟨?_, h⟩
  simp only [regRead, BitVec.toNat_ofNat, nsym_eq_keyCount]
  omega

/-- Bit fields side by side, as a number. -/
theorem toNat_append_eq_add {n m : Nat} (x : BitVec n) (y : BitVec m) :
    (x ++ y).toNat = x.toNat * 2 ^ m + y.toNat := by
  rw [BitVec.toNat_append, ← Nat.shiftLeft_add_eq_or_of_lt y.isLt, Nat.shiftLeft_eq]

/-- STATUS as a number: ERR, a zero field, and the four flags. -/
theorem statusWord_toNat (s : State) :
    (statusWord s).toNat =
      s.err.toNat * 2 ^ 8 + s.fatal.toNat * 8 + s.tableValid.toNat * 4 + s.treeValid.toNat * 2 + s.busy.toNat := by
  simp only [statusWord, toNat_append_eq_add, BitVec.toNat_ofBool, BitVec.ofNat_eq_ofNat, BitVec.toNat_ofNat]
  omega

/-- A field of STATUS, as a number. -/
theorem statusWord_extract_toNat (s : State) (start len : Nat) :
    ((statusWord s).extractLsb' start len).toNat = (statusWord s).toNat / 2 ^ start % 2 ^ len := by
  rw [BitVec.extractLsb'_toNat, Nat.shiftRight_eq_div_pow]

/-- The fields of STATUS (10_state.md R40): [3:0] the flags, [15:8] ERR, every other bit 0. -/
theorem statusWord_fields (s : State) :
    (statusWord s).getLsbD 0 = s.busy ∧ (statusWord s).getLsbD 1 = s.treeValid ∧
      (statusWord s).getLsbD 2 = s.tableValid ∧ (statusWord s).getLsbD 3 = s.fatal ∧
      (statusWord s).extractLsb' 4 4 = 0 ∧ (statusWord s).extractLsb' 8 8 = s.err ∧
      (statusWord s).extractLsb' 16 16 = 0 := by
  have hbusy := s.busy.toNat_le
  have htree := s.treeValid.toNat_le
  have htable := s.tableValid.toNat_le
  have hfatal := s.fatal.toNat_le
  have herr := s.err.isLt
  refine ⟨?_, ?_, ?_, ?_, BitVec.eq_of_toNat_eq ?_, BitVec.eq_of_toNat_eq ?_, BitVec.eq_of_toNat_eq ?_⟩
  iterate 4
    simp only [statusWord, BitVec.getLsbD_append]
    simp
  · rw [statusWord_extract_toNat, statusWord_toNat, BitVec.ofNat_eq_ofNat, BitVec.toNat_zero]; omega
  · rw [statusWord_extract_toNat, statusWord_toNat]; omega
  · rw [statusWord_extract_toNat, statusWord_toNat, BitVec.ofNat_eq_ofNat, BitVec.toNat_zero]; omega

/-- Settles O13: STATUS by its fields, the windows and the zero-extended registers bit by bit or as numbers, every other
register by its definition. -/
theorem registersReadTheirFields : Obligations.RegistersReadTheirFields := by
  unfold Obligations.RegistersReadTheirFields
  intro s
  have zext : ∀ {n : Nat} (x : BitVec n), n ≤ 32 → (x.zeroExtend 32).toNat = x.toNat := fun x hn =>
    BitVec.toNat_setWidth_of_le hn
  obtain ⟨hbusy, htree, htable, hfatal, hz4, herr, hz16⟩ := statusWord_fields s
  refine ⟨rfl, rfl, hbusy, htree, htable, hfatal, hz4, herr, hz16, ?_, ?_, rfl, rfl, rfl, rfl, rfl, rfl, rfl, rfl, ?_,
    ?_, rfl, ?_, fun k j hj => ?_⟩
  iterate 5 exact zext _ (by decide)
  simp [regRead, codeValSlice, hj]

theorem nodeInfoOf_leaf_toNat (sym : Symbol) (w : Weight) :
    (nodeInfoOf (.leaf sym w)).toNat = 2 ^ 31 + sym.toNat := by
  simp only [nodeInfoOf, toNat_append_eq_add, BitVec.ofNat_eq_ofNat, BitVec.toNat_ofNat]
  omega

theorem nodeInfoOf_internal_toNat (l r : NodeIdx) (w : Weight) :
    (nodeInfoOf (.internal l r w)).toNat = 2 ^ 31 + 2 ^ 30 + r.toNat * 2 ^ 16 + l.toNat := by
  simp only [nodeInfoOf, toNat_append_eq_add, BitVec.ofNat_eq_ofNat, BitVec.toNat_ofNat]
  omega

theorem nodeVisible_iff (s : State) :
    nodeVisible s = true ↔ s.treeValid = true ∧ s.nodeIndex.toNat < s.nodeCount.toNat := by
  simp [nodeVisible]

/-- Settles O15: each window is its encoding of the node while the node is visible, and 0 otherwise. -/
theorem treeWindowsShowTheValidTree : Obligations.TreeWindowsShowTheValidTree := by
  unfold Obligations.TreeWindowsShowTheValidTree
  intro s
  rw [← nodeVisible_iff]
  refine ⟨fun hv => ⟨fun sym w e => ?_, fun l r w e => ?_, ?_, ?_⟩, fun hv => ?_, fun ht => ?_, fun ht => ?_⟩
  · simp only [regRead, nodeInfoWord, hv, if_true, e, nodeInfoOf_leaf_toNat]
  · simp only [regRead, nodeInfoWord, hv, if_true, e, nodeInfoOf_internal_toNat]
  · simp [regRead, nodeWeightLoWord, hv]
  · have := (nodeAt s s.nodeIndex).weight.isLt
    simp [regRead, nodeWeightHiWord, hv, Nat.shiftRight_eq_div_pow]
    omega
  · simp [regRead, nodeInfoWord, nodeWeightLoWord, nodeWeightHiWord, hv]
  · simp only [regRead, treeInfoWord, ht, if_true, toNat_append_eq_add, BitVec.ofNat_eq_ofNat, BitVec.toNat_ofNat]
    omega
  · simp [regRead, treeInfoWord, ht]

end Sys2Proof.Machine

/-! ## Proofs: rejected accesses, buffer accesses and the busy port -/

namespace Sys2Proof.Machine

/-! ### The BUSY gate (20_memory.md R90) -/

theorem readableWhileBusy_iff (t : Target) :
    readableWhileBusy t = true ↔ t = .reg .id ∨ t = .reg .status ∨ t = .reg .intEnable ∨ t = .reg .intStatus := by
  cases t with
  | reg r => cases r <;> simp [readableWhileBusy]
  | buffer b a => simp [readableWhileBusy]

theorem writableWhileBusy_iff (t : Target) :
    writableWhileBusy t = true ↔ t = .reg .intEnable ∨ t = .reg .intStatus := by
  cases t with
  | reg r => cases r <;> simp [writableWhileBusy]
  | buffer b a => simp [writableWhileBusy]

/-- The reads that the machine lets through are those that R90 names by their offsets. -/
theorem passesBusyGate_read {c : Config} {o : Word} {n : AccessSize} {t : Target} (hr : resolve c o n = some t)
    (ht : readableWhileBusy t = true) : passesBusyGate (.read o n) := by
  rcases (readableWhileBusy_iff t).1 ht with rfl | rfl | rfl | rfl <;>
    simp [passesBusyGate, (resolve_reg hr).1, Reg.offset]

/-- The writes that the machine lets through are those that R90 names by their offsets. -/
theorem passesBusyGate_write {c : Config} {o : Word} {n : AccessSize} {t : Target} (hr : resolve c o n = some t)
    (ht : writableWhileBusy t = true) (d : Word) : passesBusyGate (.write o n d) := by
  rcases (writableWhileBusy_iff t).1 ht with rfl | rfl <;>
    simp [passesBusyGate, (resolve_reg hr).1, Reg.offset]

/-! ### Rejected accesses and overruns -/

/-- A read is rejected when it names nothing or the BUSY gate stops it (20_memory.md R87, R90). -/
theorem hostRead_of_rejected {s : State} {o : Word} {n : AccessSize}
    (h : ∀ t, resolve s.cfg o n = some t → s.busy = true ∧ ¬ readableWhileBusy t = true) :
    hostRead s o n = { reject s with resp := some 0 } := by
  unfold hostRead
  split
  · rfl
  · rename_i t ht
    obtain ⟨hb, hgate⟩ := h t ht
    simp [hb, hgate]

/-- A write is rejected when it names nothing or the BUSY gate stops it, a CMD write apart (20_memory.md R87, R90). -/
theorem hostWrite_of_rejected {s : State} {o : Word} {n : AccessSize}
    (h : ∀ t, resolve s.cfg o n = some t → s.busy = true ∧ ¬ writableWhileBusy t = true ∧ t ≠ .reg .cmd) (d : Word) :
    hostWrite s o n d = { reject s with resp := none } := by
  unfold hostWrite
  split
  · rfl
  · rename_i t ht
    obtain ⟨hb, hgate, hcmd⟩ := h t ht
    simp [hb, hgate, hcmd]

/-- A CMD write while BUSY = 1 is an overrun (40_command_lifecycle.md R131). -/
theorem hostWrite_of_overrun {s : State} {o : Word} {n : AccessSize} (hr : resolve s.cfg o n = some (.reg .cmd))
    (hb : s.busy = true) (d : Word) : hostWrite s o n d = { overrun s with resp := none } := by
  simp [hostWrite, hr, hb]

/-- A well-placed access that is not accepted is stopped by the BUSY gate. -/
theorem busy_of_not_accepted {s : State} {a : HostAccess} (h : ¬ accepted s a)
    (hw : wellPlaced s.cfg (accessOffset a) (accessBytes a)) : s.busy = true ∧ ¬ passesBusyGate a := by
  simpa [accepted, hw] using h

theorem wellPlaced_of_resolve {c : Config} {o : Word} {n : AccessSize} {t : Target} (hr : resolve c o n = some t) :
    wellPlaced c o.toNat n.bytes := by
  by_contra hw
  rw [(resolve_none c o n).2 hw] at hr
  cases hr

/-- An access that R86 does not accept is rejected, a CMD write while BUSY = 1 apart (20_memory.md R87). -/
theorem hostStep_of_not_accepted {s : State} {a : HostAccess} (h : ¬ accepted s a)
    (hcmd : ¬ (s.busy = true ∧ ∃ n d, a = .write 0x008 n d)) :
    hostStep s a = { reject s with resp := rejectedResponse a } := by
  cases a with
  | read o n =>
    refine hostRead_of_rejected fun t hr => ?_
    obtain ⟨hb, hgate⟩ := busy_of_not_accepted h (wellPlaced_of_resolve hr)
    exact ⟨hb, fun ht => hgate (passesBusyGate_read hr ht)⟩
  | write o n d =>
    refine hostWrite_of_rejected (fun t hr => ?_) d
    obtain ⟨hb, hgate⟩ := busy_of_not_accepted h (wellPlaced_of_resolve hr)
    refine ⟨hb, fun ht => hgate (passesBusyGate_write hr ht d), ?_⟩
    rintro rfl
    obtain ⟨rfl, -⟩ := resolve_reg hr
    exact hcmd ⟨hb, n, d, rfl⟩

/-- Settles O11: what `accepted` writes out by offsets is what the machine resolves and lets through, so the access is
rejected. -/
theorem rejectedAccessSetsOnlyAccessErr : Obligations.RejectedAccessSetsOnlyAccessErr := by
  unfold Obligations.RejectedAccessSetsOnlyAccessErr
  intro s a rest hs h hcmd
  rw [step_of_host hs, hostStep_of_not_accepted (s := { s with sched := rest }) h hcmd]
  rfl

/-! ### Buffer accesses (20_memory.md R82) -/

@[simp] theorem byteAt_withBuffer (s : State) (b : BufferId) (m : Memory) (x : Nat) :
    byteAt (s.withBuffer b m) b x = (memGet m x).getD (Config.resetByte b s.epoch x) := by cases b <;> rfl

/-- A little-endian store of `n` bytes, read back byte by byte: its own bytes, and every other byte kept. -/
theorem byteAt_withBuffer_storeLE (s : State) (b : BufferId) (a : Nat) (d : Word) (n x : Nat) :
    byteAt (s.withBuffer b (storeLE (bufferOf s b) a d n)) b x =
      if a ≤ x ∧ x < a + n then d.extractLsb' (8 * (x - a)) 8 else byteAt s b x := by
  rw [byteAt_withBuffer, memGet_storeLE]
  split <;> rfl

/-- The value of a read fits the response. -/
theorem leValue_bytes_lt (s : State) (b : BufferId) (a : Nat) (n : AccessSize) :
    leValue s b a n.bytes < 2 ^ 32 := by
  have hn : n.bytes ≤ 4 := by cases n <;> decide
  exact (leValue_lt s b a n.bytes).trans_le (Nat.pow_le_pow_right (by decide) (by omega))

/-- Settles O19: the access is accepted; a write is one little-endian store, a read the little-endian value. -/
theorem bufferAccessesAreLittleEndian : Obligations.BufferAccessesAreLittleEndian := by
  unfold Obligations.BufferAccessesAreLittleEndian
  intro s b a n rest hc hb ha hl
  have hr := resolve_bufferOffset hc ha hl
  have idle : ¬ s.busy = true := by simp [hb]
  refine ⟨fun d hs => ⟨storeLE (bufferOf s b) a d n.bytes, ?_, fun hm => storeLE_wf hm a d n.bytes,
    byteAt_withBuffer_storeLE s b a d n.bytes⟩, fun hs => ⟨BitVec.ofNat 32 (leValue s b a n.bytes), ?_, ?_⟩⟩
  · rw [step_of_host hs, hostStep, hostWrite_of_accepted (s := { s with sched := rest }) hr (absurd · idle)]
    cases b <;> rfl
  · rw [step_of_host hs, hostStep, hostRead_of_accepted (s := { s with sched := rest }) hr (absurd · idle),
      targetRead, leValue_eq_sum, leValue_eq_sum]
    rfl
  · rw [BitVec.toNat_ofNat, Nat.mod_eq_of_lt (leValue_bytes_lt s b a n), leValue_eq_sum]

/-! ### What the port shows of a busy block (20_memory.md R95, 40_command_lifecycle.md R139) -/

/-- Two busy blocks with the same parameters that agree on STATUS, INT_ENABLE and INT_STATUS. -/
structure SameBusyView (s s' : State) : Prop where
  cfg : s.cfg = s'.cfg
  busy : s.busy = true
  busy' : s'.busy = true
  status : regRead s .status = regRead s' .status
  intEnable : s.intEnable = s'.intEnable
  intStatus : s.intStatus = s'.intStatus

theorem SameBusyView.setResp {s s' : State} (h : SameBusyView s s') (r : Option Word) :
    SameBusyView { s with resp := r } { s' with resp := r } := { h with }

theorem SameBusyView.raiseInt {s s' : State} (h : SameBusyView s s') (i : IntSource) :
    SameBusyView (raiseInt s i) (raiseInt s' i) := { h with intStatus := congrArg (pend · i) h.intStatus }

/-- A read that passes the BUSY gate returns a constant or one of the three registers. -/
theorem SameBusyView.targetRead {s s' : State} (h : SameBusyView s s') (n : AccessSize) {t : Target}
    (ht : readableWhileBusy t = true) : targetRead s n t = targetRead s' n t := by
  rcases (readableWhileBusy_iff t).1 ht with rfl | rfl | rfl | rfl
  · rfl
  · exact h.status
  · exact congrArg (BitVec.zeroExtend 32) h.intEnable
  · exact congrArg (BitVec.zeroExtend 32) h.intStatus

/-- A write that passes the BUSY gate replaces INT_ENABLE or clears bits of INT_STATUS. -/
theorem SameBusyView.targetWrite {s s' : State} (h : SameBusyView s s') (n : AccessSize) (d : Word) {t : Target}
    (ht : writableWhileBusy t = true) : SameBusyView (targetWrite s n d t) (targetWrite s' n d t) := by
  rcases (writableWhileBusy_iff t).1 ht with rfl | rfl
  · exact { h with intEnable := rfl }
  · exact { h with intStatus := congrArg (· &&& ~~~(d.extractLsb' 0 4)) h.intStatus }

/-- Both blocks let the same reads through, and a rejected one returns 0 and raises the same bit. -/
theorem SameBusyView.hostRead {s s' : State} (h : SameBusyView s s') (o : Word) (n : AccessSize) :
    (hostRead s o n).resp = (hostRead s' o n).resp ∧ SameBusyView (hostRead s o n) (hostRead s' o n) := by
  by_cases hacc : ∃ t, resolve s.cfg o n = some t ∧ readableWhileBusy t = true
  · obtain ⟨t, hr, ht⟩ := hacc
    rw [hostRead_of_accepted hr fun _ => ht, hostRead_of_accepted (h.cfg ▸ hr) fun _ => ht, h.targetRead n ht]
    exact ⟨rfl, h.setResp _⟩
  · have hstop : ∀ t, resolve s.cfg o n = some t → ¬ readableWhileBusy t = true :=
      fun t hr ht => hacc ⟨t, hr, ht⟩
    rw [hostRead_of_rejected fun t hr => ⟨h.busy, hstop t hr⟩,
      hostRead_of_rejected fun t hr => ⟨h.busy', hstop t (h.cfg ▸ hr)⟩]
    exact ⟨rfl, (h.raiseInt .accessErr).setResp (some 0)⟩

/-- Both blocks accept, drop or reject the same writes. -/
theorem SameBusyView.hostWrite {s s' : State} (h : SameBusyView s s') (o : Word) (n : AccessSize) (d : Word) :
    (hostWrite s o n d).resp = (hostWrite s' o n d).resp ∧
      SameBusyView (hostWrite s o n d) (hostWrite s' o n d) := by
  by_cases hacc : ∃ t, resolve s.cfg o n = some t ∧ writableWhileBusy t = true
  · obtain ⟨t, hr, ht⟩ := hacc
    rw [hostWrite_of_accepted hr fun _ => ht, hostWrite_of_accepted (h.cfg ▸ hr) fun _ => ht]
    exact ⟨rfl, (h.targetWrite n d ht).setResp none⟩
  by_cases hcmd : resolve s.cfg o n = some (.reg .cmd)
  · rw [hostWrite_of_overrun hcmd h.busy, hostWrite_of_overrun (h.cfg ▸ hcmd) h.busy']
    exact ⟨rfl, (h.raiseInt .cmdOverrun).setResp none⟩
  · have hstop : ∀ t, resolve s.cfg o n = some t → ¬ writableWhileBusy t = true ∧ t ≠ .reg .cmd :=
      fun t hr => ⟨fun ht => hacc ⟨t, hr, ht⟩, fun e => hcmd (e ▸ hr)⟩
    rw [hostWrite_of_rejected fun t hr => ⟨h.busy, hstop t hr⟩,
      hostWrite_of_rejected fun t hr => ⟨h.busy', hstop t (h.cfg ▸ hr)⟩]
    exact ⟨rfl, (h.raiseInt .accessErr).setResp none⟩

theorem SameBusyView.hostStep {s s' : State} (h : SameBusyView s s') (a : HostAccess) :
    (hostStep s a).resp = (hostStep s' a).resp ∧ SameBusyView (hostStep s a) (hostStep s' a) := by
  cases a with
  | read o n => exact h.hostRead o n
  | write o n d => exact h.hostWrite o n d

/-- Settles O20: the same access to two busy blocks with the same view is answered alike and keeps the view the same. -/
theorem busyHostReadsSeeOnlyStatus : Obligations.BusyHostReadsSeeOnlyStatus := by
  unfold Obligations.BusyHostReadsSeeOnlyStatus
  intro s s' t t' a rest rest' hs hs' hcfg hb hb' hstatus hen hint ht ht'
  obtain rfl := Host.Outcome.next.inj ((step_of_host hs).symm.trans ht)
  obtain rfl := Host.Outcome.next.inj ((step_of_host hs').symm.trans ht')
  have view : SameBusyView { s with sched := rest } { s' with sched := rest' } := ⟨hcfg, hb, hb', hstatus, hen, hint⟩
  obtain ⟨hresp, hview⟩ := view.hostStep a
  exact ⟨hresp, hview.intStatus, hview.intEnable, hview.status⟩

end Sys2Proof.Machine

/-! ## Proofs: the decoder and the encoder (30_encoding.md R110-R115) -/

namespace Sys2Proof

/-- A word is its reserved field followed by its opcode field (30_encoding.md R110). -/
theorem reservedField_append_opcodeField (w : Word) : reservedField w ++ opcodeField w = w := by
  rw [reservedField, opcodeField, BitVec.extractLsb'_append_extractLsb'_eq_extractLsb' (by decide)]
  exact BitVec.extractLsb'_eq_self

theorem word_ext_fields {w v : Word} (hr : reservedField w = reservedField v) (ho : opcodeField w = opcodeField v) :
    w = v := by
  rw [← reservedField_append_opcodeField w, ← reservedField_append_opcodeField v, hr, ho]

/-- The opcode map, by its two outcomes: the command with that opcode up to 0x09, nothing above (30_encoding.md R112). -/
theorem instrOfOpcode_cases (b : BitVec 8) :
    (∃ i, instrOfOpcode b = some i ∧ i.opcode = b ∧ b.toNat ≤ 9) ∨ (instrOfOpcode b = none ∧ 9 < b.toNat) := by
  unfold instrOfOpcode
  split
  case h_11 =>
    refine .inr ⟨rfl, ?_⟩
    simp only [imp_false] at *
    omega
  all_goals
    rename_i hb
    exact .inl ⟨_, rfl, BitVec.eq_of_toNat_eq hb.symm, by omega⟩

/-- The form of every command word, from the law of its constructor. -/
theorem encodingForm (i : Instr) : Laws.EncodingForm.Statement i := by
  cases i with
  | nop => exact Laws.EncodingForm.nop
  | freqClear => exact Laws.EncodingForm.freqClear
  | freqCount => exact Laws.EncodingForm.freqCount
  | treeBuild => exact Laws.EncodingForm.treeBuild
  | codeAssign => exact Laws.EncodingForm.codeAssign
  | buildTable => exact Laws.EncodingForm.buildTable
  | compress => exact Laws.EncodingForm.compress
  | decompress => exact Laws.EncodingForm.decompress
  | codeClear => exact Laws.EncodingForm.codeClear
  | tableLoad => exact Laws.EncodingForm.tableLoad

@[simp] theorem instrOfOpcode_opcode (i : Instr) : instrOfOpcode i.opcode = some i := by cases i <;> rfl

/-- The decoder inverts the encoder (30_encoding.md R112, R113). -/
@[simp] theorem decode_encode (i : Instr) : decode (encode i) = .ok i := by
  obtain ⟨-, hres, hopc, -⟩ := encodingForm i
  simp [decode, hres, hopc]

/-- The three branches of the decoder (30_encoding.md R113, R114). -/
theorem decode_cases (w : Word) :
    (reservedField w ≠ 0 ∧ decode w = .error .reservedBitsSet) ∨
    (reservedField w = 0 ∧ (opcodeField w).toNat ≤ 9 ∧ ∃ i, decode w = .ok i ∧ i.opcode = opcodeField w) ∨
    (reservedField w = 0 ∧ 9 < (opcodeField w).toNat ∧ decode w = .error .opcodeUnassigned) := by
  by_cases hres : reservedField w = 0
  · rcases instrOfOpcode_cases (opcodeField w) with ⟨i, hi, hopc, hle⟩ | ⟨hnone, hlt⟩
    · exact .inr (.inl ⟨hres, hle, i, by simp [decode, hres, hi], hopc⟩)
    · exact .inr (.inr ⟨hres, hlt, by simp [decode, hres, hnone]⟩)
  · exact .inl ⟨hres, if_pos hres⟩

/-- A word that decodes to a command has a zero reserved field and that command's opcode. -/
theorem fields_of_decode_ok {w : Word} {i : Instr} (h : decode w = .ok i) :
    reservedField w = 0 ∧ opcodeField w = i.opcode := by
  rcases decode_cases w with ⟨-, e⟩ | ⟨hres, -, j, e, hopc⟩ | ⟨-, -, e⟩ <;> rw [e] at h <;> cases h
  exact ⟨hres, hopc.symm⟩

/-- Settles O3: a word is determined by its two fields, and those of a word that decodes to `i` are those of
`encode i`. -/
theorem decodeAndEncodeAgree : Obligations.DecodeAndEncodeAgree := by
  unfold Obligations.DecodeAndEncodeAgree
  intro i w _
  constructor
  · intro h
    obtain ⟨hres, hopc⟩ := fields_of_decode_ok h
    obtain ⟨-, hres', hopc', -⟩ := encodingForm i
    exact word_ext_fields (hres.trans hres'.symm) (hopc.trans hopc'.symm)
  · rintro rfl
    exact decode_encode i

/-- Settles O2: the decoder's three branches, which exclude each other. -/
theorem decodingIsTotalAndExact : Obligations.DecodingIsTotalAndExact := by
  unfold Obligations.DecodingIsTotalAndExact
  intro w
  rcases decode_cases w with ⟨hres, e⟩ | ⟨hres, hle, hi⟩ | ⟨hres, hlt, e⟩
  · exact ⟨fun _ => e, fun h => absurd h hres, fun h => absurd h hres⟩
  · exact ⟨fun h => absurd hres h, fun _ _ => hi, fun _ h => absurd h hle.not_gt⟩
  · exact ⟨fun h => absurd hres h, fun _ h => absurd h hlt.not_ge, fun _ _ => e⟩

/-- Settles O1: the ten words are those of `encode`; the two illegal ones fall under the other branches of O2. -/
theorem specWordsDecodeToTheirCommands : Obligations.SpecWordsDecodeToTheirCommands := by
  unfold Obligations.SpecWordsDecodeToTheirCommands
  exact ⟨decode_encode .nop, decode_encode .freqClear, decode_encode .freqCount, decode_encode .treeBuild,
    decode_encode .codeAssign, decode_encode .buildTable, decode_encode .compress, decode_encode .decompress,
    decode_encode .codeClear, decode_encode .tableLoad,
    (decodingIsTotalAndExact 0x0000000A).2.2 (by decide) (by decide), (decodingIsTotalAndExact 0x00000100).1 (by decide)⟩

end Sys2Proof

/-! ## Proofs: the events of a host-program line (30_encoding.md R120-R124) -/

namespace Sys2Proof.Machine

/-! ### Running a schedule -/

theorem run_succ {s t : State} (h : step s = .next t) (k : Nat) :
    Host.Core.run core (k + 1) s = Host.Core.run core k t := by
  have h' : core.step s = .next t := h
  simp only [Host.Core.run, h']

/-- An idle block accepts every register write (20_memory.md R90). -/
theorem step_regWrite_of_idle {s : State} {r : Reg} {w : Word} {rest : List Event} (hb : s.busy = false)
    (h : s.sched = .host (regWriteAccess r w) :: rest) :
    step s = .next { regWrite { s with sched := rest } r w with resp := none } :=
  step_regWrite h fun hb' => absurd (hb.symm.trans hb') (by decide)

/-- A scheduled turn of a busy block completes the command that CUR_CMD decodes to (40_command_lifecycle.md R132). -/
theorem step_of_block {s : State} {i : Instr} {rest : List Event} (h : s.sched = .block :: rest)
    (hb : s.busy = true) (hd : decode s.curCmd = .ok i) : step s = exec i { s with sched := rest } := by
  simp [step, nextEvent, popEvent, h, runEvent, blockTurn, hb, runCurrent, hd]

/-! ### What a completion does not read: the schedule and the port's answer -/

/-- The state with the model's own fields of the host side replaced: the schedule and the port's answer (log 1, 3). -/
def State.withHost (s : State) (sched : List Event) (resp : Option Word) : State :=
  { s with sched := sched, resp := resp }

section
variable (s : State) (l : List Event) (v : Option Word)

@[simp] theorem withHost_sched : (s.withHost l v).sched = l := rfl
@[simp] theorem withHost_freq : (s.withHost l v).freq = s.freq := rfl
@[simp] theorem withHost_codes : (s.withHost l v).codes = s.codes := rfl
@[simp] theorem srcBytes_withHost : srcBytes (s.withHost l v) = srcBytes s := rfl
@[simp] theorem countAndBuild_withHost : countAndBuild (s.withHost l v) = (countAndBuild s).withHost l v := rfl

/-- The change of the host side goes into the branches of a body. -/
theorem map_withHost_ite (c : Prop) [Decidable c] (p q : State × Report) :
    (if c then p else q).map (·.withHost l v) id =
      if c then p.map (·.withHost l v) id else q.map (·.withHost l v) id :=
  apply_ite _ c p q

/-- The effect of a command neither reads nor writes the host side, and its report does not depend on it: every check
of the body is one on the fields that are the same, and every branch carries the change along. -/
theorem commandBody_withHost (i : Instr) :
    commandBody i (s.withHost l v) = (commandBody i s).map (·.withHost l v) id := by
  cases i with
  | nop => rfl
  | freqClear => rfl
  | freqCount =>
    simp only [commandBody, freqCountBody, withHost_freq, srcBytes_withHost]
    cases firstOverflow s.freq (srcBytes s) <;> simp only [map_withHost_ite] <;> rfl
  | treeBuild =>
    simp only [commandBody, treeBuildBody, map_withHost_ite]
    rfl
  | codeAssign =>
    simp only [commandBody, codeAssignBody, map_withHost_ite]
    rfl
  | buildTable =>
    -- The tree is named, so that the checks are compared on it and never on the two states it is built from.
    rw [commandBody, buildTableBody, buildTableBody, countAndBuild_withHost]
    generalize countAndBuild s = t
    simp only [map_withHost_ite]
    rfl
  | compress =>
    simp only [commandBody, compressBody, withHost_codes, srcBytes_withHost]
    cases firstUnknown s.codes (srcBytes s) <;> simp only [map_withHost_ite] <;> rfl
  | decompress =>
    simp only [commandBody, decompressBody, map_withHost_ite]
    rfl
  | codeClear => rfl
  | tableLoad =>
    simp only [commandBody, tableLoadBody, map_withHost_ite]
    rfl

end

/-- Every command completes, and the same way whatever the host side holds. -/
theorem exec_withHost (i : Instr) (s : State) :
    ∃ u, exec i s = .next u ∧ ∀ l v, exec i (s.withHost l v) = .next (u.withHost l v) := by
  simp only [exec_eq_command]
  cases hf : s.fatal with
  | true => exact ⟨_, command_of_fatal hf _, fun l v => command_of_fatal (s := s.withHost l v) hf _⟩
  | false =>
    refine ⟨_, command_of_not_fatal hf _, fun l v => ?_⟩
    rw [command_of_not_fatal (s := s.withHost l v) hf, commandBody_withHost]
    rfl

/-! ### RUN (30_encoding.md R122, R123) -/

/-- The polls of WAIT change only the host side (20_memory.md R92). -/
theorem run_polls (k : Nat) {polls : Nat} {rest : List Event} {s : State}
    (h : s.sched = List.replicate polls (.host (regReadAccess .status)) ++ rest) :
    ∃ v, Host.Core.run core (polls + k) s = Host.Core.run core k (s.withHost rest v) := by
  induction polls generalizing s with
  | zero =>
    obtain rfl : s.sched = rest := by simpa using h
    exact ⟨s.resp, by rw [Nat.zero_add]; rfl⟩
  | succ polls ih =>
    rw [List.replicate_succ, List.cons_append] at h
    obtain ⟨v, hv⟩ := ih (s := s.withHost _ (some (regRead s .status))) rfl
    exact ⟨v, by rw [Nat.add_right_comm, run_succ (step_regRead h fun _ => rfl)]; exact hv⟩

/-- WAIT from a busy block: whatever the number of polls, one completion and the read that shows it. -/
theorem run_waitLine {polls : Nat} {i : Instr} {rest : List Event} {s : State}
    (h : s.sched = waitLine polls ++ rest) (hb : s.busy = true) (hd : decode s.curCmd = .ok i) :
    ∃ u, exec i (s.withHost rest none) = .next u ∧
      Host.Core.run core (polls + 2) s = .next { u with resp := some (regRead u .status) } := by
  obtain ⟨u, -, hu⟩ := exec_withHost i s
  refine ⟨_, hu rest none, ?_⟩
  obtain ⟨v, hv⟩ := run_polls 2 (h.trans (List.append_assoc _ _ _))
  have hturn : step (s.withHost (.block :: .host (regReadAccess .status) :: rest) v) =
      .next (u.withHost (.host (regReadAccess .status) :: rest) v) :=
    (step_of_block (withHost_sched s _ v) hb hd).trans (hu _ v)
  have hread : step (u.withHost (.host (regReadAccess .status) :: rest) v) =
      .next (u.withHost rest (some (regRead u .status))) :=
    step_regRead (withHost_sched u _ v) fun _ => rfl
  exact hv.trans ((run_succ hturn 1).trans (run_succ hread 0))

/-- Settles O23: the CMD write issues the command, and the WAIT that follows completes it. -/
theorem runLineCompletesItsCommand : Obligations.RunLineCompletesItsCommand := by
  unfold Obligations.RunLineCompletesItsCommand
  intro s i polls rest hb h
  have hissue : step s = .next ((issue s (encode i)).withHost (waitLine polls ++ rest) none) :=
    step_regWrite_of_idle hb h
  obtain ⟨u, hu, hrun⟩ := run_waitLine (withHost_sched (issue s (encode i)) _ none) rfl (decode_encode i)
  exact ⟨u, hu, (run_succ hissue (polls + 2)).trans hrun⟩

/-! ### The entries of the code table and their slices (10_state.md R51, 43_code_assigner.md R205) -/

@[simp] theorem setEntry_setEntry {α : Type} (t : Table α) (x : Symbol) (a b : α) :
    setEntry (setEntry t x a) x b = setEntry t x b := by
  refine table_ext fun y => ?_
  simp only [entry_setEntry]
  split_ifs <;> rfl

theorem sliceMask_getLsbD (i : Nat) : (0xFFFFFFFF : BitVec 256).getLsbD i = decide (i < 32) := by
  have h : (0xFFFFFFFF : BitVec 256) = (BitVec.allOnes 32).zeroExtend 256 := by decide
  rw [h, BitVec.getLsbD_setWidth, BitVec.getLsbD_allOnes]
  simp only [Bool.and_eq_right_iff_imp, decide_eq_true_eq]
  omega

/-- Writing slice `k` replaces its 32 bits and keeps every other bit (43_code_assigner.md R205). -/
theorem setCodeValSlice_getLsbD (v : BitVec 256) (k : Fin 8) (w : Word) {j : Nat} (hj : j < 256) :
    (setCodeValSlice v k w).getLsbD j = if j / 32 = k.val then w.getLsbD (j % 32) else v.getLsbD j := by
  simp only [setCodeValSlice, BitVec.getLsbD_or, BitVec.getLsbD_and, BitVec.getLsbD_not, BitVec.getLsbD_shiftLeft,
    sliceMask_getLsbD, BitVec.getLsbD_setWidth, hj]
  split_ifs with hk
  · have hlow : ¬ j < 32 * k.val := by omega
    have hmod : j - 32 * k.val = j % 32 := by omega
    have hlt : j % 32 < 32 := Nat.mod_lt _ (by decide)
    have hlt' : j % 32 < 256 := by omega
    simp [hlow, hmod, hlt, hlt']
  · by_cases hlow : j < 32 * k.val
    · simp [hlow]
    · have hhigh : ¬ j - 32 * k.val < 32 := by omega
      simp [hhigh, BitVec.getLsbD_of_ge w _ (Nat.le_of_not_lt hhigh)]

/-- The slices of `val` at `ks`, written over `v` one after the other. -/
def writeSlices (val : BitVec 256) (ks : List (Fin 8)) (v : BitVec 256) : BitVec 256 :=
  ks.foldl (fun v k => setCodeValSlice v k (codeValSlice val k)) v

theorem writeSlices_getLsbD (val : BitVec 256) (ks : List (Fin 8)) (v : BitVec 256) {j : Nat} (hj : j < 256) :
    (writeSlices val ks v).getLsbD j = if ∃ k ∈ ks, j / 32 = k.val then val.getLsbD j else v.getLsbD j := by
  induction ks generalizing v with
  | nil => simp [writeSlices]
  | cons k ks ih =>
    have hslice : (setCodeValSlice v k (codeValSlice val k)).getLsbD j =
        if j / 32 = k.val then val.getLsbD j else v.getLsbD j := by
      rw [setCodeValSlice_getLsbD v k _ hj]
      refine ite_congr rfl (fun hk => ?_) fun _ => rfl
      have hmod : j % 32 < 32 := Nat.mod_lt _ (by decide)
      rw [codeValSlice, BitVec.getLsbD_extractLsb', ← hk, Nat.div_add_mod]
      simp [hmod]
    have hstep : writeSlices val (k :: ks) v = writeSlices val ks (setCodeValSlice v k (codeValSlice val k)) := rfl
    rw [hstep, ih, hslice]
    by_cases hk : j / 32 = k.val <;> simp [hk]

/-- The eight slices make up the whole value. -/
theorem writeSlices_all (val v : BitVec 256) : writeSlices val (List.finRange 8) v = val := by
  refine BitVec.eq_of_getLsbD_eq fun j hj => ?_
  rw [writeSlices_getLsbD val _ v hj, if_pos ⟨⟨j / 32, by omega⟩, List.mem_finRange _, rfl⟩]

@[simp] theorem extractLsb'_setWidth_byte (b : BitVec 8) : (b.setWidth 32).extractLsb' 0 8 = b := by
  ext j hj
  have hlt : j < 32 := by omega
  simp [hlt, BitVec.getLsbD_eq_getElem hj]

/-! ### SETCODE (30_encoding.md R124) -/

theorem step_symIndex {s : State} {sym : Symbol} {rest : List Event} (hb : s.busy = false)
    (h : s.sched = .host (regWriteAccess .symIndex (sym.zeroExtend 32)) :: rest) :
    step s = .next { s with sched := rest, resp := none, symIndex := sym } := by
  rw [step_regWrite_of_idle hb h]
  simp [regWrite]

/-- The state in the middle of a SETCODE line: the code of `sym` is `c`, and the writes still to come are `sched`. -/
def State.settingCode (s : State) (sched : List Event) (sym : Symbol) (c : Code) : State :=
  { s with sched := sched, resp := none, symIndex := sym, codes := setEntry s.codes sym c, tableValid := false }

theorem step_codeLen {s : State} {len : BitVec 8} {rest : List Event} (hb : s.busy = false)
    (h : s.sched = .host (regWriteAccess .codeLen (len.zeroExtend 32)) :: rest) :
    step s = .next (s.settingCode rest s.symIndex { entry s.codes s.symIndex with len := len }) := by
  rw [step_regWrite_of_idle hb h]
  simp [regWrite, writeCodeLen, State.settingCode]

theorem step_codeVal {s : State} (hb : s.busy = false) (sym : Symbol) (c : Code) (k : Fin 8) (w : Word)
    (rest : List Event) :
    step (s.settingCode (.host (regWriteAccess (.codeVal k) w) :: rest) sym c) =
      .next (s.settingCode rest sym { c with val := setCodeValSlice c.val k w }) := by
  rw [step_regWrite_of_idle (s := s.settingCode _ sym c) hb rfl]
  simp [regWrite, writeCodeVal, State.settingCode]

/-- The writes of the slices of `val` at `ks`. -/
def codeValWrites (val : BitVec 256) (ks : List (Fin 8)) : List Event :=
  ks.map fun k => .host (regWriteAccess (.codeVal k) (codeValSlice val k))

theorem setCodeLine_eq (sym : Symbol) (len : BitVec 8) (val : BitVec 256) :
    setCodeLine sym len val = .host (regWriteAccess .symIndex (sym.zeroExtend 32)) ::
      .host (regWriteAccess .codeLen (len.zeroExtend 32)) :: codeValWrites val (List.finRange 8) := rfl

/-- The CODE_VALk writes of a SETCODE line, in the order of their list. -/
theorem run_codeVals {s : State} (hb : s.busy = false) (sym : Symbol) (val : BitVec 256) (rest : List Event)
    (ks : List (Fin 8)) (c : Code) :
    Host.Core.run core ks.length (s.settingCode (codeValWrites val ks ++ rest) sym c) =
      .next (s.settingCode rest sym { c with val := writeSlices val ks c.val }) := by
  induction ks generalizing c with
  | nil => rfl
  | cons k ks ih => exact (run_succ (step_codeVal hb sym c k _ _) ks.length).trans (ih _)

/-- Settles O24: SYM_INDEX and CODE_LEN are written, then the eight slices of the value one by one. -/
theorem setCodeLineWritesOneCode : Obligations.SetCodeLineWritesOneCode := by
  unfold Obligations.SetCodeLineWritesOneCode
  intro s sym len val rest hb h
  refine ⟨setEntry s.codes sym ⟨len, val⟩, ?_, entry_setEntry_same _ _ _,
    fun x hx => entry_setEntry_other _ _ hx.symm⟩
  rw [lineEvents, setCodeLine_eq, List.cons_append, List.cons_append] at h
  have hvals := run_codeVals hb sym val rest (List.finRange 8) ⟨len, (entry s.codes sym).val⟩
  rw [writeSlices_all, List.length_finRange] at hvals
  have hlen := step_codeLen (s := { s with sched := _, resp := none, symIndex := sym }) (len := len)
    (rest := codeValWrites val (List.finRange 8) ++ rest) hb rfl
  exact (run_succ (step_symIndex hb h) 9).trans ((run_succ hlen 8).trans hvals)

end Sys2Proof.Machine

/-! ## Proofs: the life of a command (40_command_lifecycle.md R130-R141) -/

namespace Sys2Proof.Machine

/-! ### The block's turn (40_command_lifecycle.md R132, R133) -/

/-- When the block has its turn, a step is that turn (log 1, 2). -/
theorem step_of_blockNext {s : State} (h : s.blockNext) : step s = blockTurn (popEvent s) := by
  have hn : nextEvent s = .block := by
    unfold nextEvent
    rcases h with h | h
    · rw [h]
    · obtain ⟨rest, hr⟩ := List.head?_eq_some_iff.1 h
      rw [hr]
  rw [step, hn, runEvent]

theorem blockTurn_of_busy {s : State} (h : s.busy = true) : blockTurn s = runCurrent s := if_pos h

theorem blockTurn_of_idle {s : State} (h : s.busy = false) : blockTurn s = .next s := by simp [blockTurn, h]

theorem runCurrent_of_decode_ok {s : State} {i : Instr} (h : decode s.curCmd = .ok i) : runCurrent s = exec i s := by
  simp [runCurrent, h]

theorem runCurrent_of_decode_error {s : State} {e : DecodeError} (h : decode s.curCmd = .error e) :
    runCurrent s = command s illegalBody := by
  simp [runCurrent, h]

/-- Settles O4: the block's turn with CUR_CMD decoded, or idle. -/
theorem stepCompletesTheDecodedCommand : Obligations.StepCompletesTheDecodedCommand := by
  unfold Obligations.StepCompletesTheDecodedCommand
  intro s h
  rw [step_of_blockNext h]
  refine ⟨rfl, fun i hb hd => ?_, fun hb => blockTurn_of_idle (s := popEvent s) hb⟩
  exact (blockTurn_of_busy (s := popEvent s) hb).trans (runCurrent_of_decode_ok (s := popEvent s) hd)

/-! ### Completion records (40_command_lifecycle.md R133, R135) -/

/-- Every command writes the completion record with a code of 60_exceptions.md R260, over the state itself or over its
body's effect. -/
theorem command_completes (s : State) (body : State → State × Report) :
    ∃ (u : State) (e : ErrCode) (rl rb rc : Nat), (u = s ∨ u = (body s).1) ∧
      command s body = .next (u.completed e.code rl rb rc) := by
  cases hf : s.fatal with
  | true => exact ⟨s, .invariantViolation, 0, 0, 0, .inl rfl, command_of_fatal hf body⟩
  | false => exact ⟨_, _, _, _, _, .inr rfl, command_of_not_fatal hf body⟩

/-- Settles O26: a command ends with a completion record, and its own effect leaves INT_STATUS alone. -/
theorem everyCommandCompletes : Obligations.EveryCommandCompletes := by
  unfold Obligations.EveryCommandCompletes
  intro i s
  obtain ⟨u, e, rl, rb, rc, hu, h⟩ := command_completes s (commandBody i)
  have hint : u.intStatus = s.intStatus := by
    rcases hu with rfl | rfl
    · rfl
    · rw [(commandBody_writesOnlyItsTables i s).others]
  exact ⟨_, (exec_eq_command i s).trans h, rfl, by rw [completed_intStatus, completed_err, hint], e, rfl⟩

/-! ### Illegal words (40_command_lifecycle.md R137) -/

theorem decode_error_of_illegal {w : Word} (h : w.extractLsb' 8 24 ≠ 0 ∨ 0x0A ≤ (w.extractLsb' 0 8).toNat) :
    ∃ e, decode w = .error e := by
  rcases decode_cases w with ⟨-, e⟩ | ⟨hres, hle, -⟩ | ⟨-, -, e⟩
  · exact ⟨_, e⟩
  · rcases h with h | h
    · exact absurd hres h
    · exact absurd hle (Nat.not_le_of_gt h)
  · exact ⟨_, e⟩

/-- Settles O5: the word does not decode, so the completion is ILLEGAL's, which has no effect of its own. -/
theorem illegalWordsCompleteWithIllegalCmd : Obligations.IllegalWordsCompleteWithIllegalCmd := by
  unfold Obligations.IllegalWordsCompleteWithIllegalCmd
  intro s hb hw
  obtain ⟨e, hd⟩ := decode_error_of_illegal hw
  rw [blockTurn_of_busy hb, runCurrent_of_decode_error hd]
  cases hf : s.fatal with
  | true => exact command_of_fatal hf _
  | false => exact command_of_not_fatal hf _

/-! ### The fatal state (40_command_lifecycle.md R138) -/

theorem exec_of_fatal {s : State} (h : s.fatal = true) (i : Instr) : exec i s = .next (s.completed 0x04 0 0 0) :=
  (exec_eq_command i s).trans (command_of_fatal h _)

/-- In the fatal state the word in CUR_CMD does not matter. -/
theorem runCurrent_of_fatal {s : State} (h : s.fatal = true) : runCurrent s = .next (s.completed 0x04 0 0 0) := by
  obtain ⟨body, e⟩ := runCurrent_eq s
  exact e.trans (command_of_fatal h body)

theorem regWrite_keeps_sched_fatal (s : State) (r : Reg) (w : Word) :
    (regWrite s r w).sched = s.sched ∧ (regWrite s r w).fatal = s.fatal := by
  cases r <;> exact ⟨rfl, rfl⟩

/-- A host access, accepted or not, writes neither the schedule nor FATAL. -/
theorem hostStep_keeps_sched_fatal (s : State) (a : HostAccess) :
    (hostStep s a).sched = s.sched ∧ (hostStep s a).fatal = s.fatal := by
  cases a with
  | read o n =>
    rcases hostRead_cases s o n with ⟨_, -, -, e⟩ | e <;> rw [hostStep, e] <;> exact ⟨rfl, rfl⟩
  | write o n d =>
    rcases hostWrite_cases s o n d with ⟨r, -, -, e⟩ | ⟨b, x, -, -, e⟩ | ⟨-, e⟩ | e <;> rw [hostStep, e]
    · exact regWrite_keeps_sched_fatal s r d
    · cases b <;> exact ⟨rfl, rfl⟩
    · exact ⟨rfl, rfl⟩
    · exact ⟨rfl, rfl⟩

/-- Settles O6: a completion in the fatal state is the bare record, and neither it, a host access nor an idle turn
writes FATAL. -/
theorem fatalTurnsEveryCommandAway : Obligations.FatalTurnsEveryCommandAway := by
  unfold Obligations.FatalTurnsEveryCommandAway
  refine ⟨fun s hb hf => (blockTurn_of_busy hb).trans (runCurrent_of_fatal hf), fun i s hf => exec_of_fatal hf i,
    fun s t hf hstep hreset => ?_⟩
  rcases step_cases hstep with ⟨a, rest, -, rfl⟩ | ⟨rest, hs, -⟩ | ⟨-, -, rfl⟩ | ⟨-, -, hrun⟩
  · exact (hostStep_keeps_sched_fatal _ a).2.trans hf
  · exact absurd (congrArg List.head? hs) hreset
  · exact hf
  · rw [runCurrent_of_fatal (s := { s with sched := s.sched.tail }) hf] at hrun
    obtain rfl := Host.Outcome.next.inj hrun
    exact hf

/-! ### The end of a running command (40_command_lifecycle.md R132) -/

/-- The turn of a busy block leaves it idle. -/
theorem step_ends_of_blockNext {s : State} (h : s.blockNext) (hb : s.busy = true) :
    ∃ t, step s = .next t ∧ t.busy = false := by
  obtain ⟨body, e⟩ := runCurrent_eq (popEvent s)
  obtain ⟨u, c, rl, rb, rc, -, hu⟩ := command_completes (popEvent s) body
  refine ⟨_, ?_, completed_busy u c.code rl rb rc⟩
  rw [step_of_blockNext h, blockTurn_of_busy (s := popEvent s) hb, e, hu]

theorem step_of_reset {s : State} {rest : List Event} (h : s.sched = .reset :: rest) :
    step s = .next (resetState { s with sched := rest }) := by
  simp [step, nextEvent, popEvent, h, runEvent]

/-- Settles O8, by induction on the schedule: the block's turn and a reset end the command at once, and a host access
ends it or leaves a busy block with one event less. -/
theorem runningCommandEnds : Obligations.RunningCommandEnds := by
  unfold Obligations.RunningCommandEnds
  intro s hb
  have one : ∀ {s t : State}, step s = .next t → t.busy = false →
      ∃ k t, k ≤ s.sched.length + 1 ∧ Host.Core.run core k s = .next t ∧ t.busy = false :=
    fun {_ t} h ht => ⟨1, t, by omega, run_succ h 0, ht⟩
  generalize hs : s.sched = l
  induction l generalizing s with
  | nil =>
    obtain ⟨t, h, ht⟩ := step_ends_of_blockNext (.inl hs) hb
    exact hs ▸ one h ht
  | cons e rest ih =>
    cases e with
    | block =>
      obtain ⟨t, h, ht⟩ := step_ends_of_blockNext (.inr (congrArg List.head? hs)) hb
      exact hs ▸ one h ht
    | reset => exact hs ▸ one (step_of_reset hs) rfl
    | host a =>
      have hstep := step_of_host hs
      cases ht : (hostStep { s with sched := rest } a).busy with
      | false => exact hs ▸ one hstep ht
      | true =>
        obtain ⟨k, t, hk, hrun, hidle⟩ := ih _ ht (hostStep_keeps_sched_fatal _ a).1
        exact ⟨k + 1, t, by simpa using hk, (run_succ hstep k).trans hrun, hidle⟩

/-! ### Issue and overrun (40_command_lifecycle.md R130, R131) -/

/-- Settles O10: offset 0x008 is CMD's, so the write issues the word when the block is idle and is an overrun when it
is busy. -/
theorem cmdWriteIssuesOrOverruns : Obligations.CmdWriteIssuesOrOverruns := by
  unfold Obligations.CmdWriteIssuesOrOverruns
  intro s w rest h
  refine ⟨fun hb => step_regWrite_of_idle (r := .cmd) hb h, fun hb => ?_⟩
  rw [step_of_host h]
  exact congrArg Host.Outcome.next
    (hostWrite_of_overrun (s := { s with sched := rest }) (resolve_offset s.cfg .cmd) hb w)

/-! ### The commands that always succeed (40_command_lifecycle.md R136) -/

theorem entry_emptyFreq (x : Symbol) : entry emptyFreq x = 0 := entry_constTable 0 x

theorem nsym_emptyFreq : nsym emptyFreq = 0 := by
  rw [nsym, List.length_eq_zero_iff, List.eq_nil_iff_forall_not_mem]
  exact fun x hx => (mem_present _ x).1 hx (entry_emptyFreq x)

/-- Settles O30: each body is one unconditional update. -/
theorem nopAndTheClearsAlwaysSucceed : Obligations.NopAndTheClearsAlwaysSucceed := by
  unfold Obligations.NopAndTheClearsAlwaysSucceed
  intro s
  refine ⟨fun hf => ⟨?_, ⟨emptyFreq, ?_, nsym_emptyFreq, entry_emptyFreq⟩, ⟨emptyCodes, ?_, fun x => ?_⟩⟩,
    fun hf i _ => exec_of_fatal hf i⟩
  · exact command_of_not_fatal hf nopBody
  · exact command_of_not_fatal hf freqClearBody
  · exact command_of_not_fatal hf codeClearBody
  · simp [emptyCodes]

end Sys2Proof.Machine

/-! ## Proofs: a command depends only on its inputs (40_command_lifecycle.md R141) -/

namespace Sys2Proof.Machine

/-- What a command may depend on: the parameters, FATAL, the operand registers, the tables, the tree, the source bytes,
and the model's draws (40_command_lifecycle.md R141; log 4, 7). -/
structure SameInputs (s s' : State) : Prop where
  cfg : s.cfg = s'.cfg
  fatal : s.fatal = s'.fatal
  tieDraws : s.tieDraws = s'.tieDraws
  epoch : s.epoch = s'.epoch
  srcAddr : s.srcAddr = s'.srcAddr
  srcLen : s.srcLen = s'.srcLen
  dstAddr : s.dstAddr = s'.dstAddr
  dstCap : s.dstCap = s'.dstCap
  expectCount : s.expectCount = s'.expectCount
  freq : s.freq = s'.freq
  codes : s.codes = s'.codes
  nodes : s.nodes = s'.nodes
  root : s.root = s'.root
  leafCount : s.leafCount = s'.leafCount
  treeValid : s.treeValid = s'.treeValid
  tableValid : s.tableValid = s'.tableValid
  srcBytes : srcBytes s = srcBytes s'

theorem srcBytes_congr {s s' : State} (ha : s.srcAddr = s'.srcAddr) (hl : s.srcLen = s'.srcLen)
    (h : ∀ a, s.srcAddr.toNat ≤ a → a < s.srcAddr.toNat + s.srcLen.toNat → byteAt s .input a = byteAt s' .input a) :
    srcBytes s = srcBytes s' := by
  simp only [srcBytes, ← ha, ← hl]
  refine List.map_congr_left fun i hi => h _ (Nat.le_add_right _ _) ?_
  have := List.mem_range.1 hi
  omega

namespace SameInputs

variable {s s' : State} (h : SameInputs s s')
include h

theorem srcInRange : srcInRange s = srcInRange s' := by
  simp only [Machine.srcInRange, h.srcAddr, h.srcLen, h.cfg]

theorem dstInRange : dstInRange s = dstInRange s' := by
  simp only [Machine.dstInRange, h.dstAddr, h.dstCap, h.cfg]

theorem nodeAt : nodeAt s = nodeAt s' := by
  funext k
  simp only [Machine.nodeAt, h.nodes, h.epoch]

theorem assignOk : assignOk s = assignOk s' := by
  simp only [Machine.assignOk, h.nodeAt, h.root, h.leafCount]

theorem withFreq {f f' : Table Word} (hf : f = f') {v v' : Bool} (hv : v = v') :
    SameInputs { s with freq := f, treeValid := v } { s' with freq := f', treeValid := v' } :=
  { h with freq := hf, treeValid := hv }

theorem withOut (m m' : Memory) : SameInputs { s with outMem := m } { s' with outMem := m' } := { h with }

theorem buildTree : SameInputs (buildTree s) (buildTree s') :=
  { h with
    nodes := by simp only [buildTree_nodes, h.cfg, h.freq, h.tieDraws, h.nodes]
    root := by simp only [buildTree_root, h.cfg, h.freq, h.tieDraws]
    leafCount := by simp only [buildTree_leafCount, h.freq]
    treeValid := rfl
    tieDraws := by simp only [buildTree_tieDraws, h.cfg, h.freq, h.tieDraws] }

theorem assignCodes : SameInputs (assignCodes s) (assignCodes s') :=
  { h with
    codes := by simp only [assignCodes_codes, h.nodeAt, h.root]
    treeValid := rfl
    tableValid := h.assignOk
    fatal := by simp only [assignCodes_fatal, h.fatal, h.assignOk] }

theorem countAndBuild : SameInputs (countAndBuild s) (countAndBuild s') :=
  (h.withFreq (congrArg (addCounts emptyFreq) h.srcBytes) h.treeValid).buildTree

end SameInputs

/-- The two ends `p` and `q` of a body that starts in `s` and in `s'`: one report, the same inputs for the next command,
and the same OUT_MEM if it was the same before. -/
structure SameEffect (s s' : State) (p q : State × Report) : Prop where
  report : p.2 = q.2
  inputs : SameInputs p.1 q.1
  out : s.outMem = s'.outMem → p.1.outMem = q.1.outMem

/-- A path of the body that changes nothing. -/
theorem SameInputs.keeps {s s' : State} (h : SameInputs s s') {r r' : Report} (hr : r = r') :
    SameEffect s s' (s, r) (s', r') := ⟨hr, h, id⟩

/-- A check of the body that the inputs decide. -/
theorem SameEffect.ite {s s' : State} {c c' : Prop} [Decidable c] [Decidable c'] (hc : c ↔ c')
    {p q p' q' : State × Report} (hp : SameEffect s s' p p') (hq : SameEffect s s' q q') :
    SameEffect s s' (if c then p else q) (if c' then p' else q') := by
  by_cases h : c
  · rwa [if_pos h, if_pos (hc.1 h)]
  · rwa [if_neg h, if_neg (fun h' => h (hc.2 h'))]

/-- Decoding neither reads OUT_MEM nor depends on it: another memory under the unpacker changes the memory alone. -/
theorem unpackBits_withOut (t : Table Code) (dst expect : Nat) (bits : List Bool) (u : Unpacker) (m : Memory) :
    ∃ m', unpackBits t dst expect bits { u with out := m } =
      ({ (unpackBits t dst expect bits u).1 with out := m' }, (unpackBits t dst expect bits u).2) := by
  induction bits generalizing u m with
  | nil => exact ⟨m, rfl⟩
  | cons b bs ih =>
    have hpush : pushBit { u with out := m } b = { pushBit u b with out := m } := rfl
    simp only [unpackBits, hpush]
    split
    · rename_i sym _
      have hemit : emitSymbol dst { pushBit u b with out := m } sym =
        { emitSymbol dst (pushBit u b) sym with out := memSet m (dst + u.count) sym } := rfl
      rw [hemit]
      split
      · exact ⟨_, rfl⟩
      · exact ih _ _
    · split
      · exact ⟨m, rfl⟩
      · exact ih _ m

/-- Two runs over the same bits that start from different memories differ in the memory alone. -/
theorem unpackBits_startUnpacker (t : Table Code) (dst expect : Nat) (bits : List Bool) (m m' : Memory) :
    ∃ k, unpackBits t dst expect bits (startUnpacker m) =
      ({ (unpackBits t dst expect bits (startUnpacker m')).1 with out := k },
        (unpackBits t dst expect bits (startUnpacker m')).2) :=
  unpackBits_withOut t dst expect bits (startUnpacker m') m

section
variable {s s' : State} (h : SameInputs s s')
include h

theorem freqCountBody_sameEffect : SameEffect s s' (freqCountBody s) (freqCountBody s') := by
  have hover : firstOverflow s.freq (srcBytes s) = firstOverflow s'.freq (srcBytes s') := by rw [h.freq, h.srcBytes]
  refine .ite (by rw [h.srcInRange]) ?_ (h.keeps rfl)
  rw [hover]
  cases firstOverflow s'.freq (srcBytes s') with
  | some sym => exact h.keeps rfl
  | none => exact ⟨by rw [h.srcLen], h.withFreq (by rw [h.freq, h.srcBytes]) rfl, id⟩

theorem treeBuildBody_sameEffect : SameEffect s s' (treeBuildBody s) (treeBuildBody s') :=
  .ite (by rw [h.freq]) (h.keeps rfl) ⟨by rw [h.freq], h.buildTree, id⟩

theorem codeAssignBody_sameEffect : SameEffect s s' (codeAssignBody s) (codeAssignBody s') :=
  .ite (by rw [h.treeValid]) ⟨by rw [h.assignOk, h.assignCodes.codes], h.assignCodes, id⟩ (h.keeps rfl)

theorem buildTableBody_sameEffect : SameEffect s s' (buildTableBody s) (buildTableBody s') := by
  refine .ite (by rw [h.srcInRange]) (.ite (by rw [h.srcLen]) (h.keeps rfl) ?_) (h.keeps rfl)
  exact ⟨by rw [h.countAndBuild.assignOk, h.srcLen], h.countAndBuild.assignCodes, id⟩

/-- COMPRESS reports lengths that the table and the source determine. -/
theorem compressBody_sameEffect : SameEffect s s' (compressBody s) (compressBody s') := by
  have hunknown : firstUnknown s.codes (srcBytes s) = firstUnknown s'.codes (srcBytes s') := by
    rw [h.codes, h.srcBytes]
  have htotal : totalBits s.codes (srcBytes s) = totalBits s'.codes (srcBytes s') := by rw [h.codes, h.srcBytes]
  refine .ite (by rw [h.srcInRange]) (h.keeps rfl) (.ite (by rw [h.dstInRange]) (h.keeps rfl)
    (.ite (by rw [h.tableValid]) (h.keeps rfl) ?_))
  rw [hunknown]
  cases firstUnknown s'.codes (srcBytes s') with
  | some i => exact h.keeps rfl
  | none =>
    refine .ite (by rw [h.dstCap, htotal]) (h.keeps (by rw [htotal])) ⟨?_, h.withOut _ _, fun ho => ?_⟩
    · simp only [(packAll_writes _ _ _ _).1, htotal, h.srcLen]
    · simp only [h.codes, h.dstAddr, h.srcBytes, ho]

/-- DECOMPRESS reports counts that the table and the source determine. -/
theorem decompressBody_sameEffect : SameEffect s s' (decompressBody s) (decompressBody s') := by
  refine .ite (by rw [h.srcInRange]) (h.keeps rfl) (.ite (by rw [h.dstInRange]) (h.keeps rfl)
    (.ite (by rw [h.tableValid]) (h.keeps rfl) (.ite (by rw [h.dstCap, h.expectCount]) (h.keeps rfl)
    (.ite (by rw [h.expectCount]) (h.keeps rfl) ⟨?_, h.withOut _ _, fun ho => ?_⟩))))
  · obtain ⟨m, hrun⟩ := unpackBits_startUnpacker s'.codes s'.dstAddr.toNat s'.expectCount.toNat
      (streamBits (srcBytes s')) s.outMem s'.outMem
    simp only [h.codes, h.dstAddr, h.expectCount, h.srcBytes, hrun]
  · simp only [h.codes, h.dstAddr, h.expectCount, h.srcBytes, ho]

theorem tableLoadBody_sameEffect : SameEffect s s' (tableLoadBody s) (tableLoadBody s') :=
  .ite (by rw [h.codes]) ⟨by rw [h.codes], { h with tableValid := rfl }, id⟩
    ⟨rfl, { h with tableValid := rfl }, id⟩

/-- The body of every command has the same effect and report from the same inputs. -/
theorem commandBody_sameEffect (i : Instr) : SameEffect s s' (commandBody i s) (commandBody i s') := by
  cases i with
  | nop => exact h.keeps rfl
  | freqClear => exact ⟨rfl, h.withFreq rfl rfl, id⟩
  | freqCount => exact freqCountBody_sameEffect h
  | treeBuild => exact treeBuildBody_sameEffect h
  | codeAssign => exact codeAssignBody_sameEffect h
  | buildTable => exact buildTableBody_sameEffect h
  | compress => exact compressBody_sameEffect h
  | decompress => exact decompressBody_sameEffect h
  | codeClear => exact ⟨rfl, { h with codes := rfl, tableValid := rfl }, id⟩
  | tableLoad => exact tableLoadBody_sameEffect h

end

/-- Settles O29: the bodies have the same effect and report, or both commands are turned away by FATAL. -/
theorem commandsAreDeterministicInTheirInputs : Obligations.CommandsAreDeterministicInTheirInputs := by
  unfold Obligations.CommandsAreDeterministicInTheirInputs
  intro i s s' t t' hcfg hfatal hdraws hepoch hsa hsl hda hdc hec hfreq hcodes hnodes hroot hleaf htree htable hbytes
    ht ht'
  have h : SameInputs s s' := ⟨hcfg, hfatal, hdraws, hepoch, hsa, hsl, hda, hdc, hec, hfreq, hcodes, hnodes, hroot,
    hleaf, htree, htable, srcBytes_congr hsa hsl hbytes⟩
  rw [exec_eq_command] at ht ht'
  rcases command_cases ht with ⟨hf, rfl⟩ | ⟨hf, rfl⟩ <;> rcases command_cases ht' with ⟨hf', rfl⟩ | ⟨hf', rfl⟩
  · exact ⟨rfl, rfl, rfl, rfl, hfreq, hcodes, htree, htable, hfatal, id⟩
  · exact absurd (hf.symm.trans (hfatal.trans hf')) (by decide)
  · exact absurd (hf.symm.trans (hfatal.trans hf')) (by decide)
  · obtain ⟨hreport, hin, hout⟩ := commandBody_sameEffect h i
    simp only [hreport]
    exact ⟨rfl, rfl, rfl, rfl, hin.freq, hin.codes, hin.treeValid, hin.tableValid, hin.fatal, hout⟩

end Sys2Proof.Machine

/-! ## Proofs: the frequency counter (41_frequency_counter.md) -/

namespace Sys2Proof.Machine

/-! ### The overflow search -/

theorem firstOverflow_eq_find? (t : Table Word) (input : List Byte) :
    firstOverflow t input = symbols.find? fun x => 2 ^ 32 - 1 < (entry t x).toNat + hist input x := by
  simp only [firstOverflow, entries_eq, List.find?_map, Option.map_map]
  exact Option.map_id_apply

theorem firstOverflow_none {t : Table Word} {input : List Byte} :
    firstOverflow t input = none ↔ ∀ x, (entry t x).toNat + hist input x ≤ 2 ^ 32 - 1 := by
  simp [firstOverflow_eq_find?]

/-- A search through the symbols in order finds the lowest match. -/
theorem find?_symbols_of_lowest {p : Symbol → Bool} {x : Symbol} (hx : p x = true) (hlow : ∀ y < x, p y = false) :
    symbols.find? p = some x := by
  obtain ⟨before, after, hsplit⟩ := List.append_of_mem (mem_symbols x)
  refine List.find?_eq_some_iff_append.2 ⟨hx, before, after, hsplit, fun y hy => ?_⟩
  have hlt : y < x := (List.pairwise_append.1 (hsplit ▸ pairwise_symbols)).2.2 y hy x (List.mem_cons_self ..)
  simp [hlow y hlt]

theorem firstOverflow_of_lowest {t : Table Word} {input : List Byte} {x : Symbol}
    (hx : 2 ^ 32 - 1 < (entry t x).toNat + hist input x)
    (hlow : ∀ y < x, (entry t y).toNat + hist input y ≤ 2 ^ 32 - 1) : firstOverflow t input = some x := by
  rw [firstOverflow_eq_find?]
  exact find?_symbols_of_lowest (decide_eq_true hx) fun y hy => decide_eq_false (hlow y hy).not_gt

/-- A sum that fits its counter is exact (41_frequency_counter.md R151). -/
theorem entry_addCounts_toNat {t : Table Word} {input : List Byte} {x : Symbol}
    (h : (entry t x).toNat + hist input x ≤ 2 ^ 32 - 1) :
    (entry (addCounts t input) x).toNat = (entry t x).toNat + hist input x := by
  simp only [addCounts, entry_mapEntries, BitVec.toNat_add, BitVec.toNat_ofNat]
  omega

/-! ### The three ends of FREQ_COUNT -/

theorem srcInRange_iff (s : State) : srcInRange s = true ↔ s.srcAddr.toNat + s.srcLen.toNat ≤ s.cfg.inCap :=
  decide_eq_true_iff

theorem freqCountBody_of_range {s : State} (h : s.cfg.inCap < s.srcAddr.toNat + s.srcLen.toNat) :
    freqCountBody s = (s, raise .range) :=
  if_neg fun hr => h.not_ge ((srcInRange_iff s).1 hr)

theorem freqCountBody_of_overflow {s : State} {x : Symbol} (h : s.srcAddr.toNat + s.srcLen.toNat ≤ s.cfg.inCap)
    (hx : firstOverflow s.freq (srcBytes s) = some x) :
    freqCountBody s = (s, raise .countOverflow (count := x.toNat)) := by
  simp [freqCountBody, (srcInRange_iff s).2 h, hx]

theorem freqCountBody_of_fits {s : State} (h : s.srcAddr.toNat + s.srcLen.toNat ≤ s.cfg.inCap)
    (hx : firstOverflow s.freq (srcBytes s) = none) :
    freqCountBody s =
      ({ s with freq := addCounts s.freq (srcBytes s), treeValid := false }, finish (count := s.srcLen.toNat)) := by
  simp [freqCountBody, (srcInRange_iff s).2 h, hx]

/-- A command outside the fatal state completes with its body's state and report. -/
theorem exec_of_commandBody {i : Instr} {s u : State} {r : Report} (hf : s.fatal = false)
    (h : commandBody i s = (u, r)) : exec i s = .next (u.completed r.err.code r.len r.bits r.count) := by
  rw [exec_eq_command, command_of_not_fatal hf, h]

/-- Settles O31: no sum overflows, so each one is added exactly. -/
theorem freqCountAddsTheHistogram : Obligations.FreqCountAddsTheHistogram := by
  unfold Obligations.FreqCountAddsTheHistogram
  intro s hf hr hfit
  exact ⟨addCounts s.freq (srcBytes s),
    exec_of_commandBody (i := .freqCount) hf (freqCountBody_of_fits hr (firstOverflow_none.2 hfit)),
    fun x => entry_addCounts_toNat (hfit x)⟩

/-- Settles O32: both errors leave the body's state alone, and the search reports the lowest overflowing symbol. -/
theorem freqCountErrorsChangeNothing : Obligations.FreqCountErrorsChangeNothing := by
  unfold Obligations.FreqCountErrorsChangeNothing
  intro s hf
  refine ⟨fun hr => ?_, fun hr x hx hlow => ?_⟩
  · exact exec_of_commandBody (i := .freqCount) hf (freqCountBody_of_range hr)
  · exact exec_of_commandBody (i := .freqCount) hf (freqCountBody_of_overflow hr (firstOverflow_of_lowest hx hlow))

/-! ### The order of the bytes (41_frequency_counter.md R153) -/

theorem hist_eq_of_perm {l l' : List Byte} (h : l.Perm l') : hist l = hist l' := funext fun x => h.count_eq x

theorem firstOverflow_eq_of_perm (t : Table Word) {l l' : List Byte} (h : l.Perm l') :
    firstOverflow t l = firstOverflow t l' := by
  simp only [firstOverflow, hist_eq_of_perm h]

theorem addCounts_eq_of_perm (t : Table Word) {l l' : List Byte} (h : l.Perm l') : addCounts t l = addCounts t l' := by
  simp only [addCounts, hist_eq_of_perm h]

/-- FREQ_COUNT sees its source bytes through their histogram alone. -/
theorem freqCountBody_freq_of_perm {s s' : State} (hr : srcInRange s = srcInRange s') (hf : s.freq = s'.freq)
    (hp : (srcBytes s).Perm (srcBytes s')) : (freqCountBody s).1.freq = (freqCountBody s').1.freq := by
  simp only [freqCountBody, hr, hf, firstOverflow_eq_of_perm _ hp, addCounts_eq_of_perm _ hp]
  split
  · split
    · exact hf
    · rfl
  · exact hf

/-- The counts that a completed FREQ_COUNT leaves, turned away by FATAL or not. -/
theorem freq_of_exec_freqCount {s t : State} (h : exec .freqCount s = .next t) :
    t.freq = if s.fatal then s.freq else (freqCountBody s).1.freq := by
  rcases command_cases h with ⟨hf, rfl⟩ | ⟨hf, rfl⟩
  · rw [if_pos hf, completed_freq]
  · rw [hf, completed_freq]
    rfl

/-- Settles O33: the two sources have one histogram, or both commands are turned away by FATAL. -/
theorem freqCountIgnoresByteOrder : Obligations.FreqCountIgnoresByteOrder := by
  unfold Obligations.FreqCountIgnoresByteOrder
  intro s t t' m hp ht ht'
  rw [freq_of_exec_freqCount ht, freq_of_exec_freqCount ht',
    freqCountBody_freq_of_perm (s := { s with inMem := m }) (s' := s) rfl rfl hp]

/-! ### The host's write of a count (41_frequency_counter.md R155) -/

/-- Settles O16: offset 0x03C is FREQ_DATA's, and its write sets the entry of SYM_INDEX. -/
theorem freqDataWriteReplacesOneCount : Obligations.FreqDataWriteReplacesOneCount := by
  unfold Obligations.FreqDataWriteReplacesOneCount
  intro s w rest h hb
  exact ⟨setEntry s.freq s.symIndex w, step_regWrite_of_idle (r := .freqData) hb h, entry_setEntry_same _ _ _,
    fun x hx => entry_setEntry_other _ w hx.symm⟩

end Sys2Proof.Machine

/-! ## Proofs: the tree builder (42_tree_builder.md) -/

namespace Sys2Proof.Machine

/-! ### The ends of TREE_BUILD, CODE_ASSIGN and BUILD_TABLE without their input -/

theorem nsym_eq_zero_iff (t : Table Word) : nsym t = 0 ↔ ∀ x, entry t x = 0 := by
  simp [nsym, List.eq_nil_iff_forall_not_mem]

theorem treeBuildBody_of_empty {s : State} (h : nsym s.freq = 0) : treeBuildBody s = (s, raise .emptyInput) := if_pos h

theorem treeBuildBody_of_nonempty {s : State} (h : nsym s.freq ≠ 0) :
    treeBuildBody s = (buildTree s, finish (count := nsym s.freq)) := if_neg h

theorem codeAssignBody_of_no_tree {s : State} (h : s.treeValid = false) : codeAssignBody s = (s, raise .noTree) := by
  simp [codeAssignBody, h]

theorem buildTableBody_of_range {s : State} (h : s.cfg.inCap < s.srcAddr.toNat + s.srcLen.toNat) :
    buildTableBody s = (s, raise .range) :=
  if_neg fun hr => h.not_ge ((srcInRange_iff s).1 hr)

theorem buildTableBody_of_empty {s : State} (h : s.srcAddr.toNat + s.srcLen.toNat ≤ s.cfg.inCap) (hl : s.srcLen = 0) :
    buildTableBody s = (s, raise .emptyInput) := by
  rw [buildTableBody, if_pos ((srcInRange_iff s).2 h), if_pos hl]

/-- Settles O34: on each of the four paths the body leaves the state alone and reports its error. -/
theorem missingInputsOnlyReport : Obligations.MissingInputsOnlyReport := by
  unfold Obligations.MissingInputsOnlyReport
  intro s hf
  refine ⟨fun h => ?_, fun h => ?_, fun h => ?_, fun h hl => ?_⟩
  · exact exec_of_commandBody (i := .treeBuild) hf (treeBuildBody_of_empty ((nsym_eq_zero_iff _).2 h))
  · exact exec_of_commandBody (i := .codeAssign) hf (codeAssignBody_of_no_tree h)
  · exact exec_of_commandBody (i := .buildTable) hf (buildTableBody_of_range h)
  · exact exec_of_commandBody (i := .buildTable) hf (buildTableBody_of_empty h hl)

/-! ### One merge (42_tree_builder.md R172, R173, R178) -/

/-- Under lowest_key, and with distinct nodes in the queue, the element taken has a smaller key than every other
(42_tree_builder.md R172). -/
theorem extractMin_lowestKey_lt {d : Nat} {q r : List QEntry} {a : QEntry} (hq : (q.map QEntry.node).Nodup)
    (h : extractMin .lowestKey d q = some (a, r)) :
    ∀ e ∈ r, a.weight < e.weight ∨ a.weight = e.weight ∧ a.node < e.node := by
  intro e he
  obtain ⟨hp, hle⟩ := extractMin_some h
  obtain ⟨m, hm, hma⟩ := Option.map_eq_some_iff.1 h
  obtain rfl : m = a := congrArg Prod.fst hma
  have hne : m.node ≠ e.node := fun heq =>
    (List.nodup_cons.1 ((hp.map QEntry.node).nodup_iff.1 hq)).1 (heq ▸ List.mem_map_of_mem he)
  have hmem : e ∈ q := hp.mem_iff.2 (List.mem_cons_of_mem _ he)
  have hkey : ¬ (e.weight < m.weight ∨ e.weight = m.weight ∧ e.node < m.node) := by
    rw [← keyLt_iff, (argminKey_some hm).2 e hmem]
    exact Bool.false_ne_true
  simp only [BitVec.lt_def, ← BitVec.toNat_inj, ne_eq] at hkey hne ⊢
  omega

/-- Settles O37: each of the two extractions takes the element of least key. -/
theorem mergeTakesTheTwoLeastKeys : Obligations.MergeTakesTheTwoLeastKeys := by
  unfold Obligations.MergeTakesTheTwoLeastKeys
  intro t h2 hq
  obtain ⟨a, b, r, rest, ha, hb, hp⟩ := extract_two .lowestKey t.draws h2
  have hr : (r.map QEntry.node).Nodup :=
    (List.nodup_cons.1 (((extractMin_some ha).1.map QEntry.node).nodup_iff.1 hq)).2
  exact ⟨a, b, rest, hp, mergeStep_eq ha hb,
    fun e he => extractMin_lowestKey_lt hq ha e ((extractMin_some hb).1.mem_iff.2 he), extractMin_lowestKey_lt hr hb⟩

/-- Settles O38: each of the two extractions takes an element of least weight. -/
theorem anyMinMergeTakesLeastWeights : Obligations.AnyMinMergeTakesLeastWeights := by
  unfold Obligations.AnyMinMergeTakesLeastWeights
  intro t h2
  obtain ⟨a, b, r, rest, ha, hb, hp⟩ := extract_two .anyMin t.draws h2
  obtain ⟨hpb, hleb⟩ := extractMin_some hb
  exact ⟨a, b, rest, hp, mergeStep_eq ha hb,
    fun e he => (extractMin_some ha).2 e (hp.mem_iff.2 (List.mem_cons_of_mem _ he)),
    fun e he => hleb e (hpb.mem_iff.2 (List.mem_cons_of_mem _ he))⟩

/-! ### Where the leaves and the root stand (42_tree_builder.md R171, R174) -/

theorem pairwise_present (t : Table Word) : (present t).Pairwise (· < ·) := by
  rw [present_eq]
  exact pairwise_symbols.filter _

theorem getElem?_append_of_some {α : Type} {l : List α} {i : Nat} {x : α} (h : l[i]? = some x) (more : List α) :
    (l ++ more)[i]? = some x := by
  rw [List.getElem?_append_left (List.getElem?_eq_some_iff.1 h).1, h]

/-- The leaves are the first nodes of the finished arena (42_tree_builder.md R171). -/
theorem getElem?_huffman_nodes_of_lt (tb : TieBreak) (t : Table Word) (d : Nat) {k : Nat} (h : k < (present t).length) :
    (huffman tb t d).nodes[k]? = some (.leaf (present t)[k] ((entry t (present t)[k]).zeroExtend 40)) := by
  obtain ⟨more, hm⟩ := mergeAll_nodes (tb := tb) (nsym t) (startBuilder t d)
  rw [huffman, hm]
  exact getElem?_append_of_some (by simp [startBuilder, leaves_eq, h]) more

/-- What a merge does, whatever the tie-break: two elements of the queue give way to their new parent. -/
theorem mergeStep_joins (tb : TieBreak) {t : TreeBuilder} (h2 : 2 ≤ t.queue.length) :
    ∃ a b rest, t.queue.Perm (a :: b :: rest) ∧
      (mergeStep tb t).nodes = t.nodes ++ [.internal a.node b.node (a.weight + b.weight)] ∧
      (mergeStep tb t).queue = rest ++ [{ weight := a.weight + b.weight, node := BitVec.ofNat 9 t.nodes.length }] := by
  obtain ⟨a, b, r, rest, ha, hb, hp⟩ := extract_two tb t.draws h2
  exact ⟨a, b, rest, hp, by rw [mergeStep_eq ha hb], by rw [mergeStep_eq ha hb]⟩

/-- The last element of the queue is the last node built. -/
def LastQueuedIsLastNode (t : TreeBuilder) : Prop :=
  t.queue.getLast?.map QEntry.node = some (BitVec.ofNat 9 (t.nodes.length - 1))

theorem mergeStep_lastQueuedIsLastNode {tb : TieBreak} {t : TreeBuilder} (h2 : 2 ≤ t.queue.length) :
    LastQueuedIsLastNode (mergeStep tb t) := by
  obtain ⟨a, b, rest, -, hnodes, hqueue⟩ := mergeStep_joins tb h2
  simp [LastQueuedIsLastNode, hnodes, hqueue]

theorem startBuilder_lastQueuedIsLastNode {t : Table Word} (d : Nat) (hn : nsym t ≠ 0) :
    LastQueuedIsLastNode (startBuilder t d) := by
  have hl := length_leaves t
  have hlast : nsym t - 1 < (leaves t).length := by omega
  simp [LastQueuedIsLastNode, startBuilder, initialQueue, List.getLast?_eq_getElem?, hl, List.getElem?_eq_getElem hlast]

/-- The finished builder has one element in its queue, ROOT, which is the last of the 2n - 1 nodes. -/
theorem huffman_queue (tb : TieBreak) (t : Table Word) (d : Nat) (hn : nsym t ≠ 0) :
    ∃ e, (huffman tb t d).queue = [e] ∧ e.node = BitVec.ofNat 9 (2 * nsym t - 2) ∧ (huffman tb t d).root = e.node := by
  have hq : (startBuilder t d).queue.length = nsym t := by simp [startBuilder, length_leaves]
  obtain ⟨e, he⟩ : ∃ e, (huffman tb t d).queue = [e] := List.length_eq_one_iff.1 (le_antisymm
    (mergeAll_queue (nsym t) (by omega)) (mergeAll_lengths (nsym t) (startBuilder t d) (by omega)).2)
  have hlast : LastQueuedIsLastNode (huffman tb t d) :=
    mergeAll_induct (fun _ h2 _ => mergeStep_lastQueuedIsLastNode h2) (nsym t) (startBuilder_lastQueuedIsLastNode d hn)
  refine ⟨e, he, ?_, by simp [TreeBuilder.root, he]⟩
  simpa [LastQueuedIsLastNode, he, (huffman_tree tb t d hn).1, Nat.sub_sub] using hlast

/-- The effect of TREE_BUILD on the registers of the tree (42_tree_builder.md R170). -/
theorem buildTree_eq {s : State} (hn : nsym s.freq ≠ 0) :
    buildTree s =
      { s with
        nodes := (buildTree s).nodes
        root := BitVec.ofNat 9 (2 * nsym s.freq - 2)
        nodeCount := BitVec.ofNat 10 (2 * nsym s.freq - 1)
        leafCount := BitVec.ofNat 9 (nsym s.freq)
        treeValid := true
        tieDraws := (buildTree s).tieDraws } := by
  obtain ⟨e, -, hnode, hroot⟩ := huffman_queue s.cfg.tieBreak s.freq s.tieDraws hn
  simp only [buildTree, hroot.trans hnode, (huffman_tree s.cfg.tieBreak s.freq s.tieDraws hn).1]

/-- The nodes of the finished builder are the first nodes of the arena. -/
theorem getElem?_buildTree_nodes {s : State} {k : Nat} {x : Node}
    (h : (huffman s.cfg.tieBreak s.freq s.tieDraws).nodes[k]? = some x) : (buildTree s).nodes[k]? = some x := by
  rw [buildTree_nodes]
  exact getElem?_append_of_some h _

/-- Settles O35: the leaves are the first nodes of the finished arena, the root is the last. -/
theorem treeBuildLaysOutTheArena : Obligations.TreeBuildLaysOutTheArena := by
  unfold Obligations.TreeBuildLaysOutTheArena
  intro s hf hn
  rw [← nsym_eq_keyCount] at hn ⊢
  refine ⟨_, _, (exec_of_commandBody (i := .treeBuild) hf (treeBuildBody_of_nonempty hn)).trans
    (congrArg (fun u => Host.Outcome.next (State.completed u 0 0 0 (nsym s.freq))) (buildTree_eq hn)), ?_,
    present s.freq, rfl, pairwise_present _, mem_present _,
    fun k h => getElem?_buildTree_nodes (getElem?_huffman_nodes_of_lt _ _ _ h)⟩
  rw [buildTree_nodes, List.length_append, (huffman_tree _ _ _ hn).1]
  exact Nat.le_add_right _ _

end Sys2Proof.Machine

/-! ## Proofs: the structure of the tree that TREE_BUILD makes (42_tree_builder.md R176) -/

namespace Sys2Proof.Machine

/-! ### The invariant of the merges -/

/-- The child references of a node, left before right. -/
def childrenOf : Node → List NodeIdx
  | .leaf _ _ => []
  | .internal l r _ => [l, r]

theorem isChild_iff (node : NodeIdx → Node) (k c : NodeIdx) : isChild node k c ↔ c ∈ childrenOf (node k) := by
  unfold isChild
  cases node k <;> simp [childrenOf]

/-- Every reference to a node that a builder holds: as a child in the arena, or waiting in the queue. -/
def TreeBuilder.refs (t : TreeBuilder) : List NodeIdx := t.nodes.flatMap childrenOf ++ t.queue.map QEntry.node

/-- Node `k` is internal, its children are two different older nodes, and its weight is the exact sum of theirs
(42_tree_builder.md R173, R176 item 1). -/
def IsSumNode (nodes : List Node) (k : Nat) : Prop :=
  ∃ l r w x y, nodes[k]? = some (.internal l r w) ∧ l.toNat < k ∧ r.toNat < k ∧ l ≠ r ∧
    nodes[l.toNat]? = some x ∧ nodes[r.toNat]? = some y ∧ w.toNat = x.weight.toNat + y.weight.toNat

/-- What every merge of `n` leaves with the sum of weights `total` keeps: each node is referred to exactly once, the
nodes after the leaves are sums of older ones, and the queue shares out the whole weight (42_tree_builder.md R175,
R176). -/
structure Merging (n total : Nat) (t : TreeBuilder) : Prop where
  room : t.nodes.length + t.queue.length ≤ 512
  refs : (t.refs.map BitVec.toNat).Perm (List.range t.nodes.length)
  inner : ∀ k, n ≤ k → k < t.nodes.length → IsSumNode t.nodes k
  queued : ∀ e ∈ t.queue, ∃ x, t.nodes[e.node.toNat]? = some x ∧ x.weight = e.weight
  weights : (t.queue.map fun e => e.weight.toNat).sum = total

theorem IsSumNode.append {nodes : List Node} {k : Nat} (h : IsSumNode nodes k) (more : List Node) :
    IsSumNode (nodes ++ more) k := by
  obtain ⟨l, r, w, x, y, hk, hl, hr, hne, hx, hy, hw⟩ := h
  exact ⟨l, r, w, x, y, getElem?_append_of_some hk more, hl, hr, hne, getElem?_append_of_some hx more,
    getElem?_append_of_some hy more, hw⟩

theorem Merging.nodup_refs {n total : Nat} {t : TreeBuilder} (h : Merging n total t) : t.refs.Nodup :=
  List.Nodup.of_map _ (h.refs.nodup_iff.2 List.nodup_range)

section
variable {n total : Nat} {t : TreeBuilder} {a b : QEntry} {rest : List QEntry} (h : Merging n total t)
  (hp : t.queue.Perm (a :: b :: rest))
include h hp

theorem Merging.weights_split :
    total = a.weight.toNat + (b.weight.toNat + (rest.map fun e => e.weight.toNat).sum) := by
  have hsum := (hp.map fun e => e.weight.toNat).sum_eq
  rwa [h.weights, List.map_cons, List.map_cons, List.sum_cons, List.sum_cons] at hsum

/-- No addition of weights wraps (42_tree_builder.md R175). -/
theorem Merging.toNat_add_weights (ht : total < 2 ^ 40) :
    (a.weight + b.weight).toNat = a.weight.toNat + b.weight.toNat := by
  have hsplit := h.weights_split hp
  rw [BitVec.toNat_add]
  omega

theorem Merging.node_ne : a.node ≠ b.node := by
  have hqueue := (hp.map QEntry.node).nodup_iff.1 (List.nodup_append.1 h.nodup_refs).2.1
  exact fun e => (List.nodup_cons.1 hqueue).1 (e ▸ List.mem_cons_self)

/-- The node that a merge adds is the sum of the two it joins (42_tree_builder.md R173). -/
theorem Merging.isSumNode_join (ht : total < 2 ^ 40) :
    IsSumNode (t.nodes ++ [.internal a.node b.node (a.weight + b.weight)]) t.nodes.length := by
  obtain ⟨x, hx, hxw⟩ := h.queued a (hp.mem_iff.2 (by simp))
  obtain ⟨y, hy, hyw⟩ := h.queued b (hp.mem_iff.2 (by simp))
  exact ⟨a.node, b.node, a.weight + b.weight, x, y, by simp, (List.getElem?_eq_some_iff.1 hx).1,
    (List.getElem?_eq_some_iff.1 hy).1, h.node_ne hp, getElem?_append_of_some hx _, getElem?_append_of_some hy _,
    by rw [h.toNat_add_weights hp ht, hxw, hyw]⟩

end

/-- A merge moves two references from the queue to the new node and puts one to the new node in the queue; the rest of
the invariant follows from the old nodes being kept. -/
theorem mergeStep_merging {tb : TieBreak} {n total : Nat} {t : TreeBuilder} (ht : total < 2 ^ 40)
    (h2 : 2 ≤ t.queue.length) (h : Merging n total t) : Merging n total (mergeStep tb t) := by
  obtain ⟨hlen, hqlen⟩ := mergeStep_lengths (tb := tb) h2
  obtain ⟨a, b, rest, hp, hnodes, hqueue⟩ := mergeStep_joins tb h2
  have hroom := h.room
  have hnew : (BitVec.ofNat 9 t.nodes.length).toNat = t.nodes.length := by
    rw [BitVec.toNat_ofNat]
    omega
  refine ⟨by omega, ?refs, fun k hk hlt => ?inner, fun e he => ?queued, ?weights⟩
  case refs =>
    have hmove : (mergeStep tb t).refs.Perm (t.refs ++ [BitVec.ofNat 9 t.nodes.length]) := by
      simp only [TreeBuilder.refs, hnodes, hqueue, childrenOf, List.flatMap_append, List.flatMap_singleton,
        List.map_append, List.map_singleton, List.append_assoc]
      exact ((hp.map QEntry.node).symm.append_right _).append_left _
    rw [hlen, List.range_succ]
    refine (hmove.map _).trans ?_
    rw [List.map_append, List.map_singleton, hnew]
    exact h.refs.append_right _
  case inner =>
    rw [hnodes]
    rcases Nat.lt_succ_iff_lt_or_eq.1 (hlt.trans_eq hlen) with hlt | rfl
    · exact (h.inner k hk hlt).append _
    · exact h.isSumNode_join hp ht
  case queued =>
    rw [hnodes]
    rw [hqueue] at he
    rcases List.mem_append.1 he with he | he
    · obtain ⟨x, hx, hxw⟩ := h.queued e (hp.mem_iff.2 (by simp [he]))
      exact ⟨x, getElem?_append_of_some hx _, hxw⟩
    · obtain rfl := List.mem_singleton.1 he
      exact ⟨.internal a.node b.node (a.weight + b.weight), by simp [hnew], rfl⟩
  case weights =>
    have hsplit := h.weights_split hp
    rw [hqueue, List.map_append, List.map_singleton, List.sum_append, List.sum_singleton,
      h.toNat_add_weights hp ht]
    omega

/-- The sum of the counts of the keys is the sum of all counts: the others are 0. -/
theorem sum_present (t : Table Word) :
    ((present t).map fun s => (entry t s).toNat).sum = ∑ k : Fin 256, (t[k.val]'k.isLt).toNat := by
  rw [← List.sum_toFinset _ (nodup_present t)]
  refine Finset.sum_bij_ne_zero (fun s _ _ => s.toFin) (fun _ _ _ => Finset.mem_univ _)
    (fun _ _ _ _ _ _ h => BitVec.eq_of_toFin_eq h) (fun k _ hk => ?_) (fun _ _ _ => rfl)
  refine ⟨BitVec.ofFin k, ?_, hk, rfl⟩
  rw [List.mem_toFinset, mem_present]
  exact fun h0 => hk (congrArg BitVec.toNat h0)

/-- No sum of leaf counts reaches 2^40 (42_tree_builder.md R175). -/
theorem sum_counts_lt (t : Table Word) : ∑ k : Fin 256, (t[k.val]'k.isLt).toNat < 2 ^ 40 := by
  have h := Finset.sum_le_card_nsmul Finset.univ (fun k : Fin 256 => (t[k.val]'k.isLt).toNat) (2 ^ 32 - 1)
    fun k _ => Nat.le_pred_of_lt (t[k.val]'k.isLt).isLt
  rw [Finset.card_univ, Fintype.card_fin, smul_eq_mul] at h
  omega

/-- The first queue names the leaves in order. -/
theorem initialQueue_nodes {ls : List Node} (h : ls.length ≤ 512) :
    ((initialQueue ls).map QEntry.node).map BitVec.toNat = List.range ls.length := by
  refine List.ext_getElem (by simp) fun i hi _ => ?_
  have hlt : i < ls.length := by simpa using hi
  have hmod : i % 512 = i := Nat.mod_eq_of_lt (by omega)
  simp [initialQueue, hmod]

/-- The first queue shares out the sum of the counts. -/
theorem initialQueue_weights (t : Table Word) :
    ((initialQueue (leaves t)).map fun e => e.weight.toNat).sum = ∑ k : Fin 256, (t[k.val]'k.isLt).toNat := by
  have hleaf : ((initialQueue (leaves t)).map fun e => e.weight.toNat) = (leaves t).map fun x => x.weight.toNat := by
    refine List.ext_getElem (by simp) fun i _ _ => ?_
    simp [initialQueue]
  rw [hleaf, leaves_eq, List.map_map, ← sum_present]
  refine congrArg List.sum (List.map_congr_left fun x _ => ?_)
  exact BitVec.toNat_setWidth_of_le (by decide)

theorem startBuilder_merging (t : Table Word) (d : Nat) :
    Merging (nsym t) (∑ k : Fin 256, (t[k.val]'k.isLt).toNat) (startBuilder t d) := by
  have hl := length_leaves t
  have hle := (nsym_eq_keyCount t).trans_le (keyCount_le t)
  refine ⟨?room, ?refs, fun k hk hlt => absurd (hlt.trans_eq hl) hk.not_gt, fun e he => ?queued,
    initialQueue_weights t⟩
  case room =>
    simp only [startBuilder, length_initialQueue]
    omega
  case refs =>
    have hleaf : (leaves t).flatMap childrenOf = [] := by simp [leaves_eq, childrenOf]
    simp only [TreeBuilder.refs, startBuilder, hleaf, List.nil_append, initialQueue_nodes (hl.trans_le (by omega))]
    exact .refl _
  case queued =>
    obtain ⟨⟨x, i⟩, hi, rfl⟩ := List.mem_map.1 he
    have hx := List.mem_zipIdx_iff_getElem?.1 hi
    have hlt := (List.getElem?_eq_some_iff.1 hx).1
    refine ⟨x, ?_, rfl⟩
    rw [BitVec.toNat_ofNat, Nat.mod_eq_of_lt (by omega)]
    exact hx

/-- The invariant at the end of the loop (42_tree_builder.md R176). -/
theorem huffman_merging (tb : TieBreak) (t : Table Word) (d : Nat) :
    Merging (nsym t) (∑ k : Fin 256, (t[k.val]'k.isLt).toNat) (huffman tb t d) :=
  mergeAll_induct (fun _ h2 h => mergeStep_merging (sum_counts_lt t) h2 h) (nsym t) (startBuilder_merging t d)

/-! ### What the invariant says at the end of the loop -/

/-- In a list of nodes that refers to nothing twice, a child has exactly one parent. -/
theorem eq_of_common_child {nodes : List Node} (hn : (nodes.flatMap childrenOf).Nodup) {i j : Nat} {x y : Node}
    {c : NodeIdx} (hi : nodes[i]? = some x) (hj : nodes[j]? = some y) (hx : c ∈ childrenOf x) (hy : c ∈ childrenOf y) :
    i = j := by
  obtain ⟨hi', rfl⟩ := List.getElem?_eq_some_iff.1 hi
  obtain ⟨hj', rfl⟩ := List.getElem?_eq_some_iff.1 hj
  have hd := List.pairwise_iff_getElem.1 (List.nodup_flatMap.1 hn).2
  rcases lt_trichotomy i j with h | h | h
  · exact absurd hy (hd i j hi' hj' h hx)
  · exact h
  · exact absurd hx (hd j i hj' hi' h hy)

/-- A descent to a leaf follows a path of the represented tree. -/
theorem TreeAt.hasPath_of_descend {s : State} {k : NodeIdx} {T : CodeTree} (hT : TreeAt s.nodes k T) {bits : List Bool}
    {c : NodeIdx} {sym : Symbol} {w : Weight} (hd : descend (nodeAt s) k bits = some c)
    (hc : nodeAt s c = .leaf sym w) : T.HasPath bits sym := by
  induction hT generalizing bits with
  | leaf hk =>
    cases bits with
    | nil =>
      obtain rfl := Option.some.inj hd
      rw [nodeAt_eq hk] at hc
      cases hc
      exact .here _
    | cons b bs => simp [descend, nodeAt_eq hk] at hd
  | node hk _ _ ihl ihr =>
    cases bits with
    | nil =>
      obtain rfl := Option.some.inj hd
      rw [nodeAt_eq hk] at hc
      cases hc
    | cons b bs =>
      simp only [descend, nodeAt_eq hk] at hd
      cases b with
      | false => exact .left (ihl hd)
      | true => exact .right (ihr hd)

theorem TreeBuilder.refs_of_queue_singleton {t : TreeBuilder} {e : QEntry} (he : t.queue = [e]) :
    t.refs = t.nodes.flatMap childrenOf ++ [e.node] := by
  rw [TreeBuilder.refs, he, List.map_singleton]

section
variable {n total : Nat} {t : TreeBuilder} {e : QEntry} (h : Merging n total t) (he : t.queue = [e])
include h he

theorem Merging.nodup_children_root : (t.nodes.flatMap childrenOf ++ [e.node]).Nodup :=
  t.refs_of_queue_singleton he ▸ h.nodup_refs

/-- Every node but the last in the queue is a child (42_tree_builder.md R176 item 3). -/
theorem Merging.exists_parent {c : NodeIdx} (hc : c.toNat < t.nodes.length) (hne : c ≠ e.node) :
    ∃ (i : Nat) (x : Node), t.nodes[i]? = some x ∧ c ∈ childrenOf x := by
  have hmem := h.refs.mem_iff.2 (List.mem_range.2 hc)
  rw [List.mem_map_of_injective BitVec.toNat_injective, t.refs_of_queue_singleton he, List.mem_append,
    List.mem_singleton] at hmem
  obtain ⟨x, hx, hcx⟩ := List.mem_flatMap.1 (hmem.resolve_right hne)
  obtain ⟨i, hi⟩ := List.mem_iff_getElem?.1 hx
  exact ⟨i, x, hi, hcx⟩

/-- The last element of the queue is no node's child (42_tree_builder.md R176 item 3). -/
theorem Merging.root_not_child {i : Nat} {x : Node} (hi : t.nodes[i]? = some x) : e.node ∉ childrenOf x := fun hx =>
  (List.nodup_append.1 (h.nodup_children_root he)).2.2 _ (List.mem_flatMap.2 ⟨x, List.mem_of_getElem? hi, hx⟩) _
    List.mem_cons_self rfl

/-- The last element of the queue has the whole weight (42_tree_builder.md R176 item 4). -/
theorem Merging.root_weight : ∃ x, t.nodes[e.node.toNat]? = some x ∧ x.weight.toNat = total := by
  obtain ⟨x, hx, hw⟩ := h.queued e (he ▸ List.mem_cons_self)
  refine ⟨x, hx, ?_⟩
  rw [hw, ← h.weights, he, List.map_singleton, List.sum_singleton]

end

/-! ### The structure in the arena after TREE_BUILD -/

theorem nodeAt_buildTree_of_getElem? {s : State} {k : NodeIdx} {x : Node}
    (h : (huffman s.cfg.tieBreak s.freq s.tieDraws).nodes[k.toNat]? = some x) : nodeAt (buildTree s) k = x :=
  nodeAt_eq (getElem?_buildTree_nodes h)

theorem buildTree_leaf {s : State} {k : NodeIdx} (hk : k.toNat < nsym s.freq) :
    ∃ sym w, nodeAt (buildTree s) k = .leaf sym w :=
  ⟨_, _, nodeAt_buildTree_of_getElem? (getElem?_huffman_nodes_of_lt _ _ _ hk)⟩

section
variable {s : State} (hn : nsym s.freq ≠ 0)
include hn

/-- The finished tree stands at the start of the arena. -/
theorem getElem?_huffman_nodes {k : NodeIdx} (hk : k.toNat < 2 * nsym s.freq - 1) :
    (huffman s.cfg.tieBreak s.freq s.tieDraws).nodes[k.toNat]? = some (nodeAt (buildTree s) k) := by
  have hx := List.getElem?_eq_getElem (hk.trans_eq (huffman_tree s.cfg.tieBreak s.freq s.tieDraws hn).1.symm)
  rw [hx, nodeAt_buildTree_of_getElem? hx]

/-- 42_tree_builder.md R176 item 1. -/
theorem buildTree_internal {k : NodeIdx} (hk : nsym s.freq ≤ k.toNat) (hlt : k.toNat < 2 * nsym s.freq - 1) :
    ∃ l r w, nodeAt (buildTree s) k = .internal l r w ∧ l.toNat < k.toNat ∧ r.toNat < k.toNat ∧ l ≠ r ∧
      w.toNat = (nodeAt (buildTree s) l).weight.toNat + (nodeAt (buildTree s) r).weight.toNat := by
  obtain ⟨l, r, w, x, y, hnode, hl, hr, hne, hx, hy, hw⟩ :=
    (huffman_merging s.cfg.tieBreak s.freq s.tieDraws).inner k.toNat hk
      (hlt.trans_eq (huffman_tree s.cfg.tieBreak s.freq s.tieDraws hn).1.symm)
  exact ⟨l, r, w, nodeAt_buildTree_of_getElem? hnode, hl, hr, hne, by
    rw [nodeAt_buildTree_of_getElem? hx, nodeAt_buildTree_of_getElem? hy, hw]⟩

/-- 42_tree_builder.md R176 item 3, for the nodes other than ROOT. -/
theorem buildTree_existsUnique_parent {c : NodeIdx} (hc : c.toNat < 2 * nsym s.freq - 1)
    (hroot : c ≠ (buildTree s).root) :
    ∃! k : NodeIdx, k.toNat < 2 * nsym s.freq - 1 ∧ isChild (nodeAt (buildTree s)) k c := by
  have hm := huffman_merging s.cfg.tieBreak s.freq s.tieDraws
  have hlen := (huffman_tree s.cfg.tieBreak s.freq s.tieDraws hn).1
  have hle := length_huffman_nodes_le s.cfg.tieBreak s.freq s.tieDraws
  obtain ⟨e, he, -, her⟩ := huffman_queue s.cfg.tieBreak s.freq s.tieDraws hn
  obtain ⟨i, x, hi, hx⟩ := hm.exists_parent he (hc.trans_eq hlen.symm) (her ▸ hroot)
  have hlt := (List.getElem?_eq_some_iff.1 hi).1
  have hk : (BitVec.ofNat 9 i).toNat = i := by
    rw [BitVec.toNat_ofNat]
    omega
  refine ⟨BitVec.ofNat 9 i, ⟨by omega, ?_⟩, fun k' ⟨hlt', hchild⟩ => ?_⟩
  · rwa [isChild_iff, nodeAt_buildTree_of_getElem? (hk.symm ▸ hi)]
  · rw [isChild_iff] at hchild
    have heq := eq_of_common_child (List.nodup_append.1 (hm.nodup_children_root he)).1
      (getElem?_huffman_nodes hn hlt') hi hchild hx
    exact BitVec.eq_of_toNat_eq (heq.trans hk.symm)

/-- 42_tree_builder.md R176 item 3, for ROOT. -/
theorem buildTree_root_not_child {k : NodeIdx} (hk : k.toNat < 2 * nsym s.freq - 1) :
    ¬ isChild (nodeAt (buildTree s)) k (buildTree s).root := by
  obtain ⟨e, he, -, her⟩ := huffman_queue s.cfg.tieBreak s.freq s.tieDraws hn
  rw [isChild_iff, buildTree_root, her]
  exact (huffman_merging s.cfg.tieBreak s.freq s.tieDraws).root_not_child he (getElem?_huffman_nodes hn hk)

/-- 42_tree_builder.md R176 item 4. -/
theorem buildTree_root_weight :
    (nodeAt (buildTree s) (buildTree s).root).weight.toNat = ∑ k : Fin 256, (s.freq[k.val]'k.isLt).toNat := by
  obtain ⟨e, he, -, her⟩ := huffman_queue s.cfg.tieBreak s.freq s.tieDraws hn
  obtain ⟨x, hx, hw⟩ := (huffman_merging s.cfg.tieBreak s.freq s.tieDraws).root_weight he
  rw [buildTree_root, her, nodeAt_buildTree_of_getElem? hx, hw]

/-- 42_tree_builder.md R176 item 5: a path is no longer than the tree is deep. -/
theorem buildTree_path_length_lt {bits : List Bool} {k : NodeIdx} {sym : Symbol} {w : Weight}
    (hd : descend (nodeAt (buildTree s)) (buildTree s).root bits = some k)
    (hk : nodeAt (buildTree s) k = .leaf sym w) : bits.length < nsym s.freq := by
  obtain ⟨T, hT, hp, -, -⟩ := (buildTree_treeIsCurrent hn).exists_tree
  calc bits.length ≤ T.depth := (hT.hasPath_of_descend hd hk).length_le
    _ < T.syms.length := T.depth_lt_length_syms
    _ = nsym s.freq := hp.length_eq

end

/-- Settles O36: the completion record leaves the tree alone, and each item of R176 holds of the tree that the merges
build. -/
theorem treeBuildStructure : Obligations.TreeBuildStructure := by
  unfold Obligations.TreeBuildStructure
  intro s t hf hn ht
  have hle := keyCount_le s.freq
  rw [← nsym_eq_keyCount] at hn hle ⊢
  obtain rfl := Host.Outcome.next.inj
    (ht.symm.trans (exec_of_commandBody (i := .treeBuild) hf (treeBuildBody_of_nonempty hn)))
  refine ⟨fun k hk hlt => buildTree_internal hn hk hlt, fun k hk => buildTree_leaf hk, ?_,
    fun c hc hr => buildTree_existsUnique_parent hn hc hr, fun k hk => buildTree_root_not_child hn hk,
    buildTree_root_weight hn, fun bits k sym w hd hk => Nat.le_sub_one_of_lt (buildTree_path_length_lt hn hd hk)⟩
  rw [completed_nodeCount, buildTree_eq hn, BitVec.toNat_ofNat]
  omega

end Sys2Proof.Machine

/-! ## Proofs: the code assigner (43_code_assigner.md) -/

namespace Sys2Proof.Machine

/-! ### How many codes the walk gives (43_code_assigner.md R193) -/

/-- The number of codes of a table whose coded symbols are listed, each once. -/
theorem codedCount_of_mem_iff {t : Table Code} {l : List Symbol} (hl : l.Nodup)
    (h : ∀ x, (entry t x).len ≠ 0 ↔ x ∈ l) : codedCount t = l.length := by
  rw [codedCount, coded_eq, List.length_map]
  exact ((List.perm_ext_iff_of_nodup (nodup_symbols.filter _) hl).2 fun x => by simp [← h x]).length_eq

namespace State.treeIsCurrent

variable {s : State} (h : s.treeIsCurrent)
include h

/-- The walk of a current tree codes exactly the keys of FREQ (43_code_assigner.md R195 item 1). -/
theorem len_ne_zero_iff (x : Symbol) :
    (entry (codesOfTree (nodeAt s) s.root) x).len ≠ 0 ↔ entry s.freq x ≠ 0 := by
  obtain ⟨T, hT, hp, hn, hd⟩ := h.exists_tree
  rw [codesOfTree_len_ne_zero_iff hT hn hd, hp.mem_iff, mem_present]

/-- The walk of a current tree gives NSYM codes (43_code_assigner.md R195 item 4). -/
theorem codedCount_eq : codedCount (codesOfTree (nodeAt s) s.root) = nsym s.freq :=
  codedCount_of_mem_iff (nodup_present _) fun x => (h.len_ne_zero_iff x).trans (mem_present _ x).symm

theorem nsym_ne_zero : nsym s.freq ≠ 0 := h.1

theorem leafCount_toNat : s.leafCount.toNat = nsym s.freq := by
  obtain ⟨-, d, -, -, -, hleaf⟩ := h
  have hle := (nsym_eq_keyCount s.freq).trans_le (keyCount_le s.freq)
  rw [hleaf, BitVec.toNat_ofNat, Nat.mod_eq_of_lt (by omega)]

/-- The check of CODE_ASSIGN holds of every current tree (43_code_assigner.md R193, R195 item 4). -/
theorem assignOk : assignOk s = true :=
  decide_eq_true (h.codedCount_eq.trans h.leafCount_toNat.symm)

end State.treeIsCurrent

/-- The tree that BUILD_TABLE builds from a source that is not empty is current (43_code_assigner.md R196). -/
theorem countAndBuild_treeIsCurrent {s : State} (h : s.srcLen ≠ 0) : (countAndBuild s).treeIsCurrent :=
  buildTree_treeIsCurrent (nsym_addCounts_srcBytes_ne_zero h)

/-! ### The fatal state is not entered (60_exceptions.md R271) -/

/-- No command sets FATAL when a valid tree is current. -/
theorem commandBody_not_fatal (i : Instr) {s : State} (hf : s.fatal = false)
    (htree : s.treeValid = true → s.treeIsCurrent) : (commandBody i s).1.fatal = false := by
  by_cases hi : i ∈ [Instr.codeAssign, .buildTable]
  · simp only [List.mem_cons, List.not_mem_nil, or_false] at hi
    rcases hi with rfl | rfl
    · rcases codeAssignBody_cases s with e | ⟨hv, e, -⟩
      · rw [commandBody, e, hf]
      · rw [commandBody, e, assignCodes_fatal, hf, (htree hv).assignOk]
        rfl
    · rcases buildTableBody_cases s with e | ⟨hl, e, -⟩
      · rw [commandBody, e, hf]
      · rw [commandBody, e, assignCodes_fatal, (countAndBuild_treeIsCurrent hl).assignOk]
        simpa [countAndBuild] using hf
  · rw [(commandBody_writesOnlyItsTables i s).fatal hi, hf]

theorem runCurrent_not_fatal {s t : State} (hf : s.fatal = false) (htree : s.treeValid = true → s.treeIsCurrent)
    (ht : runCurrent s = .next t) : t.fatal = false := by
  have completion : ∀ body : State → State × Report, (body s).1.fatal = false → command s body = .next t →
      t.fatal = false := fun body hbody hc => by
    rw [command_of_not_fatal hf] at hc
    obtain rfl := Host.Outcome.next.inj hc
    exact hbody
  unfold runCurrent at ht
  split at ht
  · rename_i i _
    exact completion _ (commandBody_not_fatal i hf htree) ((exec_eq_command i s).symm.trans ht)
  · exact completion _ hf ht

/-- Settles O60: only the check of CODE_ASSIGN and BUILD_TABLE can set FATAL, and it holds of a tree that is the tree of
FREQ, as every valid tree of a safe state is: the walk gives one code for each key. -/
theorem fatalIsUnreachable : Obligations.FatalIsUnreachable := by
  unfold Obligations.FatalIsUnreachable
  rintro s t ⟨hinv, hf⟩ hstep
  rcases step_cases hstep with ⟨a, rest, -, rfl⟩ | ⟨rest, -, rfl⟩ | ⟨-, -, rfl⟩ | ⟨-, -, hrun⟩
  · exact (hostStep_keeps_sched_fatal _ a).2.trans hf
  · rfl
  · exact hf
  · exact runCurrent_not_fatal (s := { s with sched := s.sched.tail }) hf hinv.treeOk hrun

/-! ### The host's writes of the code windows (43_code_assigner.md R205) -/

/-- Settles O17: the offsets are those of CODE_LEN and CODE_VALk, whose writes set one field of the entry of
SYM_INDEX. -/
theorem codeWindowWritesReplaceOneField : Obligations.CodeWindowWritesReplaceOneField := by
  unfold Obligations.CodeWindowWritesReplaceOneField
  refine ⟨fun s w rest h hb => ?_, fun s k w rest h hb => ?_⟩
  · refine ⟨setEntry s.codes s.symIndex { entry s.codes s.symIndex with len := w.extractLsb' 0 8 },
      step_regWrite_of_idle (r := .codeLen) hb h, ?_, ?_, fun x hx => entry_setEntry_other _ _ hx.symm⟩
    · rw [entry_setEntry_same]
    · rw [entry_setEntry_same]
  · refine ⟨setEntry s.codes s.symIndex
        { entry s.codes s.symIndex with val := setCodeValSlice (entry s.codes s.symIndex).val k w },
      step_regWrite_of_idle (r := .codeVal k) hb h, ?_, fun j hj => ?_,
      fun x hx => entry_setEntry_other _ _ hx.symm⟩
    · rw [entry_setEntry_same]
    · rw [entry_setEntry_same, setCodeValSlice_getLsbD _ k w hj]
      have hslice : j / 32 = k.val ↔ 32 * k.val ≤ j ∧ j < 32 * k.val + 32 := by omega
      refine ite_congr (propext hslice) (fun hk => ?_) fun _ => rfl
      congr 1
      omega

/-! ### The ends of CODE_ASSIGN (43_code_assigner.md R190, R193) -/

theorem assignCodes_of_ok {s : State} (h : assignOk s = true) :
    assignCodes s =
      { s with codes := codesOfTree (nodeAt s) s.root, treeValid := false, tableValid := true } := by
  simp [assignCodes, h]

theorem codeAssignBody_of_ok {s : State} (hv : s.treeValid = true) (h : assignOk s = true) :
    codeAssignBody s = (assignCodes s, finish (count := codedCount (codesOfTree (nodeAt s) s.root))) := by
  rw [codeAssignBody, if_pos hv, if_pos h, assignCodes_codes]

theorem codeAssignBody_of_mismatch {s : State} (hv : s.treeValid = true) (h : assignOk s = false) :
    codeAssignBody s = (assignCodes s, raise .invariantViolation) := by
  simp [codeAssignBody, hv, h]

/-- CODE_ASSIGN succeeds when its check holds, and reports the number of codes (43_code_assigner.md R190, R194). -/
theorem exec_codeAssign_of_ok {s : State} (hf : s.fatal = false) (hv : s.treeValid = true) (h : assignOk s = true) :
    exec .codeAssign s = .next (State.completed
      { s with codes := codesOfTree (nodeAt s) s.root, treeValid := false, tableValid := true } 0 0 0
      (codedCount (codesOfTree (nodeAt s) s.root))) := by
  rw [← assignCodes_of_ok h]
  exact exec_of_commandBody (i := .codeAssign) hf (codeAssignBody_of_ok hv h)

/-- The codes that a successful CODE_ASSIGN leaves. -/
theorem codes_of_exec_codeAssign {s t : State} (hf : s.fatal = false) (hv : s.treeValid = true)
    (h : s.treeIsCurrent) (ht : exec .codeAssign s = .next t) : t.codes = codesOfTree (nodeAt s) s.root := by
  rw [exec_codeAssign_of_ok hf hv h.assignOk] at ht
  obtain rfl := Host.Outcome.next.inj ht
  rfl

/-- Settles O39: the table of a single leaf has one code, as LEAF_COUNT says. -/
theorem singleSymbolGetsOneBit : Obligations.SingleSymbolGetsOneBit := by
  unfold Obligations.SingleSymbolGetsOneBit
  intro s sym w hf hv hroot hleaf
  have hcodes : codesOfTree (nodeAt s) s.root = setEntry emptyCodes sym { len := 1, val := 0 } := by
    simp only [codesOfTree, hroot]
  have hother : ∀ x, x ≠ sym → entry (setEntry emptyCodes sym { len := 1, val := 0 }) x = { len := 0, val := 0 } :=
    fun x hx => by rw [entry_setEntry_other _ _ hx.symm, emptyCodes, entry_constTable]
  have hcount : codedCount (codesOfTree (nodeAt s) s.root) = 1 := by
    refine codedCount_of_mem_iff (List.nodup_singleton sym) fun x => ?_
    rw [hcodes, List.mem_singleton]
    by_cases hx : x = sym
    · rw [hx, entry_setEntry_same]
      simp
    · rw [hother x hx]
      simp [hx]
  refine ⟨setEntry emptyCodes sym { len := 1, val := 0 }, ?_, entry_setEntry_same _ _ _,
    fun x hx => by simp only [hother x hx, and_self]⟩
  have hok : assignOk s = true := decide_eq_true (hcount.trans (congrArg BitVec.toNat hleaf).symm)
  rw [exec_codeAssign_of_ok hf hv hok, hcount, hcodes]

/-- Settles O40: the failed check clears TABLE_VALID and sets FATAL. -/
theorem codeCountMismatchIsFatal : Obligations.CodeCountMismatchIsFatal := by
  unfold Obligations.CodeCountMismatchIsFatal
  intro s hf hv hne
  have hok : assignOk s = false := decide_eq_false (codedCount_eq_codeCount _ ▸ hne)
  have heff : assignCodes s =
      { s with codes := codesOfTree (nodeAt s) s.root, treeValid := false, tableValid := false, fatal := true } := by
    simp [assignCodes, hok]
  rw [← heff]
  exact exec_of_commandBody (i := .codeAssign) hf (codeAssignBody_of_mismatch hv hok)

/-! ### The codes of a current tree (43_code_assigner.md R195) -/

theorem CodeTree.HasCode.length_le_max {T : CodeTree} {q : List Bool} {x : Symbol} (h : T.HasCode q x) :
    q.length ≤ max 1 T.depth := by
  cases T with
  | leaf u => simp [h.2]
  | node l r => exact (HasPath.length_le h).trans (le_max_right _ _)

/-- A tree with the keys of FREQ at its leaves is less deep than their number (42_tree_builder.md R176 item 5). -/
theorem CodeTree.depth_lt_nsym {T : CodeTree} {t : Table Word} (hp : T.syms.Perm (present t)) : T.depth < nsym t :=
  T.depth_lt_length_syms.trans_eq hp.length_eq

/-- No code of a current tree is longer than max(1, n - 1) bits (43_code_assigner.md R195 item 3). -/
theorem State.treeIsCurrent.len_le {s : State} (h : s.treeIsCurrent) {x : Symbol} (hx : entry s.freq x ≠ 0) :
    (entry (codesOfTree (nodeAt s) s.root) x).len.toNat ≤ max 1 (nsym s.freq - 1) := by
  obtain ⟨T, hT, hp, hn, hd⟩ := h.exists_tree
  obtain ⟨q, hq⟩ := (T.mem_syms_iff_hasCode x).1 (hp.mem_iff.2 ((mem_present _ x).2 hx))
  rw [entry_codesOfTree_of_hasCode hT hn hd hq, pathCode_len (hq.length_le hd)]
  exact hq.length_le_max.trans (max_le_max_left 1 (Nat.le_sub_one_of_lt (CodeTree.depth_lt_nsym hp)))

theorem State.treeIsCurrent.wfTable {s : State} (h : s.treeIsCurrent) :
    wfTable (codesOfTree (nodeAt s) s.root) := (codeTableWf_iff _).1 h.codes_wf

/-- Settles O41: the check of CODE_ASSIGN holds, and the codes are the paths of a tree with each key of FREQ once. -/
theorem codeAssignGivesAPrefixFreeTable : Obligations.CodeAssignGivesAPrefixFreeTable := by
  unfold Obligations.CodeAssignGivesAPrefixFreeTable
  intro s hf hv h
  rw [← nsym_eq_keyCount]
  obtain ⟨-, hfits, -⟩ := h.wfTable
  refine ⟨codesOfTree (nodeAt s) s.root, ?_, h.len_ne_zero_iff, fun x hx => ⟨?_, ?_, hfits x hx⟩, h.wfTable⟩
  · rw [exec_codeAssign_of_ok hf hv h.assignOk, h.codedCount_eq]
  · exact Nat.pos_of_ne_zero fun e => hx (BitVec.eq_of_toNat_eq e)
  · exact h.len_le ((h.len_ne_zero_iff x).1 hx)

/-! ### Codes are paths (43_code_assigner.md R191) -/

/-- The bits of a path's code are the path. -/
theorem codeSequence_pathCode {q : List Bool} (h : q.length ≤ 255) : codeSequence (pathCode q) = q := by
  rw [← codeBits_eq_codeSequence, codeBits, pathCode_len h, pathCode_val h, bitsMsb_bitsValue]

/-- A path of the represented tree leads to its leaf in the arena. -/
theorem TreeAt.descend_of_hasPath {s : State} {k : NodeIdx} {T : CodeTree} (hT : TreeAt s.nodes k T) {q : List Bool}
    {x : Symbol} (hq : T.HasPath q x) : ∃ c w, descend (nodeAt s) k q = some c ∧ nodeAt s c = .leaf x w := by
  induction hT generalizing q with
  | leaf hk =>
    cases hq
    exact ⟨_, _, rfl, nodeAt_eq hk⟩
  | node hk _ _ ihl ihr =>
    cases hq with
    | left hq => simpa [descend, nodeAt_eq hk] using ihl hq
    | right hq => simpa [descend, nodeAt_eq hk] using ihr hq

/-- Settles O42: a tree of two keys or more is no leaf, so the code of a key is its path, and the path leads to the
leaf. -/
theorem codesArePathsToTheirLeaves : Obligations.CodesArePathsToTheirLeaves := by
  unfold Obligations.CodesArePathsToTheirLeaves
  intro s t hf hv h h2 ht x hx
  rw [← nsym_eq_keyCount] at h2
  obtain ⟨T, hT, hp, hn, hd⟩ := h.exists_tree
  obtain ⟨q, hq⟩ := (T.mem_syms_iff_hasCode x).1 (hp.mem_iff.2 ((mem_present _ x).2 hx))
  rw [codes_of_exec_codeAssign hf hv h ht, entry_codesOfTree_of_hasCode hT hn hd hq,
    codeSequence_pathCode (hq.length_le hd)]
  cases T with
  | leaf u =>
    have hone : 1 = nsym s.freq := hp.length_eq
    omega
  | node l r => exact hT.descend_of_hasPath hq

/-! ### The codes are complete (43_code_assigner.md R195 item 5) -/

/-- The share of the sequences of 255 bits that a symbol's code begins: `2^(-len)`, as a multiple of `2^(-255)`. -/
def codeShare (t : Table Code) (x : Symbol) : Nat :=
  if (entry t x).len = 0 then 0 else 2 ^ (255 - (entry t x).len.toNat)

/-- A sum over all symbols is a sum over a list of symbols outside of which the terms are 0. -/
theorem sum_univ_eq_sum_map {l : List Symbol} (hl : l.Nodup) {g : Symbol → Nat} (h0 : ∀ x, x ∉ l → g x = 0) :
    ∑ k : Fin 256, g (BitVec.ofFin k) = (l.map g).sum := by
  rw [← List.sum_toFinset _ hl]
  refine (Finset.sum_bij_ne_zero (fun x _ _ => x.toFin) (fun _ _ _ => Finset.mem_univ _)
    (fun _ _ _ _ _ _ h => BitVec.eq_of_toFin_eq h) (fun k _ hk => ?_) (fun _ _ _ => rfl)).symm
  exact ⟨BitVec.ofFin k, List.mem_toFinset.2 (by_contra fun hx => hk (h0 _ hx)), hk, rfl⟩

namespace CodeTree

/-- Kraft's equality: the leaves of a tree share out the sequences of `D` bits, `D` at least its depth. -/
theorem sum_syms_eq_two_pow {T : CodeTree} {g : Symbol → Nat} {D : Nat} (hD : T.depth ≤ D)
    (hg : ∀ q x, T.HasPath q x → g x = 2 ^ (D - q.length)) : (T.syms.map g).sum = 2 ^ D := by
  induction T generalizing D with
  | leaf s => simpa [syms] using hg [] s (.here s)
  | node l r ihl ihr =>
    simp only [depth] at hD
    obtain ⟨D, rfl⟩ : ∃ D', D = D' + 1 := ⟨D - 1, by omega⟩
    have hl := ihl (D := D) (by omega) fun q x hq => by simpa using hg _ x hq.left
    have hr := ihr (D := D) (by omega) fun q x hq => by simpa using hg _ x hq.right
    rw [syms, List.map_append, List.sum_append, hl, hr, Nat.pow_succ]
    omega

/-- A sequence of as many bits as the tree is deep runs into a leaf. -/
theorem exists_path_prefix (T : CodeTree) {bits : List Bool} (h : T.depth ≤ bits.length) :
    ∃ q x, T.HasPath q x ∧ q <+: bits := by
  induction T generalizing bits with
  | leaf s => exact ⟨[], s, .here s, List.nil_prefix⟩
  | node l r ihl ihr =>
    simp only [depth] at h
    cases bits with
    | nil => simp at h
    | cons b bs =>
      simp only [List.length_cons] at h
      cases b with
      | false =>
        obtain ⟨q, x, hq, hp⟩ := ihl (bits := bs) (by omega)
        exact ⟨_, x, hq.left, List.prefix_cons_inj _ |>.2 hp⟩
      | true =>
        obtain ⟨q, x, hq, hp⟩ := ihr (bits := bs) (by omega)
        exact ⟨_, x, hq.right, List.prefix_cons_inj _ |>.2 hp⟩

/-- Two codes that begin the same sequence are one symbol's. -/
theorem HasCode.eq_of_prefix {T : CodeTree} {q r bits : List Bool} {x y : Symbol} (hx : T.HasCode q x)
    (hy : T.HasCode r y) (hq : q <+: bits) (hr : r <+: bits) : x = y := by
  by_contra hne
  rcases List.prefix_or_prefix_of_prefix hq hr with h | h
  · exact hx.not_prefix hy hne h
  · exact hy.not_prefix hx (Ne.symm hne) h

end CodeTree

section
variable {s : State} {T : CodeTree} (hT : TreeAt s.nodes s.root T) (hn : T.syms.Nodup) (hd : T.depth ≤ 255)
include hT hn

/-- The shares of all symbols are those of the tree's leaves. -/
theorem sum_codeShare : ∑ k : Fin 256, codeShare (codesOfTree (nodeAt s) s.root) (BitVec.ofFin k) =
    (T.syms.map (codeShare (codesOfTree (nodeAt s) s.root))).sum :=
  sum_univ_eq_sum_map hn fun x hx => by rw [codeShare, entry_codesOfTree_of_not_mem hT hx, if_pos rfl]

include hd

theorem codeShare_of_hasCode {q : List Bool} {x : Symbol} (hq : T.HasCode q x) :
    codeShare (codesOfTree (nodeAt s) s.root) x = 2 ^ (255 - q.length) := by
  rw [codeShare, entry_codesOfTree_of_hasCode hT hn hd hq,
    if_neg (pathCode_len_ne_zero (hq.length_le hd) hq.ne_nil), pathCode_len (hq.length_le hd)]

/-- The codes that begin a sequence, by the paths of the tree. -/
theorem hasCode_of_codeSequence_prefix {x : Symbol} {bits : List Bool}
    (hx : (entry (codesOfTree (nodeAt s) s.root) x).len ≠ 0)
    (hb : codeSequence (entry (codesOfTree (nodeAt s) s.root) x) <+: bits) : ∃ q, T.HasCode q x ∧ q <+: bits := by
  obtain ⟨q, hq⟩ := (T.mem_syms_iff_hasCode x).1 ((codesOfTree_len_ne_zero_iff hT hn hd x).1 hx)
  rw [entry_codesOfTree_of_hasCode hT hn hd hq, codeSequence_pathCode (hq.length_le hd)] at hb
  exact ⟨q, hq, hb⟩

end

/-- Settles O43: a tree of two keys or more has an inner node at ROOT, so Kraft's equality holds of its paths and every
long enough sequence follows one of them to a leaf; a tree of one key is a leaf, whose code is the bit 0. -/
theorem assignedCodesAreComplete : Obligations.AssignedCodesAreComplete := by
  unfold Obligations.AssignedCodesAreComplete
  intro s t hf hv h ht
  obtain ⟨T, hT, hp, hn, hd⟩ := h.exists_tree
  have hlen : T.syms.length = keyCount s.freq := hp.length_eq.trans (nsym_eq_keyCount _)
  rw [codes_of_exec_codeAssign hf hv h ht]
  have hsum := sum_codeShare hT hn
  cases T with
  | leaf u =>
    have hone : keyCount s.freq = 1 := hlen.symm
    refine ⟨fun h2 => by omega, fun _ => ⟨hsum.trans ?_, fun bits x hx hb => ?_⟩⟩
    · simpa [CodeTree.syms] using codeShare_of_hasCode hT hn hd (x := u) ⟨rfl, rfl⟩
    · obtain ⟨q, ⟨-, rfl⟩, hq⟩ := hasCode_of_codeSequence_prefix hT hn hd hx hb
      simp at hq
  | node l r =>
    refine ⟨fun _ => ⟨hsum.trans ?_, fun bits hbits => ?_⟩, fun h1 => ?_⟩
    · exact CodeTree.sum_syms_eq_two_pow hd fun q x hq => codeShare_of_hasCode hT hn hd hq
    · obtain ⟨q, x, hq, hqb⟩ := (CodeTree.node l r).exists_path_prefix (hd.trans hbits)
      have hx := (codesOfTree_len_ne_zero_iff hT hn hd x).2 ((CodeTree.mem_syms_iff _ x).2 ⟨q, hq⟩)
      refine ⟨x, ⟨hx, ?_⟩, fun y ⟨hy, hyb⟩ => ?_⟩
      · rwa [entry_codesOfTree_of_hasCode hT hn hd hq, codeSequence_pathCode (hq.length_le.trans hd)]
      · obtain ⟨p, hp', hpb⟩ := hasCode_of_codeSequence_prefix hT hn hd hy hyb
        exact hp'.eq_of_prefix hq hpb hqb
    · have hlt := CodeTree.depth_lt_length_syms (.node l r)
      simp only [CodeTree.depth] at hlt
      omega

/-! ### BUILD_TABLE (43_code_assigner.md R196) -/

theorem buildTableBody_of_nonempty {s : State} (h : s.srcAddr.toNat + s.srcLen.toNat ≤ s.cfg.inCap)
    (hl : s.srcLen ≠ 0) : buildTableBody s = (assignCodes (countAndBuild s), finish (count := s.srcLen.toNat)) := by
  rw [buildTableBody, if_pos ((srcInRange_iff s).2 h), if_neg hl, if_pos (countAndBuild_treeIsCurrent hl).assignOk]

theorem exec_buildTable_of_nonempty {s : State} (hf : s.fatal = false)
    (h : s.srcAddr.toNat + s.srcLen.toNat ≤ s.cfg.inCap) (hl : s.srcLen ≠ 0) :
    exec .buildTable s = .next ((assignCodes (countAndBuild s)).completed 0 0 0 s.srcLen.toNat) :=
  exec_of_commandBody (i := .buildTable) hf (buildTableBody_of_nonempty h hl)

theorem entry_emptyFreq_toNat (x : Symbol) : (entry emptyFreq x).toNat = 0 :=
  congrArg BitVec.toNat (entry_emptyFreq x)

/-- No count of a source passes 2^32 - 1: SRC_LEN does not (41_frequency_counter.md R152). -/
theorem hist_srcBytes_le (s : State) (x : Symbol) : (entry emptyFreq x).toNat + hist (srcBytes s) x ≤ 2 ^ 32 - 1 := by
  have hcount : hist (srcBytes s) x ≤ s.srcLen.toNat := List.count_le_length.trans_eq (length_srcBytes s)
  have := s.srcLen.isLt
  rw [entry_emptyFreq_toNat]
  omega

/-- The counts from an empty FREQ are the histogram of the source (43_code_assigner.md R196). -/
theorem entry_addCounts_emptyFreq (s : State) (x : Symbol) :
    (entry (addCounts emptyFreq (srcBytes s)) x).toNat = (srcBytes s).count x := by
  rw [entry_addCounts_toNat (hist_srcBytes_le s x), entry_emptyFreq_toNat, Nat.zero_add, hist]

theorem entry_addCounts_emptyFreq_ne_zero_iff (s : State) (x : Symbol) :
    entry (addCounts emptyFreq (srcBytes s)) x ≠ 0 ↔ x ∈ srcBytes s := by
  rw [← List.count_pos_iff, ← entry_addCounts_emptyFreq, Nat.pos_iff_ne_zero]
  exact not_congr BitVec.toNat_inj.symm

/-- Settles O44: the tree that BUILD_TABLE builds is current, so its codes are those of a current tree, and FREQ is the
histogram of the source. -/
theorem buildTableCodesItsInput : Obligations.BuildTableCodesItsInput := by
  unfold Obligations.BuildTableCodesItsInput
  intro s hf _ hr hl
  have hcur := countAndBuild_treeIsCurrent hl
  refine ⟨addCounts emptyFreq (srcBytes s), codesOfTree (nodeAt (countAndBuild s)) (countAndBuild s).root,
    (countAndBuild s).nodes, (countAndBuild s).root, (countAndBuild s).nodeCount, (countAndBuild s).leafCount,
    (countAndBuild s).tieDraws, ?_, entry_addCounts_emptyFreq s, fun x => ?_, hcur.wfTable⟩
  · rw [exec_buildTable_of_nonempty hf hr hl, assignCodes_of_ok hcur.assignOk]
    rfl
  · exact (hcur.len_ne_zero_iff x).trans (entry_addCounts_emptyFreq_ne_zero_iff s x)

/-! ### BUILD_TABLE and the four commands (43_code_assigner.md R197) -/

/-- After two successful completions only the record of the second is seen. -/
theorem completed_completed (s : State) (rl rb rc rl' rb' rc' : Nat) :
    (s.completed 0 rl rb rc).completed 0 rl' rb' rc' = s.completed 0 rl' rb' rc' := by
  simp [State.completed, BitVec.or_assoc]

theorem exec_treeBuild_of_nonempty {s : State} (hf : s.fatal = false) (hn : nsym s.freq ≠ 0) :
    exec .treeBuild s = .next ((buildTree s).completed 0 0 0 (nsym s.freq)) :=
  exec_of_commandBody (i := .treeBuild) hf (treeBuildBody_of_nonempty hn)

/-- A command that succeeds right after another one did: its own effect, and its own record. -/
theorem exec_of_commandBody_completed {i : Instr} {s u : State} {r : Report} {rl rb rc : Nat} (hf : s.fatal = false)
    (h : commandBody i (s.completed 0 rl rb rc) = (u.completed 0 rl rb rc, r)) (hr : r.err = .ok) :
    exec i (s.completed 0 rl rb rc) = .next (u.completed 0 r.len r.bits r.count) := by
  rw [exec_of_commandBody (s := s.completed 0 rl rb rc) hf h, hr, ErrCode.code, completed_completed]

/-- CODE_ASSIGN right after TREE_BUILD succeeds (43_code_assigner.md R195 item 4). -/
theorem exec_codeAssign_of_buildTree {s : State} (hf : s.fatal = false) (hn : nsym s.freq ≠ 0) (n : Nat) :
    ∃ rc, exec .codeAssign ((buildTree s).completed 0 0 0 n) =
      .next ((assignCodes (buildTree s)).completed 0 0 0 rc) := by
  have hok : assignOk (buildTree s) = true := (buildTree_treeIsCurrent hn).assignOk
  exact ⟨_, exec_of_commandBody_completed (i := .codeAssign) (s := buildTree s) (u := assignCodes (buildTree s)) hf
    (codeAssignBody_of_ok (s := (buildTree s).completed 0 0 0 n) rfl hok) rfl⟩

/-- The state with other counts, and no valid tree. -/
def State.withFreq (s : State) (f : Table Word) : State := { s with freq := f, treeValid := false }

/-- BUILD_TABLE starts with the tree of the histogram (43_code_assigner.md R196). -/
theorem buildTree_withFreq_histogram (s : State) :
    buildTree (s.withFreq (addCounts emptyFreq (srcBytes s))) = countAndBuild s := rfl

/-- FREQ_CLEAR then FREQ_COUNT leave the histogram of the source (41_frequency_counter.md R150, R151). -/
theorem exec_freqClear_freqCount {s : State} (hf : s.fatal = false)
    (hr : s.srcAddr.toNat + s.srcLen.toNat ≤ s.cfg.inCap) :
    ∃ s1, exec .freqClear s = .next s1 ∧ s1.err = 0 ∧
      exec .freqCount s1 =
        .next ((s.withFreq (addCounts emptyFreq (srcBytes s))).completed 0 0 0 s.srcLen.toNat) := by
  refine ⟨(s.withFreq emptyFreq).completed 0 0 0 0, command_of_not_fatal hf freqClearBody, rfl, ?_⟩
  exact exec_of_commandBody_completed (i := .freqCount) (s := s.withFreq emptyFreq)
    (u := s.withFreq (addCounts emptyFreq (srcBytes s))) hf
    (freqCountBody_of_fits (s := (s.withFreq emptyFreq).completed 0 0 0 0) hr
      (firstOverflow_none.2 (hist_srcBytes_le s))) rfl

/-- The record with another count. -/
theorem completed_eq_setResultCount (s : State) (e : BitVec 8) (rl rb rc : Nat) (w : Word) :
    s.completed e rl rb w.toNat = { s.completed e rl rb rc with resultCount := w } := by
  simp [State.completed]

/-- An empty source has no key. -/
theorem nsym_addCounts_srcBytes_of_empty {s : State} (h : s.srcLen = 0) :
    nsym (addCounts emptyFreq (srcBytes s)) = 0 := by
  refine (nsym_eq_zero_iff _).2 fun x => by_contra fun hx => ?_
  have hmem := (entry_addCounts_emptyFreq_ne_zero_iff s x).1 hx
  simp [srcBytes, h] at hmem

/-- Settles O45: with a source that is not empty both ways assign the codes of the tree of the same histogram, and the
completion records differ in their last count; with an empty one there is no symbol to build from. -/
theorem buildTableEqualsTheFourCommands : Obligations.BuildTableEqualsTheFourCommands := by
  unfold Obligations.BuildTableEqualsTheFourCommands
  intro s hf _ hr
  obtain ⟨s1, h1, e1, h2⟩ := exec_freqClear_freqCount hf hr
  by_cases hl : s.srcLen = 0
  · have hempty := nsym_addCounts_srcBytes_of_empty hl
    have h3 := exec_of_commandBody (i := .treeBuild)
      (s := (s.withFreq (addCounts emptyFreq (srcBytes s))).completed 0 0 0 s.srcLen.toNat) hf
      (treeBuildBody_of_empty hempty)
    obtain ⟨s4, h4, -⟩ := everyCommandCompletes .codeAssign _
    exact ⟨_, s1, _, _, s4, exec_of_commandBody (i := .buildTable) hf (buildTableBody_of_empty hr hl), h1, h2, h3, h4,
      absurd hl, fun _ => ⟨rfl, (nsym_eq_zero_iff _).1 hempty, rfl⟩⟩
  · have hn := nsym_addCounts_srcBytes_ne_zero hl
    have h3 := exec_of_commandBody_completed (i := .treeBuild) (s := s.withFreq _) (u := countAndBuild s) hf
      (treeBuildBody_of_nonempty
        (s := (s.withFreq (addCounts emptyFreq (srcBytes s))).completed 0 0 0 s.srcLen.toNat) hn) rfl
    obtain ⟨rc, h4⟩ := exec_codeAssign_of_buildTree (s := s.withFreq (addCounts emptyFreq (srcBytes s))) hf hn _
    rw [buildTree_withFreq_histogram] at h4
    exact ⟨_, s1, _, _, _, exec_buildTable_of_nonempty hf hr hl, h1, h2, h3, h4,
      fun _ => ⟨completed_eq_setResultCount _ _ _ _ _ _, rfl, e1, rfl, rfl⟩, (absurd · hl)⟩

/-! ### Equal counts (43_code_assigner.md R204) -/

/-- Under lowest_key a merge does not use the number of draws (42_tree_builder.md R172). -/
theorem mergeStep_lowestKey_draws {t : TreeBuilder} (h : 2 ≤ t.queue.length) (d : Nat) :
    mergeStep .lowestKey { t with draws := d } = { mergeStep .lowestKey t with draws := d } := by
  obtain ⟨a, b, r1, r2, ha, hb, -⟩ := extract_two .lowestKey t.draws h
  rw [mergeStep_eq (t := { t with draws := d }) ha hb, mergeStep_eq ha hb]
  rfl

theorem mergeAll_lowestKey_draws (fuel : Nat) (t : TreeBuilder) (d : Nat) :
    mergeAll .lowestKey fuel { t with draws := d } = { mergeAll .lowestKey fuel t with draws := d } := by
  induction fuel generalizing t with
  | zero => rfl
  | succ n ih =>
    simp only [mergeAll]
    split
    · rename_i h2
      rw [mergeStep_lowestKey_draws h2, ih]
    · rfl

/-- Under lowest_key the finished builder is a function of FREQ, but for the number of draws, which it keeps. -/
theorem huffman_lowestKey_draws (t : Table Word) (d d' : Nat) :
    huffman .lowestKey t d = { huffman .lowestKey t d' with draws := d } :=
  mergeAll_lowestKey_draws (nsym t) (startBuilder t d') d

/-- Under lowest_key the tree of FREQ without draws is the one every current arena represents. -/
theorem State.treeIsCurrent.treeAt_of_huffman {s : State} (h : s.treeIsCurrent) (hk : s.cfg.tieBreak = .lowestKey)
    {T : CodeTree} (hT : TreeAt (huffman .lowestKey s.freq 0).nodes (huffman .lowestKey s.freq 0).root T) :
    TreeAt s.nodes s.root T := by
  obtain ⟨-, d, hnodes, hroot, -, -⟩ := h
  rw [hk, huffman_lowestKey_draws s.freq d 0] at hnodes hroot
  rw [hroot, ← List.take_append_drop (huffman .lowestKey s.freq 0).nodes.length s.nodes, hnodes]
  exact hT.append _

/-- Two arenas that represent the same tree from ROOT on give the same codes. -/
theorem codesOfTree_congr {s u : State} {T : CodeTree} (hs : TreeAt s.nodes s.root T) (hu : TreeAt u.nodes u.root T)
    (hn : T.syms.Nodup) (hd : T.depth ≤ 255) :
    codesOfTree (nodeAt s) s.root = codesOfTree (nodeAt u) u.root := by
  refine table_ext fun x => ?_
  by_cases hx : x ∈ T.syms
  · obtain ⟨q, hq⟩ := (T.mem_syms_iff_hasCode x).1 hx
    rw [entry_codesOfTree_of_hasCode hs hn hd hq, entry_codesOfTree_of_hasCode hu hn hd hq]
  · rw [entry_codesOfTree_of_not_mem hs hx, entry_codesOfTree_of_not_mem hu hx]

/-- Under lowest_key the codes of a current tree are a function of FREQ (43_code_assigner.md R204). -/
theorem State.treeIsCurrent.codes_congr {s u : State} (hs : s.treeIsCurrent) (hu : u.treeIsCurrent)
    (hks : s.cfg.tieBreak = .lowestKey) (hku : u.cfg.tieBreak = .lowestKey) (hfreq : s.freq = u.freq) :
    codesOfTree (nodeAt s) s.root = codesOfTree (nodeAt u) u.root := by
  obtain ⟨-, T, hT, hp⟩ := huffman_tree .lowestKey s.freq 0 hs.nsym_ne_zero
  have hle := (nsym_eq_keyCount s.freq).trans_le (keyCount_le s.freq)
  have hd := CodeTree.depth_lt_nsym hp
  exact codesOfTree_congr (hs.treeAt_of_huffman hks hT) (hu.treeAt_of_huffman hku (hfreq ▸ hT))
    (hp.nodup_iff.2 (nodup_present _)) (by omega)

/-- TREE_BUILD then CODE_ASSIGN of counts that are not all 0 (43_code_assigner.md R195). -/
theorem exec_treeBuild_codeAssign {s : State} (hf : s.fatal = false) (hn : nsym s.freq ≠ 0) :
    ∃ s1 s2, exec .treeBuild s = .next s1 ∧ exec .codeAssign s1 = .next s2 ∧
      s2.codes = codesOfTree (nodeAt (buildTree s)) (buildTree s).root ∧ s2.tableValid = true ∧ s2.err = 0 := by
  obtain ⟨rc, h2⟩ := exec_codeAssign_of_buildTree hf hn (nsym s.freq)
  exact ⟨_, _, exec_treeBuild_of_nonempty hf hn, h2, rfl, (buildTree_treeIsCurrent hn).assignOk, rfl⟩

/-- Settles O46: under lowest_key both blocks build the same tree, and the codes are read off the tree alone. -/
theorem equalCountsRebuildTheSameTable : Obligations.EqualCountsRebuildTheSameTable := by
  unfold Obligations.EqualCountsRebuildTheSameTable
  intro s u hfs hfu hks hku hfreq hn
  rw [← nsym_eq_keyCount] at hn
  have hnu : nsym u.freq ≠ 0 := hfreq ▸ hn
  obtain ⟨s1, s2, hs1, hs2, hsc, hsv, hse⟩ := exec_treeBuild_codeAssign hfs hn
  obtain ⟨u1, u2, hu1, hu2, huc, huv, hue⟩ := exec_treeBuild_codeAssign hfu hnu
  refine ⟨s1, s2, u1, u2, hs1, hs2, hu1, hu2, ?_, hsv, huv, hse, hue⟩
  rw [hsc, huc]
  exact (buildTree_treeIsCurrent hn).codes_congr (buildTree_treeIsCurrent hnu) hks hku hfreq

/-! ### TABLE_LOAD (43_code_assigner.md R202) -/

theorem tableLoadBody_of_wf {s : State} (h : codeTableWf s.codes = true) :
    tableLoadBody s = ({ s with tableValid := true }, finish (count := codedCount s.codes)) := if_pos h

theorem tableLoadBody_of_not_wf {s : State} (h : ¬ codeTableWf s.codes = true) :
    tableLoadBody s = ({ s with tableValid := false }, raise .badTable) := if_neg h

/-- Settles O47: the machine's check decides WF as R200 writes it, and its two branches are the two clauses. -/
theorem tableLoadChecksWellFormedness : Obligations.TableLoadChecksWellFormedness := by
  unfold Obligations.TableLoadChecksWellFormedness
  intro s hf
  rw [← codeTableWf_iff, ← codedCount_eq_codeCount]
  exact ⟨fun h => exec_of_commandBody (i := .tableLoad) hf (tableLoadBody_of_wf h),
    fun h => exec_of_commandBody (i := .tableLoad) hf (tableLoadBody_of_not_wf h)⟩

end Sys2Proof.Machine

/-! ## Proofs: the packer (44_bitstream_packer.md) -/

namespace Sys2Proof.Machine

/-! ### The bytes of a bitstream (44_bitstream_packer.md R221) -/

/-- A window of `n` bits over a sequence that is no longer, padded with zeros, is the sequence's value shifted to the
high-order end. -/
theorem sum_window {n : Nat} {l : List Bool} (h : l.length ≤ n) :
    ((List.range n).map fun q => (l.getD q false).toNat * 2 ^ (n - q - 1)).sum =
      bitsValue l * 2 ^ (n - l.length) := by
  induction n generalizing l with
  | zero => obtain rfl := List.eq_nil_of_length_eq_zero (Nat.le_zero.1 h); rfl
  | succ n ih =>
    cases l with
    | nil => simp [bitsValue]
    | cons b l =>
      have hl : l.length ≤ n := Nat.le_of_succ_le_succ h
      have hlow := ih hl
      simp only [List.range_succ_eq_map, List.map_cons, List.map_map, Function.comp_def, List.sum_cons,
        List.getD_cons_zero, List.getD_cons_succ, Nat.add_sub_cancel, Nat.sub_zero, Nat.succ_eq_add_one,
        bitsValue_cons, List.length_cons, Nat.add_sub_add_right, Nat.add_mul, Nat.mul_assoc, ← Nat.pow_add,
        Nat.add_sub_cancel' hl, hlow]

/-- The last byte of a stream holds the `c` bits that are left, left-justified (44_bitstream_packer.md R223). -/
theorem streamByte_last {bits : List Bool} {j c : Nat} (hl : bits.length = 8 * j + c) (hc : c ≤ 8) :
    streamByte bits j = bitsValue (bits.drop (8 * j)) * 2 ^ (8 - c) := by
  have hdrop : (bits.drop (8 * j)).length = c := by rw [List.length_drop]; omega
  rw [← hdrop, ← sum_window (hdrop.trans_le hc), streamByte]
  congr 1
  refine List.map_congr_left fun q _ => ?_
  rw [List.getD_eq_getElem?_getD, List.getD_eq_getElem?_getD, List.getElem?_drop, Nat.sub_right_comm]

/-- A byte that lies within a stream does not depend on the bits that follow. -/
theorem streamByte_append {bits : List Bool} {j : Nat} (h : 8 * j + 8 ≤ bits.length) (more : List Bool) :
    streamByte (bits ++ more) j = streamByte bits j := by
  unfold streamByte
  congr 1
  refine List.map_congr_left fun q hq => ?_
  have hq8 : q < 8 := List.mem_range.1 hq
  rw [List.getD_append _ _ _ _ (by omega)]

/-! ### The packer's run (44_bitstream_packer.md R220 pass 2) -/

/-- The packer after the bits `bits`: its whole bytes are those of the stream, and the bits of the last incomplete byte
are in the bit buffer. -/
structure Packed (m : Memory) (dst : Nat) (bits : List Bool) (p : Packer) : Prop
    extends PackerAt m dst bits.length p where
  acc : p.acc = BitVec.ofNat 8 (bitsValue (bits.drop (8 * p.j)))
  bytes : ∀ i < p.j, memGet p.out (dst + i) = some (BitVec.ofNat 8 (streamByte bits i))

/-- The bytes at `dst` onwards after one more, which is the next byte of the stream. -/
theorem memGet_memSet_stream {m : Memory} {dst j : Nat} {bits : List Bool} {b : Byte}
    (h : ∀ i < j, memGet m (dst + i) = some (BitVec.ofNat 8 (streamByte bits i)))
    (hb : b = BitVec.ofNat 8 (streamByte bits j)) :
    ∀ i < j + 1, memGet (memSet m (dst + j) b) (dst + i) = some (BitVec.ofNat 8 (streamByte bits i)) := by
  intro i hi
  by_cases e : i = j
  · rw [e, memGet_memSet_same, hb]
  · rw [memGet_memSet_other _ _ (by omega), h i (by omega)]

/-- A shift of a byte multiplies its value, modulo 2^8. -/
theorem ofNat_shiftLeft_byte (v k : Nat) : BitVec.ofNat 8 v <<< k = BitVec.ofNat 8 (v * 2 ^ k) :=
  BitVec.eq_of_toNat_eq (by simp [Nat.shiftLeft_eq, Nat.mod_mul_mod])

/-- Shifting a bit into the buffer appends it to the buffered sequence. -/
theorem shiftIn_bitsValue (l : List Bool) (b : Bool) :
    (BitVec.ofNat 8 (bitsValue l) <<< 1) ||| (BitVec.ofBool b).zeroExtend 8 =
      BitVec.ofNat 8 (bitsValue (l ++ [b])) := by
  have hbit : (BitVec.ofBool b).zeroExtend 8 = BitVec.ofNat 8 b.toNat := by cases b <;> rfl
  have hdisjoint : (BitVec.ofNat 8 (bitsValue l) <<< 1) &&& (BitVec.ofBool b).zeroExtend 8 = 0#8 := by
    ext i hi
    cases i <;> simp
  rw [← BitVec.add_eq_or_of_and_eq_zero _ _ hdisjoint, hbit, ofNat_shiftLeft_byte, ← BitVec.ofNat_add,
    bitsValue_concat, Nat.pow_one, Nat.mul_comm]

theorem packBit_of_full {dst : Nat} {p : Packer} {b : Bool} (h : p.cnt + 1 = 8) :
    packBit dst p b =
      { acc := 0, cnt := 0, j := p.j + 1,
        out := memSet p.out (dst + p.j) ((p.acc <<< 1) ||| (BitVec.ofBool b).zeroExtend 8) } := if_pos h

theorem packBit_of_not_full {dst : Nat} {p : Packer} {b : Bool} (h : p.cnt + 1 ≠ 8) :
    packBit dst p b = { p with acc := (p.acc <<< 1) ||| (BitVec.ofBool b).zeroExtend 8, cnt := p.cnt + 1 } := if_neg h

theorem packBit_packed {m : Memory} {dst : Nat} {bits : List Bool} {p : Packer} (h : Packed m dst bits p) (b : Bool) :
    Packed m dst (bits ++ [b]) (packBit dst p b) := by
  obtain ⟨hat, hacc, hbytes⟩ := h
  have htotal := hat.total
  have hlen : (bits ++ [b]).length = 8 * p.j + (p.cnt + 1) := by rw [List.length_append, ← htotal]; rfl
  have hnext : PackerAt m dst (bits ++ [b]).length (packBit dst p b) := by
    rw [List.length_append]
    exact packBit_at hat b
  have hbuf : (p.acc <<< 1) ||| (BitVec.ofBool b).zeroExtend 8 =
      BitVec.ofNat 8 (bitsValue ((bits ++ [b]).drop (8 * p.j))) := by
    rw [hacc, shiftIn_bitsValue, List.drop_append_of_le_length (by omega)]
  have hkept : ∀ i < p.j, memGet p.out (dst + i) = some (BitVec.ofNat 8 (streamByte (bits ++ [b]) i)) := by
    intro i hi
    rw [hbytes i hi, streamByte_append (by omega)]
  by_cases hfull : p.cnt + 1 = 8
  · rw [packBit_of_full hfull, hbuf] at hnext ⊢
    have hempty : (bits ++ [b]).drop (8 * (p.j + 1)) = [] := List.drop_of_length_le (by omega)
    refine ⟨hnext, ?_, memGet_memSet_stream hkept ?_⟩
    · simp only [hempty]
      rfl
    · rw [streamByte_last hlen hfull.le, hfull, Nat.sub_self, Nat.pow_zero, Nat.mul_one]
  · rw [packBit_of_not_full hfull] at hnext ⊢
    exact ⟨hnext, hbuf, hkept⟩

theorem foldl_packBit_packed {m : Memory} {dst : Nat} (more : List Bool) {bits : List Bool} {p : Packer}
    (h : Packed m dst bits p) : Packed m dst (bits ++ more) (more.foldl (packBit dst) p) := by
  induction more generalizing bits p with
  | nil => simpa using h
  | cons b more ih => simpa using ih (packBit_packed h b)

/-- The flush writes what is left in the buffer as the stream's last byte, and nothing when nothing is left
(44_bitstream_packer.md R223). -/
theorem packFlush_packed {m : Memory} {dst : Nat} {bits : List Bool} {p : Packer} (h : Packed m dst bits p) :
    ∀ i < (packFlush dst p).j, memGet (packFlush dst p).out (dst + i) = some (BitVec.ofNat 8 (streamByte bits i)) := by
  obtain ⟨⟨hcnt, htotal, -⟩, hacc, hbytes⟩ := h
  unfold packFlush
  split
  · refine memGet_memSet_stream hbytes ?_
    rw [streamByte_last htotal.symm hcnt.le, hacc, ofNat_shiftLeft_byte]
  · exact hbytes

/-- The bytes that packing writes are those of the stream (44_bitstream_packer.md R221). -/
theorem packAll_bytes (t : Table Code) (dst : Nat) (input : List Byte) (m : Memory) {i : Nat}
    (hi : i < (packAll t dst input m).j) :
    memGet (packAll t dst input m).out (dst + i) = some (BitVec.ofNat 8 (streamByte (codedStream t input) i)) := by
  have hstart : Packed m dst [] { acc := 0, cnt := 0, j := 0, out := m } :=
    { cntLt := by simp, total := rfl, out := WritesOnly.refl m dst, acc := rfl, bytes := by simp }
  rw [← encodedBits_eq_codedStream]
  exact packFlush_packed (foldl_packBit_packed _ hstart) i hi

/-! ### The ends of COMPRESS (44_bitstream_packer.md R220) -/

theorem dstInRange_iff (s : State) : dstInRange s = true ↔ s.dstAddr.toNat + s.dstCap.toNat ≤ s.cfg.outCap :=
  decide_eq_true_iff

theorem compressBody_of_src_range {s : State} (h : s.cfg.inCap < s.srcAddr.toNat + s.srcLen.toNat) :
    compressBody s = (s, raise .range) :=
  if_pos fun hr => h.not_ge ((srcInRange_iff s).1 hr)

section
variable {s : State} (hsrc : s.srcAddr.toNat + s.srcLen.toNat ≤ s.cfg.inCap)
include hsrc

theorem compressBody_of_dst_range (h : s.cfg.outCap < s.dstAddr.toNat + s.dstCap.toNat) :
    compressBody s = (s, raise .range) := by
  rw [compressBody, if_neg (not_not.2 ((srcInRange_iff s).2 hsrc)),
    if_pos fun hr => h.not_ge ((dstInRange_iff s).1 hr)]

variable (hdst : s.dstAddr.toNat + s.dstCap.toNat ≤ s.cfg.outCap)
include hdst

theorem compressBody_of_no_table (h : s.tableValid = false) : compressBody s = (s, raise .noTable) := by
  simp [compressBody, (srcInRange_iff s).2 hsrc, (dstInRange_iff s).2 hdst, h]

variable (htab : s.tableValid = true)
include htab

theorem compressBody_of_unknown {i : Nat} (h : firstUnknown s.codes (srcBytes s) = some i) :
    compressBody s = (s, raise .unknownSymbol (count := i)) := by
  simp [compressBody, (srcInRange_iff s).2 hsrc, (dstInRange_iff s).2 hdst, htab, h]

variable (hcoded : ∀ x ∈ srcBytes s, (entry s.codes x).len ≠ 0)
include hcoded

theorem compressBody_of_overflow
    (h : s.dstCap.toNat < ((codedStream s.codes (srcBytes s)).length + 7) / 8) :
    compressBody s = (s, raise .outputOverflow (len := ((codedStream s.codes (srcBytes s)).length + 7) / 8)
      (bits := (codedStream s.codes (srcBytes s)).length)) := by
  simp [compressBody, (srcInRange_iff s).2 hsrc, (dstInRange_iff s).2 hdst, htab, firstUnknown_none.2 hcoded,
    totalBits_eq, bytesNeeded, h]

theorem compressBody_of_fits
    (h : ((codedStream s.codes (srcBytes s)).length + 7) / 8 ≤ s.dstCap.toNat) :
    compressBody s = ({ s with outMem := (packAll s.codes s.dstAddr.toNat (srcBytes s) s.outMem).out },
      finish (len := ((codedStream s.codes (srcBytes s)).length + 7) / 8)
        (bits := (codedStream s.codes (srcBytes s)).length) (count := s.srcLen.toNat)) := by
  obtain ⟨hj, -⟩ := packAll_writes s.codes s.dstAddr.toNat (srcBytes s) s.outMem
  simp [compressBody, (srcInRange_iff s).2 hsrc, (dstInRange_iff s).2 hdst, htab, firstUnknown_none.2 hcoded,
    hj, totalBits_eq, bytesNeeded, h.not_gt]

end

/-- Settles O49: each error is one path of the body, which leaves the state alone. -/
theorem compressErrorsInOrder : Obligations.CompressErrorsInOrder := by
  unfold Obligations.CompressErrorsInOrder
  intro s hf
  refine ⟨fun h => ?_, fun hsrc => ⟨fun h => ?_, fun hdst => ⟨fun h => ?_, fun htab =>
    ⟨fun i hi hzero hfirst => ?_, fun hcoded h => ?_⟩⟩⟩⟩
  · exact exec_of_commandBody (i := .compress) hf (compressBody_of_src_range h)
  · exact exec_of_commandBody (i := .compress) hf (compressBody_of_dst_range hsrc h)
  · exact exec_of_commandBody (i := .compress) hf (compressBody_of_no_table hsrc hdst h)
  · exact exec_of_commandBody (i := .compress) hf
      (compressBody_of_unknown hsrc hdst htab (firstUnknown_some.2 ⟨hi, hzero, hfirst⟩))
  · exact exec_of_commandBody (i := .compress) hf (compressBody_of_overflow hsrc hdst htab hcoded h)

/-- OUT_MEM after packing, as it reads: the bytes of the stream from `dst` on, every other byte kept
(44_bitstream_packer.md R221). -/
theorem byteAt_packAll (s : State) (t : Table Code) (dst : Nat) (input : List Byte) (a : Nat) :
    byteAt { s with outMem := (packAll t dst input s.outMem).out } .output a =
      if dst ≤ a ∧ a < dst + ((codedStream t input).length + 7) / 8 then
        BitVec.ofNat 8 (streamByte (codedStream t input) (a - dst))
      else byteAt s .output a := by
  obtain ⟨hj, hw⟩ := packAll_writes t dst input s.outMem
  rw [totalBits_eq, bytesNeeded] at hj
  simp only [byteAt, bufferOf]
  split
  · rename_i ha
    obtain ⟨i, rfl⟩ := Nat.exists_eq_add_of_le ha.1
    rw [packAll_bytes t dst input s.outMem (by omega), Nat.add_sub_cancel_left, Option.getD_some]
  · rw [hw.kept a (by omega)]

/-- Settles O48: the body packs the codes of the source, and what it packs are the bytes of the stream. -/
theorem compressWritesTheBitstream : Obligations.CompressWritesTheBitstream := by
  unfold Obligations.CompressWritesTheBitstream
  intro s hf hsrc hdst htab hcoded hfits
  exact ⟨_, exec_of_commandBody (i := .compress) hf (compressBody_of_fits hsrc hdst htab hcoded hfits),
    byteAt_packAll s s.codes s.dstAddr.toNat (srcBytes s)⟩

/-! ### The sizes COMPRESS reports (44_bitstream_packer.md R227) -/

theorem errCode_eq_outputOverflow (e : ErrCode) : e.code = 0x14 ↔ e = .outputOverflow := by cases e <;> decide

/-- What COMPRESS can report: the sizes of the stream on success and on OUTPUT_OVERFLOW, none with any other error
(60_exceptions.md R261). -/
theorem compressBody_report_cases (s : State) :
    (∃ e n, e ≠ .ok ∧ e ≠ .outputOverflow ∧ (compressBody s).2 = raise e (count := n)) ∨
    (s.srcAddr.toNat + s.srcLen.toNat ≤ s.cfg.inCap ∧ ∃ e n, (e = .ok ∨ e = .outputOverflow) ∧
      (compressBody s).2 = raise e (len := ((codedStream s.codes (srcBytes s)).length + 7) / 8)
        (bits := (codedStream s.codes (srcBytes s)).length) (count := n)) := by
  by_cases hsrc : s.srcAddr.toNat + s.srcLen.toNat ≤ s.cfg.inCap
  case neg => exact .inl ⟨.range, 0, nofun, nofun, by rw [compressBody_of_src_range (not_le.1 hsrc)]⟩
  by_cases hdst : s.dstAddr.toNat + s.dstCap.toNat ≤ s.cfg.outCap
  case neg => exact .inl ⟨.range, 0, nofun, nofun, by rw [compressBody_of_dst_range hsrc (not_le.1 hdst)]⟩
  cases htab : s.tableValid with
  | false => exact .inl ⟨.noTable, 0, nofun, nofun, by rw [compressBody_of_no_table hsrc hdst htab]⟩
  | true =>
    cases hunknown : firstUnknown s.codes (srcBytes s) with
    | some i => exact .inl ⟨.unknownSymbol, i, nofun, nofun, by rw [compressBody_of_unknown hsrc hdst htab hunknown]⟩
    | none =>
      have hcoded := firstUnknown_none.1 hunknown
      refine .inr ⟨hsrc, ?_⟩
      rcases Nat.lt_or_ge s.dstCap.toNat (((codedStream s.codes (srcBytes s)).length + 7) / 8) with h | h
      · exact ⟨.outputOverflow, 0, .inr rfl, by rw [compressBody_of_overflow hsrc hdst htab hcoded h]⟩
      · exact ⟨.ok, s.srcLen.toNat, .inl rfl, by rw [compressBody_of_fits hsrc hdst htab hcoded h]; rfl⟩

/-- The sizes a completion of COMPRESS shows: those of the stream on success and on OUTPUT_OVERFLOW, else 0. -/
theorem exec_compress_sizes {s t : State} (h : exec .compress s = .next t) :
    (t.err ≠ 0x00 ∧ t.err ≠ 0x14 ∧ t.resultBits = 0 ∧ t.resultLen = 0) ∨
    ((t.err = 0x00 ∨ t.err = 0x14) ∧ s.srcAddr.toNat + s.srcLen.toNat ≤ s.cfg.inCap ∧
      t.resultBits = BitVec.ofNat 32 (codedStream s.codes (srcBytes s)).length ∧
      t.resultLen = BitVec.ofNat 32 (((codedStream s.codes (srcBytes s)).length + 7) / 8)) := by
  rcases command_cases h with ⟨-, rfl⟩ | ⟨-, rfl⟩
  · exact .inl ⟨by simp, by simp, rfl, rfl⟩
  rcases compressBody_report_cases s with ⟨e, n, hok, hover, hr⟩ | ⟨hsrc, e, n, he, hr⟩
  · rw [hr]
    exact .inl ⟨mt (errCode_eq_zero e).1 hok, mt (errCode_eq_outputOverflow e).1 hover, rfl, rfl⟩
  · rw [hr]
    exact .inr ⟨he.imp (errCode_eq_zero e).2 (errCode_eq_outputOverflow e).2, hsrc, rfl, rfl⟩

/-- A code has at most 255 bits, so a stream has at most 255 for each symbol (44_bitstream_packer.md R227). -/
theorem length_codedStream_le (t : Table Code) (xs : List Symbol) :
    (codedStream t xs).length ≤ xs.length * 255 := by
  rw [← totalBits_eq, totalBits, ← smul_eq_mul, ← List.length_map (fun x => (entry t x).len.toNat)]
  refine List.sum_le_card_nsmul _ _ fun n hn => ?_
  obtain ⟨x, -, rfl⟩ := List.mem_map.1 hn
  exact Nat.le_pred_of_lt (entry t x).len.isLt

theorem length_codedStream_srcBytes_le (t : Table Code) (s : State) :
    (codedStream t (srcBytes s)).length ≤ s.srcLen.toNat * 255 :=
  (length_codedStream_le t (srcBytes s)).trans_eq (by rw [length_srcBytes])

theorem inCap_le_of_wf {c : Config} (h : c.wf = true) : c.inCap ≤ 2 ^ 24 := by
  simp only [Config.wf, Bool.and_eq_true, decide_eq_true_eq] at h
  obtain ⟨⟨⟨-, hin⟩, -⟩, -⟩ := h
  exact hin

/-- Under legal parameters the bound on the stream of a source in range fits its register (44_bitstream_packer.md
R227). -/
theorem srcLen_mul_lt {s : State} (hc : s.cfg.wf = true) (h : s.srcAddr.toNat + s.srcLen.toNat ≤ s.cfg.inCap) :
    s.srcLen.toNat * 255 < 2 ^ 32 := by
  have := inCap_le_of_wf hc
  omega

/-- Settles O50: the report is exact, and neither size wraps. -/
theorem compressSizesFit : Obligations.CompressSizesFit := by
  unfold Obligations.CompressSizesFit
  intro s t hc h
  rcases exec_compress_sizes h with ⟨hok, hover, hbits, hlen⟩ | ⟨herr, hsrc, hbits, hlen⟩
  · exact ⟨fun he => (he.elim hok hover).elim, fun _ _ => ⟨hbits, hlen⟩⟩
  · have hmax := srcLen_mul_lt hc hsrc
    have hle := length_codedStream_srcBytes_le s.codes s
    have hbits' : t.resultBits.toNat = (codedStream s.codes (srcBytes s)).length := by
      rw [hbits, BitVec.toNat_ofNat, Nat.mod_eq_of_lt (by omega)]
    have hlen' : t.resultLen.toNat = ((codedStream s.codes (srcBytes s)).length + 7) / 8 := by
      rw [hlen, BitVec.toNat_ofNat, Nat.mod_eq_of_lt (by omega)]
    exact ⟨fun _ => ⟨hbits', hlen', by omega, hmax, by omega⟩, fun h0 h1 => (herr.elim h0 h1).elim⟩

/-! ### The weighted path length (44_bitstream_packer.md R226) -/

/-- The length of a coded stream by symbol: how often each occurs, times the length of its code. -/
theorem length_codedStream_eq_sum (t : Table Code) (xs : List Symbol) :
    (codedStream t xs).length = ∑ k : Fin 256, xs.count (BitVec.ofFin k) * (t[k.val]'k.isLt).len.toNat := by
  have hsum : ∑ k : Fin 256, xs.count (BitVec.ofFin k) * (entry t (BitVec.ofFin k)).len.toNat =
      (xs.dedup.map fun x => xs.count x * (entry t x).len.toNat).sum :=
    sum_univ_eq_sum_map (g := fun x => xs.count x * (entry t x).len.toNat) xs.nodup_dedup fun x hx => by
      rw [List.count_eq_zero.2 (mt List.mem_dedup.2 hx), Nat.zero_mul]
  rw [← totalBits_eq, totalBits, Finset.sum_list_map_count]
  refine Eq.trans ?_ hsum.symm
  rw [← List.sum_toFinset _ xs.nodup_dedup, List.toFinset.ext fun x => (List.mem_dedup (l := xs) (a := x))]
  rfl

/-- What a BUILD_TABLE that reports success has done (43_code_assigner.md R196). -/
theorem exec_buildTable_of_ok {s t : State} (h : exec .buildTable s = .next t) (he : t.err = 0) :
    s.srcAddr.toNat + s.srcLen.toNat ≤ s.cfg.inCap ∧
      t = (assignCodes (countAndBuild s)).completed 0 0 0 s.srcLen.toNat := by
  rcases command_cases h with ⟨-, rfl⟩ | ⟨-, rfl⟩
  · simp at he
  by_cases hsrc : s.srcAddr.toNat + s.srcLen.toNat ≤ s.cfg.inCap
  case neg => simp [buildTableBody_of_range (not_le.1 hsrc), raise, ErrCode.code] at he
  by_cases hl : s.srcLen = 0
  case pos => simp [buildTableBody_of_empty hsrc hl, raise, ErrCode.code] at he
  exact ⟨hsrc, by rw [buildTableBody_of_nonempty hsrc hl]; rfl⟩

/-- Settles O51: BUILD_TABLE leaves the histogram of the bytes in FREQ, which is what the stream's length counts by. -/
theorem compressedBitsAreTheWeightedPathLength : Obligations.CompressedBitsAreTheWeightedPathLength := by
  unfold Obligations.CompressedBitsAreTheWeightedPathLength
  intro s t v u hc ht hte hcodes hsrc hu hue
  obtain ⟨hrange, rfl⟩ := exec_buildTable_of_ok ht hte
  have hbits : u.resultBits = BitVec.ofNat 32 (codedStream v.codes (srcBytes v)).length := by
    rcases exec_compress_sizes hu with ⟨hok, hover, -, -⟩ | ⟨-, -, hbits, -⟩
    · exact (hue.elim hok hover).elim
    · exact hbits
  have hmax := srcLen_mul_lt hc hrange
  have hle := length_codedStream_srcBytes_le v.codes s
  rw [hbits, hsrc, BitVec.toNat_ofNat, Nat.mod_eq_of_lt (by omega), length_codedStream_eq_sum, hcodes]
  refine Finset.sum_congr rfl fun k _ => ?_
  rw [← entry_addCounts_emptyFreq]
  rfl

end Sys2Proof.Machine

/-! ## Proofs: the unpacker (45_bitstream_unpacker.md) -/

namespace Sys2Proof.Machine

/-! ### The ends of DECOMPRESS without decoding (45_bitstream_unpacker.md R240, R241) -/

theorem decompressBody_of_src_range {s : State} (h : s.cfg.inCap < s.srcAddr.toNat + s.srcLen.toNat) :
    decompressBody s = (s, raise .range) :=
  if_pos fun hr => h.not_ge ((srcInRange_iff s).1 hr)

/-- The run of the bit loop that DECOMPRESS makes (45_bitstream_unpacker.md R240). -/
def unpackSource (s : State) : Unpacker × Bool :=
  unpackBits s.codes s.dstAddr.toNat s.expectCount.toNat (byteStream (srcBytes s)) (startUnpacker s.outMem)

section
variable {s : State} (hsrc : s.srcAddr.toNat + s.srcLen.toNat ≤ s.cfg.inCap)
include hsrc

theorem decompressBody_of_dst_range (h : s.cfg.outCap < s.dstAddr.toNat + s.dstCap.toNat) :
    decompressBody s = (s, raise .range) := by
  rw [decompressBody, if_neg (not_not.2 ((srcInRange_iff s).2 hsrc)),
    if_pos fun hr => h.not_ge ((dstInRange_iff s).1 hr)]

variable (hdst : s.dstAddr.toNat + s.dstCap.toNat ≤ s.cfg.outCap)
include hdst

theorem decompressBody_of_no_table (h : s.tableValid = false) : decompressBody s = (s, raise .noTable) := by
  simp [decompressBody, (srcInRange_iff s).2 hsrc, (dstInRange_iff s).2 hdst, h]

variable (htab : s.tableValid = true)
include htab

theorem decompressBody_of_overflow (h : s.dstCap.toNat < s.expectCount.toNat) :
    decompressBody s = (s, raise .outputOverflow) := by
  simp [decompressBody, (srcInRange_iff s).2 hsrc, (dstInRange_iff s).2 hdst, htab, h]

theorem decompressBody_of_zero (h : s.expectCount = 0) : decompressBody s = (s, finish) := by
  simp [decompressBody, (srcInRange_iff s).2 hsrc, (dstInRange_iff s).2 hdst, htab, h]

theorem decompressBody_of_checks (hcap : s.expectCount.toNat ≤ s.dstCap.toNat) (h : s.expectCount ≠ 0) :
    decompressBody s = ({ s with outMem := (unpackSource s).1.out },
      { err := if (unpackSource s).2 then .ok else .truncatedInput
        len := (unpackSource s).1.count
        bits := (unpackSource s).1.used
        count := (unpackSource s).1.count }) := by
  rw [decompressBody, if_neg (not_not.2 ((srcInRange_iff s).2 hsrc)), if_neg (not_not.2 ((dstInRange_iff s).2 hdst)),
    if_neg (not_not.2 htab), if_neg hcap.not_gt, if_neg h, streamBits_eq_byteStream]
  change (_, if (unpackSource s).2 then _ else _) = _
  cases (unpackSource s).2 <;> rfl

end

/-- Settles O52: each error is one path of the body, which leaves the state alone. -/
theorem decompressEarlyErrorsInOrder : Obligations.DecompressEarlyErrorsInOrder := by
  unfold Obligations.DecompressEarlyErrorsInOrder
  intro s hf
  refine ⟨fun h => ?_, fun hsrc => ⟨fun h => ?_, fun hdst => ⟨fun h => ?_, fun htab h => ?_⟩⟩⟩
  · exact exec_of_commandBody (i := .decompress) hf (decompressBody_of_src_range h)
  · exact exec_of_commandBody (i := .decompress) hf (decompressBody_of_dst_range hsrc h)
  · exact exec_of_commandBody (i := .decompress) hf (decompressBody_of_no_table hsrc hdst h)
  · exact exec_of_commandBody (i := .decompress) hf (decompressBody_of_overflow hsrc hdst htab h)

/-- Settles O53: the path of the body for zero symbols comes before the source is read. -/
theorem decompressOfZeroSymbolsDoesNothing : Obligations.DecompressOfZeroSymbolsDoesNothing := by
  unfold Obligations.DecompressOfZeroSymbolsDoesNothing
  intro s hf hsrc hdst htab h
  exact exec_of_commandBody (i := .decompress) hf (decompressBody_of_zero hsrc hdst htab h)

/-! ### The bits of a code (00_scope.md R11) -/

@[simp] theorem length_codeSequence (c : Code) : (codeSequence c).length = c.len.toNat := by simp [codeSequence]

theorem codedStream_cons (t : Table Code) (x : Symbol) (xs : List Symbol) :
    codedStream t (x :: xs) = codeSequence (entry t x) ++ codedStream t xs := rfl

theorem codedStream_append (t : Table Code) (xs ys : List Symbol) :
    codedStream t (xs ++ ys) = codedStream t xs ++ codedStream t ys := List.flatMap_append

theorem codedStream_concat (t : Table Code) (xs : List Symbol) (x : Symbol) :
    codedStream t (xs ++ [x]) = codedStream t xs ++ codeSequence (entry t x) := by
  rw [codedStream_append, codedStream_cons]
  exact congrArg _ (List.append_nil _)

/-- A code that fits its length is read back from its bits. -/
theorem bitsValue_codeSequence {c : Code} (h : c.val.toNat < 2 ^ c.len.toNat) :
    bitsValue (codeSequence c) = c.val.toNat := by
  rw [← codeBits_eq_codeSequence, codeBits, bitsValue_bitsMsb h]

/-- A code with the length and the value of a bit sequence denotes that sequence. -/
theorem codeSequence_eq_of_value {c : Code} {l : List Bool} (hl : c.len.toNat = l.length)
    (hv : c.val.toNat = bitsValue l) : codeSequence c = l := by
  rw [← codeBits_eq_codeSequence, codeBits, hl, hv, bitsMsb_bitsValue]

/-- The code of `x` is a code, fits its length, and begins the bits: the unpacker can match it there. -/
structure CodeBegins (t : Table Code) (x : Symbol) (bits : List Bool) : Prop where
  coded : (entry t x).len ≠ 0
  fits : (entry t x).val.toNat < 2 ^ (entry t x).len.toNat
  front : codeSequence (entry t x) <+: bits

theorem not_codeBegins_nil (t : Table Code) (x : Symbol) : ¬ CodeBegins t x [] := by
  rintro ⟨hcoded, -, hfront⟩
  have hlen := congrArg List.length (List.prefix_nil.1 hfront)
  exact hcoded (BitVec.eq_of_toNat_eq (by simpa using hlen))

/-! ### One bit (45_bitstream_unpacker.md R240, R243) -/

/-- A match of a non-empty candidate is a symbol whose code is the candidate (45_bitstream_unpacker.md R243). -/
theorem codeSequence_of_codeMatch {t : Table Code} {cand : List Bool} {sym : Symbol} (hne : cand ≠ [])
    (h : codeMatch t cand.length (bitsValue cand) = some sym) :
    (entry t sym).len ≠ 0 ∧ codeSequence (entry t sym) = cand := by
  obtain ⟨hl, hv⟩ := codeMatch_some h
  refine ⟨fun h0 => hne (List.length_eq_zero_iff.1 ?_), codeSequence_eq_of_value hl hv⟩
  rw [← hl, h0]
  rfl

theorem codedStream_concat_of_codeMatch {t : Table Code} {cand : List Bool} {sym : Symbol} (hne : cand ≠ [])
    (h : codeMatch t cand.length (bitsValue cand) = some sym) (xs : List Symbol) :
    codedStream t (xs ++ [sym]) = codedStream t xs ++ cand := by
  rw [codedStream_concat, (codeSequence_of_codeMatch hne h).2]

/-- With no match a longer candidate still begins with no code. -/
theorem not_codeBegins_concat {t : Table Code} {cand : List Bool} {b : Bool} (h : ∀ x, ¬ CodeBegins t x cand)
    (hm : codeMatch t (cand ++ [b]).length (bitsValue (cand ++ [b])) = none) (x : Symbol) :
    ¬ CodeBegins t x (cand ++ [b]) := by
  rintro ⟨hcoded, hfits, hfront⟩
  rcases List.prefix_concat_iff.1 hfront with heq | hfront
  · exact codeMatch_none.1 hm x ⟨by rw [← heq, length_codeSequence], by rw [← heq, bitsValue_codeSequence hfits]⟩
  · exact h x ⟨hcoded, hfits, hfront⟩

/-- The unpacker after it has decoded the symbols `xs` and read the bits `cand` after their codes, which begin with no
code. -/
structure Unpacked (t : Table Code) (m : Memory) (dst : Nat) (xs : List Symbol) (cand : List Bool) (u : Unpacker) :
    Prop where
  cl : u.cl = cand.length
  cv : u.cv = bitsValue cand
  used : u.used = (codedStream t xs).length + cand.length
  count : u.count = xs.length
  out : WritesOnly m u.out dst xs.length
  bytes : ∀ (i : Nat) (h : i < xs.length), memGet u.out (dst + i) = some xs[i]
  coded : ∀ x ∈ xs, (entry t x).len ≠ 0
  unmatched : ∀ x, ¬ CodeBegins t x cand

theorem startUnpacker_unpacked (t : Table Code) (m : Memory) (dst : Nat) :
    Unpacked t m dst [] [] (startUnpacker m) where
  cl := rfl
  cv := rfl
  used := rfl
  count := rfl
  out := WritesOnly.refl m dst
  bytes _ h := nomatch h
  coded _ h := nomatch h
  unmatched := not_codeBegins_nil t

section
variable {t : Table Code} {m : Memory} {dst : Nat} {xs : List Symbol} {cand : List Bool} {u : Unpacker} {b : Bool}
  (h : Unpacked t m dst xs cand u)
include h

/-- The length and value that are looked up after one more bit are those of the longer candidate. -/
theorem Unpacked.codeMatch_eq : codeMatch t (u.cl + 1) (2 * u.cv + b.toNat) =
    codeMatch t (cand ++ [b]).length (bitsValue (cand ++ [b])) := by
  rw [h.cl, h.cv, bitsValue_concat, List.length_append, List.length_singleton]

theorem Unpacked.pushBit (hm : codeMatch t (cand ++ [b]).length (bitsValue (cand ++ [b])) = none) :
    Unpacked t m dst xs (cand ++ [b]) (pushBit u b) :=
  { h with
    cl := by rw [List.length_append, ← h.cl]; rfl
    cv := by rw [bitsValue_concat, ← h.cv]; rfl
    used := by rw [List.length_append, ← Nat.add_assoc, ← h.used]; rfl
    unmatched := not_codeBegins_concat h.unmatched hm }

/-- The byte of an emitted symbol comes right after those of the earlier ones. -/
theorem Unpacked.memGet_emit (sym : Symbol) (i : Nat) (hi : i < (xs ++ [sym]).length) :
    memGet (memSet u.out (dst + xs.length) sym) (dst + i) = some (xs ++ [sym])[i] := by
  by_cases hlast : i = xs.length
  · subst hlast
    simp
  · have hlt : i < xs.length := by simp at hi; omega
    rw [memGet_memSet_other _ _ (by omega), h.bytes i hlt, List.getElem_append_left hlt]

theorem Unpacked.emitSymbol {sym : Symbol}
    (hm : codeMatch t (cand ++ [b]).length (bitsValue (cand ++ [b])) = some sym) :
    Unpacked t m dst (xs ++ [sym]) [] (emitSymbol dst (Machine.pushBit u b) sym) := by
  obtain ⟨hcoded, -⟩ := codeSequence_of_codeMatch (by simp) hm
  have hout : (Machine.emitSymbol dst (Machine.pushBit u b) sym).out = memSet u.out (dst + xs.length) sym := by
    rw [← h.count]; rfl
  constructor
  case cl => rfl
  case cv => rfl
  case used =>
    rw [codedStream_concat_of_codeMatch (by simp) hm, List.length_append, List.length_append, ← Nat.add_assoc, ← h.used]
    rfl
  case count => rw [List.length_append, ← h.count]; rfl
  case out => rw [hout, List.length_append]; exact h.out.memSet sym
  case bytes => rw [hout]; exact h.memGet_emit sym
  case coded => simpa [or_imp, forall_and] using ⟨h.coded, hcoded⟩
  case unmatched => exact not_codeBegins_nil t

end

/-! ### The end of the bit loop (45_bitstream_unpacker.md R244-R246) -/

/-- The last bit before a candidate is given up (45_bitstream_unpacker.md R246). -/
theorem unpackBits_cons_full {t : Table Code} {dst expect : Nat} {b : Bool} {bs : List Bool} {u : Unpacker}
    (h : codeMatch t (u.cl + 1) (2 * u.cv + b.toNat) = none) (hl : u.cl + 1 = 255) :
    unpackBits t dst expect (b :: bs) u = (pushBit u b, false) := by
  simp only [unpackBits, pushBit, h]
  exact if_pos hl

/-- How the bit loop ends on the bits `stream`: it has decoded `xs` and read `cand` after them; it succeeds right after
the last expected symbol, and fails when a candidate has 255 bits or the bits end. -/
structure UnpackEnd (t : Table Code) (m : Memory) (dst expect : Nat) (stream : List Bool) (xs : List Symbol)
    (cand : List Bool) (r : Unpacker × Bool) : Prop where
  unpacked : Unpacked t m dst xs cand r.1
  front : codedStream t xs ++ cand <+: stream
  ends : (r.2 = true ∧ xs.length = expect ∧ cand = []) ∨
    (r.2 = false ∧ xs.length < expect ∧
      (cand.length = 255 ∨ cand.length < 255 ∧ codedStream t xs ++ cand = stream))

theorem unpackBits_ends {t : Table Code} {m : Memory} {dst expect : Nat} {stream : List Bool} (bits : List Bool)
    {xs : List Symbol} {cand : List Bool} {u : Unpacker} (h : Unpacked t m dst xs cand u) (hcount : xs.length < expect)
    (hcand : cand.length < 255) (hs : codedStream t xs ++ cand ++ bits = stream) :
    ∃ ys rest, UnpackEnd t m dst expect stream ys rest (unpackBits t dst expect bits u) := by
  induction bits generalizing xs cand u with
  | nil =>
    rw [List.append_nil] at hs
    exact ⟨xs, cand, h, hs ▸ List.prefix_rfl, .inr ⟨rfl, hcount, .inr ⟨hcand, hs⟩⟩⟩
  | cons b bits ih =>
    have hs' : codedStream t xs ++ (cand ++ [b]) ++ bits = stream := by simpa using hs
    cases hm : codeMatch t (cand ++ [b]).length (bitsValue (cand ++ [b])) with
    | some sym =>
      have hnext := h.emitSymbol hm
      have hstream := codedStream_concat_of_codeMatch (by simp) hm xs
      rw [unpackBits_cons_some (h.codeMatch_eq.trans hm), h.count]
      split
      · rename_i hlast
        refine ⟨_, _, hnext, ?_, .inl ⟨rfl, by simpa using hlast, rfl⟩⟩
        rw [List.append_nil, hstream]
        exact ⟨bits, hs'⟩
      · refine ih hnext (by rw [List.length_append, List.length_singleton]; omega) (by simp) ?_
        rw [List.append_nil, hstream, hs']
    | none =>
      have hnext := h.pushBit hm
      by_cases hfull : u.cl + 1 = 255
      · rw [unpackBits_cons_full (h.codeMatch_eq.trans hm) hfull]
        refine ⟨_, _, hnext, ⟨bits, hs'⟩, .inr ⟨rfl, hcount, .inl ?_⟩⟩
        rw [← hnext.cl, ← hfull]
        rfl
      · rw [unpackBits_cons_none (h.codeMatch_eq.trans hm) hfull]
        have hlen : (cand ++ [b]).length = u.cl + 1 := by rw [← hnext.cl]; rfl
        rw [h.cl] at hfull hlen
        exact ih hnext hcount (by omega) hs'

section
variable {t : Table Code} {m : Memory} {dst expect : Nat} {stream : List Bool} {xs : List Symbol} {cand : List Bool}
  {r : Unpacker × Bool} (h : UnpackEnd t m dst expect stream xs cand r)
include h

theorem UnpackEnd.length_le : xs.length ≤ expect := by
  rcases h.ends with ⟨-, hcount, -⟩ | ⟨-, hcount, -⟩ <;> omega

theorem UnpackEnd.done_iff : r.2 = true ↔ xs.length = expect := by
  rcases h.ends with ⟨hdone, hcount, -⟩ | ⟨hdone, hcount, -⟩
  · exact iff_of_true hdone hcount
  · exact iff_of_false (by simp [hdone]) hcount.ne

theorem UnpackEnd.used_le : r.1.used ≤ stream.length := by
  rw [h.unpacked.used, ← List.length_append]
  exact h.front.length_le

theorem UnpackEnd.used_of_done (hcount : xs.length = expect) : r.1.used = (codedStream t xs).length := by
  rcases h.ends with ⟨-, -, rfl⟩ | ⟨-, hlt, -⟩
  · exact h.unpacked.used
  · omega

/-- Without success the run consumes every bit of the source, or 255 after the last symbol if that comes first
(45_bitstream_unpacker.md R245, R246). -/
theorem UnpackEnd.used_of_truncated (hcount : xs.length < expect) :
    r.1.used = min stream.length ((codedStream t xs).length + 255) := by
  have hused := h.unpacked.used
  have hle := h.used_le
  rcases h.ends with ⟨-, heq, -⟩ | ⟨-, -, hfull | ⟨hlt, hall⟩⟩
  · omega
  · omega
  · rw [← hall, List.length_append]
    omega

/-- Without success no code begins the bits after those of the decoded symbols: a code is no longer than 255 bits, so it
would begin the candidate. -/
theorem UnpackEnd.not_codeBegins (hcount : xs.length < expect) (x : Symbol) :
    ¬ CodeBegins t x (stream.drop (codedStream t xs).length) := by
  rintro ⟨hcoded, hfits, hfront⟩
  refine h.unpacked.unmatched x ⟨hcoded, hfits, ?_⟩
  have hcand : cand <+: stream.drop (codedStream t xs).length := by
    obtain ⟨rest, hrest⟩ := h.front
    exact ⟨rest, by rw [← hrest, List.append_assoc, List.drop_left]⟩
  refine List.prefix_of_prefix_length_le hfront hcand ?_
  rcases h.ends with ⟨-, heq, -⟩ | ⟨-, -, hfull | ⟨-, hall⟩⟩
  · omega
  · rw [length_codeSequence, hfull]
    exact Nat.le_pred_of_lt (entry t x).len.isLt
  · rw [← hall, List.drop_left] at hfront
    exact hfront.length_le

end

/-- OUT_MEM as it reads after decoding: the symbols at `dst` onwards (45_bitstream_unpacker.md R240). -/
theorem Unpacked.byteAt_symbol {s : State} {dst : Nat} {xs : List Symbol} {cand : List Bool} {u : Unpacker}
    (h : Unpacked s.codes s.outMem dst xs cand u) (i : Nat) (hi : i < xs.length) :
    byteAt { s with outMem := u.out } .output (dst + i) = xs[i] := by
  simp only [byteAt, bufferOf, h.bytes i hi, Option.getD_some]

/-- OUT_MEM as it reads after decoding: every other byte is kept (45_bitstream_unpacker.md R247). -/
theorem Unpacked.byteAt_kept {s : State} {dst : Nat} {xs : List Symbol} {cand : List Bool} {u : Unpacker}
    (h : Unpacked s.codes s.outMem dst xs cand u) (a : Nat) (ha : ¬ (dst ≤ a ∧ a < dst + xs.length)) :
    byteAt { s with outMem := u.out } .output a = byteAt s .output a := by
  simp only [byteAt, bufferOf, h.out.kept a ha]

theorem length_byteStream_srcBytes (s : State) : (byteStream (srcBytes s)).length = 8 * s.srcLen.toNat := by
  rw [← streamBits_eq_byteStream, length_streamBits, length_srcBytes]

theorem unpackSource_ends {s : State} (h : s.expectCount ≠ 0) :
    ∃ xs cand, UnpackEnd s.codes s.outMem s.dstAddr.toNat s.expectCount.toNat (byteStream (srcBytes s)) xs cand
      (unpackSource s) :=
  unpackBits_ends _ (startUnpacker_unpacked s.codes s.outMem s.dstAddr.toNat)
    (Nat.pos_of_ne_zero fun h0 => h (BitVec.eq_of_toNat_eq h0)) (by simp) rfl

/-- Settles O54: the bit loop ends in one of the ways of `UnpackEnd`, and the report and OUT_MEM are read off it. -/
theorem decompressSucceedsOrIsTruncated : Obligations.DecompressSucceedsOrIsTruncated := by
  unfold Obligations.DecompressSucceedsOrIsTruncated
  intro s hf hsrc hdst htab hexpect hcap
  obtain ⟨xs, cand, h⟩ := unpackSource_ends hexpect
  have hlen := length_byteStream_srcBytes s
  refine ⟨xs, (unpackSource s).1.out, (unpackSource s).1.used, ?_, h.length_le, hlen ▸ h.used_le, h.unpacked.coded,
    (List.prefix_append _ _).trans h.front, h.unpacked.byteAt_symbol, h.unpacked.byteAt_kept, h.used_of_done,
    fun hlt => ⟨hlen ▸ h.used_of_truncated hlt, fun x hcoded hfits hfront =>
      h.not_codeBegins hlt x ⟨hcoded, hfits, hfront⟩⟩⟩
  rw [exec_of_commandBody (i := .decompress) hf (decompressBody_of_checks hsrc hdst htab hcap hexpect),
    h.unpacked.count]
  simp only [h.done_iff, apply_ite ErrCode.code]
  rfl

/-! ### A well-formed table is read in one way (43_code_assigner.md R200, 45_bitstream_unpacker.md R243) -/

/-- When one fitting code's bits begin another's, its value is the other's without the low bits. -/
theorem val_div_of_codeSequence_prefix {c d : Code} (hc : c.val.toNat < 2 ^ c.len.toNat)
    (hd : d.val.toNat < 2 ^ d.len.toNat) (h : codeSequence c <+: codeSequence d) :
    c.len.toNat ≤ d.len.toNat ∧ d.val.toNat / 2 ^ (d.len.toNat - c.len.toNat) = c.val.toNat := by
  have hle := h.length_le
  rw [length_codeSequence, length_codeSequence] at hle
  obtain ⟨low, hlow⟩ := h
  have hlen : low.length = d.len.toNat - c.len.toNat := by
    have := congrArg List.length hlow
    rw [List.length_append, length_codeSequence, length_codeSequence] at this
    omega
  refine ⟨hle, ?_⟩
  rw [← bitsValue_codeSequence hd, ← hlow, bitsValue_append, bitsValue_codeSequence hc, ← hlen, Nat.mul_comm,
    Nat.mul_add_div (by positivity), Nat.div_eq_of_lt (bitsValue_lt low), Nat.add_zero]

section
variable {t : Table Code} (ht : wfTable t)
include ht

theorem wfTable.val_lt {x : Symbol} (hx : (entry t x).len ≠ 0) :
    (entry t x).val.toNat < 2 ^ (entry t x).len.toNat := by
  obtain ⟨-, hfits, -⟩ := ht
  exact hfits x hx

/-- At most one symbol's code begins a bit sequence (45_bitstream_unpacker.md R243). -/
theorem wfTable.eq_of_prefix {x y : Symbol} {bits : List Bool} (hx : (entry t x).len ≠ 0) (hy : (entry t y).len ≠ 0)
    (hxb : codeSequence (entry t x) <+: bits) (hyb : codeSequence (entry t y) <+: bits) : x = y := by
  have hxfits := ht.val_lt hx
  have hyfits := ht.val_lt hy
  obtain ⟨-, -, hfree⟩ := ht
  by_contra hne
  rcases List.prefix_or_prefix_of_prefix hxb hyb with h | h
  · exact hfree x y hne hx hy (val_div_of_codeSequence_prefix hxfits hyfits h)
  · exact hfree y x (Ne.symm hne) hy hx (val_div_of_codeSequence_prefix hyfits hxfits h)

/-- Of two symbol sequences whose streams begin the same bits, one begins the other. -/
theorem wfTable.prefix_or_prefix {xs ys : List Symbol} {bits : List Bool} (hxs : ∀ x ∈ xs, (entry t x).len ≠ 0)
    (hys : ∀ y ∈ ys, (entry t y).len ≠ 0) (hx : codedStream t xs <+: bits) (hy : codedStream t ys <+: bits) :
    xs <+: ys ∨ ys <+: xs := by
  induction xs generalizing ys bits with
  | nil => exact .inl List.nil_prefix
  | cons x xs ih =>
    cases ys with
    | nil => exact .inr List.nil_prefix
    | cons y ys =>
      obtain ⟨hx0, hxs'⟩ := List.forall_mem_cons.1 hxs
      obtain ⟨hy0, hys'⟩ := List.forall_mem_cons.1 hys
      rw [codedStream_cons] at hx hy
      obtain rfl := ht.eq_of_prefix hx0 hy0 ((List.prefix_append _ _).trans hx) ((List.prefix_append _ _).trans hy)
      obtain ⟨rest, rfl⟩ := (List.prefix_append _ _).trans hx
      rw [List.prefix_append_right_inj] at hx hy
      exact (ih hxs' hys' hx hy).imp (List.prefix_cons_inj x).2 (List.prefix_cons_inj x).2

end

/-- Settles O55: what DECOMPRESS has decoded begins the coded symbols, and with fewer of them the code of the next one
would begin the bits left. -/
theorem decompressDecodesACodedStream : Obligations.DecompressDecodesACodedStream := by
  unfold Obligations.DecompressDecodesACodedStream
  intro s xs hf hsrc hdst htab hwf hcap hlen hne hcoded hfront
  have hexpect : s.expectCount ≠ 0 := fun h0 => hne (List.length_eq_zero_iff.1 (hlen.trans (congrArg BitVec.toNat h0)))
  obtain ⟨ys, m, used, hexec, hle, -, hys, hysfront, hbytes, hkept, hused, htrunc⟩ :=
    decompressSucceedsOrIsTruncated s hf hsrc hdst htab hexpect hcap
  have hpre : ys <+: xs := by
    rcases hwf.prefix_or_prefix hys hcoded hysfront hfront with h | h
    · exact h
    · exact (h.eq_of_length_le (by omega)) ▸ List.prefix_rfl
  obtain ⟨rest, rfl⟩ := hpre
  cases rest with
  | nil =>
    rw [List.append_nil] at hlen ⊢
    exact ⟨m, by rw [hexec, if_pos hlen, hused hlen], hbytes, hkept⟩
  | cons x rest =>
    have hx := hcoded x (by simp)
    have hlt : ys.length < s.expectCount.toNat := by simp at hlen; omega
    obtain ⟨-, hnext⟩ := htrunc hlt
    refine (hnext x hx (hwf.val_lt hx) ?_).elim
    obtain ⟨more, hmore⟩ := hfront
    rw [← hmore, codedStream_append, codedStream_cons, List.append_assoc, List.drop_left, List.append_assoc]
    exact List.prefix_append _ _

theorem codedStream_prefix (t : Table Code) {xs ys : List Symbol} (h : xs <+: ys) :
    codedStream t xs <+: codedStream t ys := by
  obtain ⟨rest, rfl⟩ := h
  rw [codedStream_append]
  exact List.prefix_append _ _

/-- Settles O56: what DECOMPRESS has decoded begins the coded symbols; the next code does not begin the bits left, so
they are a proper beginning of it and fewer than 255. -/
theorem shortenedStreamIsTruncatedInput : Obligations.ShortenedStreamIsTruncatedInput := by
  unfold Obligations.ShortenedStreamIsTruncatedInput
  intro s xs hf hsrc hdst htab hwf hcap hlen hcoded hshort hsource
  have hexpect : s.expectCount ≠ 0 := by
    rintro h0
    obtain rfl := List.length_eq_zero_iff.1 (hlen.trans (congrArg BitVec.toNat h0))
    simp [codedStream] at hshort
  obtain ⟨ys, m, used, hexec, -, -, hys, hysfront, hbytes, hkept, -, htrunc⟩ :=
    decompressSucceedsOrIsTruncated s hf hsrc hdst htab hexpect hcap
  have hbits := length_byteStream_srcBytes s
  have hyslen := hysfront.length_le
  have hpre : ys <+: xs := by
    rcases hwf.prefix_or_prefix hys hcoded (hysfront.trans hsource) List.prefix_rfl with h | h
    · exact h
    · have := (codedStream_prefix s.codes h).length_le
      omega
  obtain ⟨rest, rfl⟩ := hpre
  cases rest with
  | nil =>
    rw [List.append_nil] at hshort
    omega
  | cons x rest =>
    have hx := hcoded x (by simp)
    have hk : ys.length < (ys ++ x :: rest).length := by simp
    obtain ⟨hused, hnext⟩ := htrunc (hk.trans_eq hlen)
    have hleft : (byteStream (srcBytes s)).drop (codedStream s.codes ys).length <+:
        codeSequence (entry s.codes x) ++ codedStream s.codes rest := by
      have := hsource.drop (codedStream s.codes ys).length
      rwa [codedStream_append, codedStream_cons, List.drop_left] at this
    have hproper : 8 * s.srcLen.toNat - (codedStream s.codes ys).length < (entry s.codes x).len.toNat := by
      by_contra hge
      refine hnext x hx (hwf.val_lt hx) (List.prefix_of_prefix_length_le (List.prefix_append _ _) hleft ?_)
      rw [List.length_drop, hbits, length_codeSequence]
      omega
    have hlong := (entry s.codes x).len.isLt
    refine ⟨ys.length, m, ?_, hk, ?_, ?_, fun i _ hi => ?_, hkept⟩
    · rw [hexec, if_neg (hk.trans_eq hlen).ne, hused, min_eq_left (by omega)]
    · rw [List.take_left]
      omega
    · rw [List.take_length_add_append, List.take_succ_cons, List.take_zero, codedStream_concat, List.length_append,
        length_codeSequence]
      omega
    · rw [hbytes i hi, List.getElem_append_left hi]

/-! ### The round trip (45_bitstream_unpacker.md R248) -/

/-- The eight bits of a stream from `8j` on, padded with zeros: those of its byte `j` (44_bitstream_packer.md R221). -/
def streamWindow (bits : List Bool) (j : Nat) : List Bool := (List.range 8).map fun q => bits.getD (8 * j + q) false

theorem length_streamWindow (bits : List Bool) (j : Nat) : (streamWindow bits j).length = 8 := by simp [streamWindow]

theorem streamByte_eq_bitsValue (bits : List Bool) (j : Nat) : streamByte bits j = bitsValue (streamWindow bits j) := by
  have hsum := sum_window (length_streamWindow bits j).le
  rw [length_streamWindow, Nat.sub_self, Nat.pow_zero, Nat.mul_one] at hsum
  exact hsum

theorem byteBits_streamByte (bits : List Bool) (j : Nat) :
    byteBits (BitVec.ofNat 8 (streamByte bits j)) = streamWindow bits j := by
  have hlt := bitsValue_lt (streamWindow bits j)
  have hread := bitsMsb_bitsValue (streamWindow bits j)
  rw [length_streamWindow] at hlt hread
  rw [byteBits, streamByte_eq_bitsValue, BitVec.toNat_ofNat, Nat.mod_eq_of_lt hlt, hread]

/-- The first `n` bytes of a stream hold its first `8n` bits, padded with zeros. -/
theorem byteStream_streamBytes (bits : List Bool) (n : Nat) :
    byteStream ((List.range n).map fun j => BitVec.ofNat 8 (streamByte bits j)) =
      (List.range (8 * n)).map fun k => bits.getD k false := by
  rw [← streamBits_eq_byteStream]
  induction n with
  | zero => rfl
  | succ n ih =>
    rw [List.range_succ, List.map_append, streamBits, List.flatMap_append, ← streamBits, ih, Nat.mul_succ,
      List.range_add, List.map_append, List.map_map]
    simp [byteBits_streamByte, streamWindow]

/-- The bytes that hold a stream begin with it (44_bitstream_packer.md R221, R223). -/
theorem prefix_byteStream_streamBytes (bits : List Bool) :
    bits <+: byteStream ((List.range ((bits.length + 7) / 8)).map fun j => BitVec.ofNat 8 (streamByte bits j)) := by
  obtain ⟨pad, hpad⟩ := Nat.exists_eq_add_of_le (show bits.length ≤ 8 * ((bits.length + 7) / 8) by omega)
  have hself : (List.range bits.length).map (fun k => bits.getD k false) = bits :=
    List.ext_getElem (by simp) fun k _ hk => by simp [hk]
  rw [byteStream_streamBytes, hpad, List.range_add, List.map_append, hself]
  exact List.prefix_append _ _

/-- A source of the right length that holds the bytes of a stream begins with that stream. -/
theorem prefix_byteStream_srcBytes {v : State} {bits : List Bool} (hlen : v.srcLen.toNat = (bits.length + 7) / 8)
    (h : ∀ j, j < v.srcLen.toNat → byteAt v .input (v.srcAddr.toNat + j) = BitVec.ofNat 8 (streamByte bits j)) :
    bits <+: byteStream (srcBytes v) := by
  have hbytes : srcBytes v = (List.range ((bits.length + 7) / 8)).map fun j => BitVec.ofNat 8 (streamByte bits j) := by
    rw [srcBytes, hlen]
    exact List.map_congr_left fun j hj => h j (by rw [hlen]; exact List.mem_range.1 hj)
  rw [hbytes]
  exact prefix_byteStream_streamBytes bits

/-- What BUILD_TABLE of a non-empty source in range leaves for a COMPRESS of the same source: a well-formed table with a
code for every byte (43_code_assigner.md R195, R196), and the operands and the source as they were. -/
structure ReadyToCompress (s t : State) : Prop where
  notFatal : t.fatal = false
  tableValid : t.tableValid = true
  wf : wfTable t.codes
  coded : ∀ x ∈ srcBytes s, (entry t.codes x).len ≠ 0
  cfg : t.cfg = s.cfg
  srcAddr : t.srcAddr = s.srcAddr
  srcLen : t.srcLen = s.srcLen
  dstAddr : t.dstAddr = s.dstAddr
  dstCap : t.dstCap = s.dstCap
  srcBytes : srcBytes t = srcBytes s

theorem readyToCompress_of_buildTable {s t : State} (hf : s.fatal = false)
    (hsrc : s.srcAddr.toNat + s.srcLen.toNat ≤ s.cfg.inCap) (hne : s.srcLen ≠ 0) (ht : exec .buildTable s = .next t) :
    ReadyToCompress s t := by
  have hcur := countAndBuild_treeIsCurrent hne
  rw [exec_buildTable_of_nonempty hf hsrc hne, assignCodes_of_ok hcur.assignOk] at ht
  obtain rfl := Host.Outcome.next.inj ht
  exact
    { notFatal := hf
      tableValid := rfl
      wf := hcur.wfTable
      coded := fun x hx => (hcur.len_ne_zero_iff x).2 ((entry_addCounts_emptyFreq_ne_zero_iff s x).2 hx)
      cfg := rfl
      srcAddr := rfl
      srcLen := rfl
      dstAddr := rfl
      dstCap := rfl
      srcBytes := rfl }

/-- COMPRESS in such a state succeeds and leaves the bytes of the coded stream (44_bitstream_packer.md R221). -/
theorem ReadyToCompress.exec_compress {s t : State} (h : ReadyToCompress s t)
    (hsrc : s.srcAddr.toNat + s.srcLen.toNat ≤ s.cfg.inCap) (hdst : s.dstAddr.toNat + s.dstCap.toNat ≤ s.cfg.outCap)
    (hfits : ((codedStream t.codes (Machine.srcBytes s)).length + 7) / 8 ≤ s.dstCap.toNat) :
    ∃ m, exec .compress t = .next (State.completed { t with outMem := m } 0
        (((codedStream t.codes (Machine.srcBytes s)).length + 7) / 8)
        (codedStream t.codes (Machine.srcBytes s)).length s.srcLen.toNat) ∧
      ∀ j, j < ((codedStream t.codes (Machine.srcBytes s)).length + 7) / 8 →
        byteAt { t with outMem := m } .output (t.dstAddr.toNat + j) =
          BitVec.ofNat 8 (streamByte (codedStream t.codes (Machine.srcBytes s)) j) := by
  rw [← h.srcAddr, ← h.srcLen, ← h.cfg] at hsrc
  rw [← h.dstAddr, ← h.dstCap, ← h.cfg] at hdst
  rw [← h.srcBytes, ← h.dstCap] at hfits
  obtain ⟨m, hu, hm⟩ := compressWritesTheBitstream t h.notFatal hsrc hdst h.tableValid (h.srcBytes ▸ h.coded) hfits
  rw [← h.srcBytes, ← h.srcLen]
  refine ⟨m, hu, fun j hj => ?_⟩
  rw [hm, if_pos ⟨Nat.le_add_right _ _, Nat.add_lt_add_left hj _⟩, Nat.add_sub_cancel_left]

/-- Settles O57: COMPRESS writes the bytes of the coded stream (O48), so the source of DECOMPRESS begins with that
stream, which decodes to the input because the table is well-formed (O55). -/
theorem compressThenDecompressRoundTrip : Obligations.CompressThenDecompressRoundTrip := by
  unfold Obligations.CompressThenDecompressRoundTrip
  intro s t hf _ hsrc hne hdst ht hfits
  have hready := readyToCompress_of_buildTable hf hsrc hne ht
  obtain ⟨m, hu, hm⟩ := hready.exec_compress hsrc hdst hfits
  have hlen : (BitVec.ofNat 32 (((codedStream t.codes (srcBytes s)).length + 7) / 8)).toNat =
      ((codedStream t.codes (srcBytes s)).length + 7) / 8 := by
    rw [BitVec.toNat_ofNat, Nat.mod_eq_of_lt (hfits.trans_lt s.dstCap.isLt)]
  refine ⟨_, hu, rfl, hlen, ?_⟩
  intro v hvf _ hvcodes hvtab hvsrc hvdst hvcount hvcap hvlen hvbytes
  have hvlen' : v.srcLen.toNat = ((codedStream t.codes (srcBytes s)).length + 7) / 8 :=
    (congrArg BitVec.toNat hvlen).trans hlen
  have hvcodes' : v.codes = t.codes := hvcodes
  have hfront := prefix_byteStream_srcBytes hvlen' fun j hj => (hvbytes j hj).trans (hm j (hvlen' ▸ hj))
  have hnonempty : srcBytes s ≠ [] := fun h =>
    hne (BitVec.eq_of_toNat_eq ((length_srcBytes s).symm.trans (congrArg List.length h)))
  have hcount : (srcBytes s).length = v.expectCount.toNat := by rw [hvcount, length_srcBytes]
  rw [← hvcodes'] at hfront
  obtain ⟨m', hz, hbytes, -⟩ := decompressDecodesACodedStream v (srcBytes s) hvf hvsrc hvdst
    (hvtab.trans hready.tableValid) (hvcodes' ▸ hready.wf) hvcap hcount hnonempty (hvcodes' ▸ hready.coded) hfront
  refine ⟨_, hz, rfl, ?_, ?_, fun i hi => ?_⟩
  · rw [completed_resultBits, completed_resultBits, hvcodes']
  · rw [completed_resultCount, length_srcBytes, BitVec.ofNat_toNat, BitVec.setWidth_eq]
  · exact (hbytes i (by rwa [length_srcBytes])).trans (getElem_srcBytes s i _)

end Sys2Proof.Machine

/-! ## Proofs: exceptions and interrupts (60_exceptions.md) -/

namespace Sys2Proof.Machine

/-! ### The interrupt output (60_exceptions.md R270) -/

/-- IRQ, source by source. -/
theorem irq_iff_exists (s : State) :
    irq s = true ↔ ∃ i : Fin 4, s.intStatus.getLsbD i = true ∧ s.intEnable.getLsbD i = true := by
  rw [irq, decide_eq_true_iff, ne_eq, BitVec.eq_of_getLsbD_eq_iff]
  simp only [Fin.exists_iff, not_forall, BitVec.ofNat_eq_ofNat, BitVec.getLsbD_zero, BitVec.getLsbD_and,
    Bool.not_eq_false, Bool.and_eq_true]

/-- Settles O21: the masked word is not zero exactly when it has a bit, and a W1C write acts bit by bit. -/
theorem irqIsTheMaskedOr : Obligations.IrqIsTheMaskedOr := by
  unfold Obligations.IrqIsTheMaskedOr
  exact fun s => ⟨irq_iff_exists s, fun w i => acknowledge_intStatus_getLsbD s w i.isLt⟩

/-! ### A step always answers a next state (60_exceptions.md R262, R267) -/

/-- The block's turn, idle or not and whatever the word in CUR_CMD, ends in a next state: a completion is the one way a
command ends. -/
theorem blockTurn_answers (s : State) : ∃ t, blockTurn s = .next t := by
  cases hb : s.busy with
  | false => exact ⟨s, blockTurn_of_idle hb⟩
  | true =>
    obtain ⟨body, hbody⟩ := runCurrent_eq s
    obtain ⟨u, e, rl, rb, rc, -, hu⟩ := command_completes s body
    exact ⟨_, (blockTurn_of_busy hb).trans (hbody.trans hu)⟩

/-- Settles O7: a host access and a reset are next states by definition, and the block's turn ends in one. -/
theorem everyStepAnswersANextState : Obligations.EveryStepAnswersANextState := by
  unfold Obligations.EveryStepAnswersANextState
  intro s
  unfold step
  cases nextEvent s with
  | host a => exact ⟨_, rfl⟩
  | block => exact blockTurn_answers (popEvent s)
  | reset => exact ⟨_, rfl⟩

/-! ### Pending bits are sticky (60_exceptions.md R269) -/

theorem pend_keeps_pending {v : BitVec 4} {j : Nat} (h : v.getLsbD j = true) (i : IntSource) :
    (pend v i).getLsbD j = true := by simp [pend, h]

/-- The completion record raises interrupts and clears none (40_command_lifecycle.md R133). -/
theorem completed_keeps_pending {s : State} {j : Nat} (h : s.intStatus.getLsbD j = true) (e : BitVec 8)
    (rl rb rc : Nat) : (s.completed e rl rb rc).intStatus.getLsbD j = true := by
  rw [completed_intStatus]
  split <;> simp [h]

/-- A completion, the word in CUR_CMD legal or not, is a record over a state with the same INT_STATUS: no command's own
effect reaches it. -/
theorem runCurrent_completes {s t : State} (h : runCurrent s = .next t) :
    ∃ (u : State) (e : BitVec 8) (rl rb rc : Nat), u.intStatus = s.intStatus ∧ t = u.completed e rl rb rc := by
  cases hd : decode s.curCmd with
  | ok i =>
    rw [runCurrent_of_decode_ok hd] at h
    obtain ⟨u, e, rl, rb, rc, hw, rfl⟩ := exec_cases h
    exact ⟨u, e, rl, rb, rc, by rw [hw.others], rfl⟩
  | error _ =>
    rw [runCurrent_of_decode_error hd] at h
    rcases command_cases h with ⟨-, rfl⟩ | ⟨-, rfl⟩ <;> exact ⟨s, _, _, _, _, rfl, rfl⟩

/-- Of the register writes only that of INT_STATUS clears a pending bit, and only one written as 1 (10_state.md R42). -/
theorem regWrite_keeps_pending {s : State} {j : Nat} (h : s.intStatus.getLsbD j = true) (r : Reg) (w : Word) :
    (regWrite s r w).intStatus.getLsbD j = true ∨ r = .intStatus ∧ w.getLsbD j = true := by
  cases r with
  | intStatus =>
    cases hw : w.getLsbD j with
    | true => exact .inr ⟨rfl, rfl⟩
    | false => exact .inl ((acknowledge_intStatus_getLsbD s w (BitVec.lt_of_getLsbD h)).trans (by simp [h, hw]))
  | _ => exact .inl h

/-- A host access keeps a pending bit, except a 32-bit write of INT_STATUS, at offset 0x010, with that bit set. -/
theorem hostStep_keeps_pending {s : State} {j : Nat} (h : s.intStatus.getLsbD j = true) (a : HostAccess) :
    (hostStep s a).intStatus.getLsbD j = true ∨ ∃ w : Word, a = .write 0x010 .word w ∧ w.getLsbD j = true := by
  cases a with
  | read o n =>
    rcases hostRead_cases s o n with ⟨_, -, -, e⟩ | e <;> rw [hostStep, e]
    · exact .inl h
    · exact .inl (pend_keeps_pending h .accessErr)
  | write o n d =>
    rcases hostWrite_cases s o n d with ⟨r, hr, -, e⟩ | ⟨b, x, -, -, e⟩ | ⟨-, e⟩ | e <;> rw [hostStep, e]
    · rcases regWrite_keeps_pending h r d with hkept | ⟨rfl, hd⟩
      · exact .inl hkept
      · obtain ⟨rfl, rfl⟩ := resolve_reg hr
        exact .inr ⟨d, rfl, hd⟩
    · cases b <;> exact .inl h
    · exact .inl (pend_keeps_pending h .cmdOverrun)
    · exact .inl (pend_keeps_pending h .accessErr)

/-- Settles O22: of the kinds of step only a reset and a W1C write clear a bit of INT_STATUS; a completion and a
rejected or overrunning access set bits, and every other step leaves the register alone. -/
theorem interruptBitsAreSticky : Obligations.InterruptBitsAreSticky := by
  unfold Obligations.InterruptBitsAreSticky
  intro s t j hstep h
  rcases step_cases hstep with ⟨a, rest, hs, rfl⟩ | ⟨rest, hs, -⟩ | ⟨-, -, rfl⟩ | ⟨-, -, hrun⟩
  · rcases hostStep_keeps_pending (s := { s with sched := rest }) h a with hkept | ⟨w, rfl, hw⟩
    · exact .inl hkept
    · exact .inr (.inr ⟨w, congrArg List.head? hs, hw⟩)
  · exact .inr (.inl (congrArg List.head? hs))
  · exact .inl h
  · obtain ⟨u, e, rl, rb, rc, hu, rfl⟩ := runCurrent_completes hrun
    exact .inl (completed_keeps_pending (hu ▸ h) e rl rb rc)

end Sys2Proof.Machine

/-! ## Proofs: reset (70_reset_and_hazards.md R290-R292) -/

namespace Sys2Proof.Machine

/-- Nothing busy, valid, fatal or in error: every bit of STATUS is 0. -/
theorem statusWord_resetState (s : State) : statusWord (resetState s) = 0 := by
  simp [statusWord, State.reset]

/-- With nothing pending the interrupt output is low. -/
theorem irq_resetState (s : State) : irq (resetState s) = false := by
  simp [irq, State.reset]

theorem resetState_freq_eq_emptyFreq (s : State) : (resetState s).freq = emptyFreq := rfl

theorem resetState_codes_eq_emptyCodes (s : State) : (resetState s).codes = emptyCodes := rfl

theorem entry_emptyCodes (x : Symbol) : entry emptyCodes x = { len := 0, val := 0 } := entry_constTable _ x

/-- Reset forgets every written byte, so each offset of either buffer reads as its draw of the new epoch. -/
theorem byteAt_resetState (s : State) (b : BufferId) (a : Nat) :
    byteAt (resetState s) b a = Config.resetByte b (s.epoch + 1) a := by
  cases b <;> rfl

/-- Settles O25: a reset step ends in `resetState` whatever BUSY is. Its registers and flags are those of `State.reset`,
its tables are the empty ones, and its buffers list no byte. -/
theorem resetLeavesTheSpecifiedValues : Obligations.ResetLeavesTheSpecifiedValues := by
  unfold Obligations.ResetLeavesTheSpecifiedValues
  intro s rest h
  have hfreq := resetState_freq_eq_emptyFreq { s with sched := rest }
  have hcodes := resetState_codes_eq_emptyCodes { s with sched := rest }
  refine ⟨resetState { s with sched := rest }, step_of_reset h, rfl, rfl, rfl, statusWord_resetState _, rfl, rfl, rfl,
    rfl, rfl, rfl, rfl, irq_resetState _, rfl, rfl, rfl, rfl, rfl, rfl, rfl, rfl, rfl, rfl, fun x => ?_, ?_,
    fun x => ?_, rfl, rfl, rfl, byteAt_resetState _⟩
  · rw [hfreq, entry_emptyFreq]
  · rw [hfreq, nsym_emptyFreq]
  · rw [hcodes, entry_emptyCodes]
    exact ⟨rfl, rfl⟩

end Sys2Proof.Machine
